-- ==== Sys2Proof/Word.lean ====
section
/-! DEFINITION. The word types: a register or command word of 32 bits and a byte (R8, R61, R74). -/

namespace Sys2Proof

/-- A register, a command word, a position counter: 32 bits, unsigned (R8, R69). -/
abbrev Word := BitVec 32

/-- A byte of a byte stream or of an immediate operand: 0 to 255 (R61). -/
abbrev Byte := BitVec 8

end Sys2Proof
end

