-- ==== Sys2Proof/Syntax.lean ====
section
/-! DEFINITION. The commands of the block, one constructor per row of spec/opcode_table.json (R101), and the method tags (R98). -/

namespace Sys2Proof

/-- A supported compression method: the closed enumeration behind the 2-bit tag, in tag order (R98). -/
inductive Method
  | gzip
  | lzma
  | bz2
  | zlib
  deriving DecidableEq, Repr

/-- A command (R14: the block's only "instruction"), its operand as R101 and R102 read it from the field `A`. -/
inductive Instr
  | nop
  /-- `TONE sel`: `sel` is `A[0]`, true for the mark frequency. -/
  | tone (sel : Bool)
  | sil
  /-- `TXBIT b`: `b` is `A[0]`. -/
  | txbit (bit : Bool)
  /-- `TXBYTE v`: `v` is `A[7:0]`. -/
  | txbyte (byte : Byte)
  | txend
  | txraw
  /-- `TXFRAME tag`: the tag is `A[1:0]`. -/
  | txframe (tag : Method)
  | rxslot
  | rxflush
  | rxraw
  | rxframe
  | hparse
  | clrerr
  | reset
  deriving DecidableEq, Repr

end Sys2Proof
end

