-- ==== Sys2Proof/WellFormed.lean ====
section
/-! DEFINITION. Which command words are legal, written from R100, R101 and R103 and not from the decoder's masks, and the same check for a command's own fields. -/

namespace Sys2Proof

/-- `OP` names an operation of R101: it is not 0x0D and not in 0x10 to 0xFF (R103). -/
def legalOp (op : Byte) : Bool :=
  op.toNat < 16 && op != 0x0D#8

/-- `A` has no 1 in a bit that R101 says is 0 for this `OP` (R103). -/
def legalOperand (op a : Byte) : Bool :=
  if op = 0x01#8 ∨ op = 0x03#8 then a.toNat < 2
  else if op = 0x04#8 then true
  else if op = 0x07#8 then a.toNat < 4
  else a = 0#8

/-- The three conditions of R103 on the fields of a command word. -/
def legalFields (op a : Byte) (reserved : BitVec 16) : Bool :=
  legalOp op && legalOperand op a && reserved = 0#16

/-- A 32-bit word is a legal command word (R100, R103). -/
def legalWord (w : Word) : Bool :=
  legalFields (w.extractLsb' 0 8) (w.extractLsb' 8 8) (w.extractLsb' 16 16)

/-- The `OP` code of a command (R101). -/
def Instr.opField : Instr → Byte
  | .nop => 0x00#8
  | .tone _ => 0x01#8
  | .sil => 0x02#8
  | .txbit _ => 0x03#8
  | .txbyte _ => 0x04#8
  | .txend => 0x05#8
  | .txraw => 0x06#8
  | .txframe _ => 0x07#8
  | .rxslot => 0x08#8
  | .rxflush => 0x09#8
  | .rxraw => 0x0A#8
  | .rxframe => 0x0B#8
  | .hparse => 0x0C#8
  | .clrerr => 0x0E#8
  | .reset => 0x0F#8

/-- The number a 2-bit method tag stands for (R98). -/
def Method.number : Method → Nat
  | .gzip => 0
  | .lzma => 1
  | .bz2 => 2
  | .zlib => 3

/-- The operand field `A` of a command (R101, R102). -/
def Instr.operandField : Instr → Byte
  | .tone sel => if sel then 1#8 else 0#8
  | .txbit bit => if bit then 1#8 else 0#8
  | .txbyte byte => byte
  | .txframe tag => BitVec.ofNat 8 tag.number
  | .nop | .sil | .txend | .txraw | .rxslot | .rxflush | .rxraw | .rxframe | .hparse
  | .clrerr | .reset => 0#8

/-- A command whose fields make a legal word. Its operand types admit only such commands. -/
def Instr.wellFormed (i : Instr) : Bool :=
  legalFields i.opField i.operandField 0#16

end Sys2Proof
end

