-- ==== Sys2Proof/Decode.lean ====
section
/-! DEFINITION. Decoding a command word by the masks of R111, total, refusing every other word; and the encoder, written from the field layout of R100 and R101. -/

namespace Sys2Proof

/-- The method of a 2-bit tag: every value is a supported method (R98). -/
def Method.ofTag (t : BitVec 2) : Method :=
  if t = 0#2 then .gzip
  else if t = 1#2 then .lzma
  else if t = 2#2 then .bz2
  else .zlib

/-- The 2-bit tag of a method (R98). -/
def Method.tag : Method → BitVec 2
  | .gzip => 0#2
  | .lzma => 1#2
  | .bz2 => 2#2
  | .zlib => 3#2

/-- A word selects a row of R111 when it agrees with the row's match under its mask. -/
def selects (w mask mtch : Word) : Bool :=
  w &&& mask == mtch

/-- The command a word stands for; none for a word that selects no row, which is illegal (R103, R111). -/
def decode (w : Word) : Option Instr :=
  if selects w 0xFFFFFFFF#32 0x00000000#32 then some .nop
  else if selects w 0xFFFFFEFF#32 0x00000001#32 then some (.tone (w.getLsbD 8))
  else if selects w 0xFFFFFFFF#32 0x00000002#32 then some .sil
  else if selects w 0xFFFFFEFF#32 0x00000003#32 then some (.txbit (w.getLsbD 8))
  else if selects w 0xFFFF00FF#32 0x00000004#32 then some (.txbyte (w.extractLsb' 8 8))
  else if selects w 0xFFFFFFFF#32 0x00000005#32 then some .txend
  else if selects w 0xFFFFFFFF#32 0x00000006#32 then some .txraw
  else if selects w 0xFFFFFCFF#32 0x00000007#32 then
    some (.txframe (Method.ofTag (w.extractLsb' 8 2)))
  else if selects w 0xFFFFFFFF#32 0x00000008#32 then some .rxslot
  else if selects w 0xFFFFFFFF#32 0x00000009#32 then some .rxflush
  else if selects w 0xFFFFFFFF#32 0x0000000A#32 then some .rxraw
  else if selects w 0xFFFFFFFF#32 0x0000000B#32 then some .rxframe
  else if selects w 0xFFFFFFFF#32 0x0000000C#32 then some .hparse
  else if selects w 0xFFFFFFFF#32 0x0000000E#32 then some .clrerr
  else if selects w 0xFFFFFFFF#32 0x0000000F#32 then some .reset
  else none

/-- A command word from its fields: `OP` in bits 7:0, `A` in bits 15:8, zeros above (R100). -/
def commandWord (op a : Byte) : Word :=
  0#16 ++ a ++ op

/-- The operand `A` that carries a 1-bit operand in `A[0]` (R102). -/
def bitOperand (b : Bool) : Byte :=
  if b then 0x01#8 else 0x00#8

/-- The command word of a command (R100, R101). -/
def encode : Instr → Word
  | .nop => commandWord 0x00#8 0#8
  | .tone sel => commandWord 0x01#8 (bitOperand sel)
  | .sil => commandWord 0x02#8 0#8
  | .txbit bit => commandWord 0x03#8 (bitOperand bit)
  | .txbyte byte => commandWord 0x04#8 byte
  | .txend => commandWord 0x05#8 0#8
  | .txraw => commandWord 0x06#8 0#8
  | .txframe tag => commandWord 0x07#8 (0#6 ++ tag.tag)
  | .rxslot => commandWord 0x08#8 0#8
  | .rxflush => commandWord 0x09#8 0#8
  | .rxraw => commandWord 0x0A#8 0#8
  | .rxframe => commandWord 0x0B#8 0#8
  | .hparse => commandWord 0x0C#8 0#8
  | .clrerr => commandWord 0x0E#8 0#8
  | .reset => commandWord 0x0F#8 0#8

/-- The word whose `nbits` low bits are those of `w`, the bits above zero: a command is one 32-bit
word of the register space, which has no byte order (R67, R100). -/
def tableWord (nbits w : Nat) : Word :=
  BitVec.ofNat 32 (w % 2 ^ nbits)

/-- The command the decoder reads from an opcode-table word. -/
def decodeTableWord (nbits w : Nat) : Option Instr :=
  decode (tableWord nbits w)

end Sys2Proof
end

