-- ==== Sys2Proof/Config.lean ====
section
/-! DEFINITION. What an implementation fixes: the parameters of R7, each open one a constant with no body (the machine arithmetic, `Config.numerics`, stands with its laws in Machine/Numerics.lean). -/

namespace Sys2Proof

/-- One sample of `TXS` or `RXS` as the state holds it: a name of a value of the open type `Numerics.Sample`
(R11, R61, R108), as row 4 of 93_implementation_defined.md has a model carry samples abstractly. No width, rounding
or range is assumed; what a name stands for is its `sval`, which no machine definition reads (assumption 1). -/
structure Sample where
  code : Nat
  deriving DecidableEq, Repr, Inhabited

/-- The `Numerics` record of R11 over its field `Sample`, here the parameter `S`, any type. Every rule that makes or judges
a sample goes through it. N1 holds because the fields are functions; N2 to N5 are `Numerics.Lawful`. -/
structure Numerics (S : Type) where
  /-- `sval`. -/
  sval : S → ℝ
  /-- `SZERO`. -/
  szero : S
  /-- `SIN_S(θ)`, `θ` in turns. -/
  sinS : Rat → S
  /-- `BIN_GT(x, ka, kb)`. -/
  binGt : List S → Nat → Nat → Bool
  /-- `EPS_SIN`, a parameter of the instance (N2). -/
  epsSin : ℝ
  /-- `EPS_MAG(N)`, a parameter of the instance (N4). -/
  epsMag : Nat → ℝ

/-- The five streams (R47, R60). -/
inductive StreamName
  | txd
  | txs
  | rxs
  | rxd
  | rxb
  deriving DecidableEq, Repr

/-- The parameters of the step relation that are not state (R7, R48): the machine arithmetic and the
stream depths `DEPTH_P`, `none` for an unbounded stream (R64). -/
structure Params where
  num : Numerics Sample
  depth : StreamName → Option Nat

/-- The agents that take steps: the host, and the engines `TX` and `RX`; `HP` steps inside `RX` (R12). -/
inductive Agent
  | host
  | tx
  | rx
  deriving DecidableEq, Repr, Inhabited

/-- The five configuration registers that commands use (R21 to R25): integers, the durations in
`DUR_UNIT = 10^-9 s`. -/
structure Cfg where
  sampleRate : Word
  freqHigh : Word
  freqLow : Word
  bitDur : Word
  silDur : Word
  deriving DecidableEq, Repr, Inhabited

namespace Config

/-- `DEF_SR`, `DEF_FH`, `DEF_FL`, `DEF_BD`, `DEF_SD`: open (R7, R243). -/
opaque defaults : Cfg

/-- `DEF_SM`: open (R7, R243). -/
opaque defStartMarker : Byte

/-- `DEF_EM`: open (R7, R243). -/
opaque defEndMarker : Byte

/-- What `K_HIGH` and `K_LOW` show for a bin that 32 bits cannot hold: R29 states no value there. -/
opaque wideBin : Nat → Word

/-- Whose turn it is when the state's own list of turns is empty: no rule fixes the interleaving (R76). -/
opaque freeAgent : Nat → Agent

end Config

end Sys2Proof
end

