-- ==== Sys2Proof/Machine/Derived.lean ====
section
/-! DEFINITION. The values derived from a configuration: rounding (R9, R15), sample counts (R28), bins (R29), the checks (R31) and the advisory conditions (R32), and the reset defaults (R243). -/

namespace Sys2Proof.Machine

/-- `rnd(p/q)` computed exactly: the nearest integer, a tie to the even one (R9, R15). -/
def rndDiv (p q : Nat) : Nat :=
  if 2 * (p % q) < q then p / q
  else if q < 2 * (p % q) then p / q + 1
  else if p / q % 2 = 0 then p / q
  else p / q + 1

/-- `rnd(x)` for a rational `x ≥ 0` (R9). -/
def rnd (x : Rat) : Nat :=
  rndDiv x.num.toNat x.den

/-- `DUR_UNIT` in units per second (R7). -/
def unitsPerSecond : Nat := 1000000000

/-- The seconds a duration register stands for: `bd = BIT_DUR · 10^-9` (R24, R25). -/
def seconds (d : Word) : Rat :=
  (d.toNat : Rat) / (unitsPerSecond : Rat)

end Sys2Proof.Machine

namespace Sys2Proof

open Machine

/-- `n_tone = rnd(SR · BD / 10^9)`, exact (R28). -/
def Cfg.nTone (c : Cfg) : Nat :=
  rndDiv (c.sampleRate.toNat * c.bitDur.toNat) unitsPerSecond

/-- `n_sil = rnd(SR · SD / 10^9)`, exact (R28). -/
def Cfg.nSil (c : Cfg) : Nat :=
  rndDiv (c.sampleRate.toNat * c.silDur.toNat) unitsPerSecond

/-- `n_slot = rnd(SR · (BD + SD) / 10^9)`, exact (R28). -/
def Cfg.nSlot (c : Cfg) : Nat :=
  rndDiv (c.sampleRate.toNat * (c.bitDur.toNat + c.silDur.toNat)) unitsPerSecond

end Sys2Proof

namespace Sys2Proof.Machine

/-- The value a 32-bit count register shows: saturated at `2^32 - 1` (R28). -/
def saturate (n : Nat) : Word :=
  BitVec.ofNat 32 (min n (2 ^ 32 - 1))

/-- The value a 32-bit bin register shows: the bin, or an open value where 32 bits cannot hold it, which needs
`n_tone ≥ 2^33`, a configuration no command accepts (R29, R31; assumption 10). -/
def binWord (k : Nat) : Word :=
  if k < 2 ^ 32 then BitVec.ofNat 32 k else Config.wideBin k

/-- `kbin(f, N, SR)` by the formula R29 gives: `min(floor(N/2), max(0, ceil(f·N/SR - 1/2)))`, and 0 when
`N = 0` or `SR = 0`. The truncated subtraction is the `max` with 0. -/
def kbin (f n sr : Nat) : Nat :=
  if n = 0 ∨ sr = 0 then 0
  else min (n / 2) ((2 * f * n - sr + (2 * sr - 1)) / (2 * sr))

/-- The distance R29 minimises: `|k·SR - f·N|`. -/
def binDistance (f n sr k : Nat) : Nat :=
  (k * sr - f * n) + (f * n - k * sr)

end Sys2Proof.Machine

namespace Sys2Proof

open Machine

/-- `K_HIGH` (R29). -/
def Cfg.kHigh (c : Cfg) : Nat :=
  kbin c.freqHigh.toNat c.nTone c.sampleRate.toNat

/-- `K_LOW` (R29). -/
def Cfg.kLow (c : Cfg) : Nat :=
  kbin c.freqLow.toNat c.nTone c.sampleRate.toNat

end Sys2Proof

namespace Sys2Proof.Machine

/-- Bit `n` of a register, set when `b` holds. -/
def flagBit (n : Nat) (b : Bool) : Word :=
  if b then 1#32 <<< n else 0#32

/-- `CFGCHK`: a bit is 1 when its check fails (R31). -/
def cfgchk (c : Cfg) : Word :=
  flagBit 0 (c.sampleRate = 0#32)
    ||| flagBit 1 (c.freqHigh = 0#32)
    ||| flagBit 2 (c.freqLow = 0#32)
    ||| flagBit 3 (c.freqHigh = c.freqLow)
    ||| flagBit 4 (c.bitDur = 0#32)
    ||| flagBit 5 (c.silDur = 0#32)
    ||| flagBit 6 (c.nTone = 0)
    ||| flagBit 7 (2 ^ 32 ≤ c.nSlot)

/-- `|FREQ_HIGH - FREQ_LOW|` (R15, R32). -/
def freqGap (c : Cfg) : Nat :=
  (c.freqHigh.toNat - c.freqLow.toNat) + (c.freqLow.toNat - c.freqHigh.toNat)

/-- `CFGWARN`: a bit is 1 when an advisory condition does not hold; no command reads it (R32). -/
def cfgwarn (c : Cfg) : Word :=
  flagBit 0 (freqGap c * c.bitDur.toNat < unitsPerSecond)
    ||| flagBit 1 (c.nSlot ≠ c.nTone + c.nSil)
    ||| flagBit 2 (c.sampleRate.toNat ≤ 2 * c.freqHigh.toNat ∨ c.sampleRate.toNat ≤ 2 * c.freqLow.toNat)
    ||| flagBit 3 (c.kHigh = c.kLow)

/-- A valid configuration that stands in where the open defaults are not one; no proof can see whether
it does (assumption 3). -/
def validCfg : Cfg :=
  { sampleRate := 8#32, freqHigh := 2#32, freqLow := 1#32,
    bitDur := 1000000000#32, silDur := 500000000#32 }

/-- The reset configuration `DEF_*`: open, known only to be valid (R7, R243). -/
def resetCfg : Cfg :=
  if cfgchk Config.defaults = 0#32 then Config.defaults else validCfg

end Sys2Proof.Machine
end

