-- ==== Sys2Proof/Machine/State.lean ====
section
/-! DEFINITION. The state of the block (R20), every piece of it, with the environment's own fields: the host's script, what the host has read, and the turns to come. Reset values are R50's. -/

namespace Sys2Proof.Machine

/-- An item of a stream: data, or the token `END` that closes a buffer (R62). -/
inductive Item (α : Type)
  | data (a : α)
  | fin
  deriving DecidableEq, Repr

/-- `ERR.CAUSE` (R215). Codes 8 to 15 name nothing and are never produced. -/
inductive Cause
  | noError
  | frameTooShort
  | invalidMethodName
  | unsupportedMethod
  /-- Code 4, reserved for host software: no rule raises it (R219). -/
  | decompressionFailed
  | cfgInvalid
  | illegalCmd
  | cmdBusy
  deriving DecidableEq, Repr

/-- `tx_op` (R44). -/
inductive TxOp
  | idle
  | tone
  | sil
  | txbit
  | txbyte
  | txend
  | txraw
  | txframe
  deriving DecidableEq, Repr

/-- `tx_seg`: `S_FETCH`, `S_TONE`, `S_SIL` (R44, R142). -/
inductive TxSeg
  | fetch
  | tone
  | silence
  deriving DecidableEq, Repr

/-- `rx_op` (R45). -/
inductive RxOp
  | idle
  | rxslot
  | rxflush
  | rxraw
  | rxframe
  | hparse
  deriving DecidableEq, Repr

/-- `hp_state`: `H_OFF`, `H_LEN`, `H_NAME`, `H_PAYLOAD`, `H_FAIL` (R35, R46). -/
inductive HpState
  | off
  | len
  | name
  | payload
  | fail
  deriving DecidableEq, Repr

/-- `hp_u8`, the state of the UTF-8 checker (R46, R110). -/
inductive U8State
  | acc
  | u1
  | u2
  | u3
  | e0
  | ed
  | f0
  | f4
  | bad
  deriving DecidableEq, Repr

/-- `tx_cfg`: the transmit engine's snapshot and the counts computed from it (R30, R44). -/
structure TxCfg where
  sr : Word
  fh : Word
  fl : Word
  bd : Word
  sd : Word
  nTone : Nat
  nSil : Nat
  deriving DecidableEq, Repr

/-- `rx_cfg`: the receive engine's snapshot and the values computed from it (R30, R45). -/
structure RxCfg where
  sr : Word
  fh : Word
  fl : Word
  bd : Word
  nTone : Nat
  nSlot : Nat
  kHigh : Nat
  kLow : Nat
  deriving DecidableEq, Repr

/-- The transmit engine: R44, its bits of `STATUS` (R35) and `TXPOS` (R40). -/
structure TxState where
  /-- `tx_op`. -/
  op : TxOp
  /-- `STATUS.TXBUSY`. -/
  busy : Bool
  /-- `STATUS.TXDONE`. -/
  done : Bool
  /-- `TXPOS`. -/
  pos : Word
  /-- `tx_cfg`. -/
  cfg : TxCfg
  /-- `tx_hdr`: the header bytes not yet serialised, at most 8. -/
  hdr : List Byte
  /-- `tx_shift`. -/
  shift : Byte
  /-- `tx_nbits`: 0 to 8. -/
  nbits : Nat
  /-- `tx_seg`. -/
  seg : TxSeg
  /-- `tx_sym`: the bit whose slot is being emitted; for `TONE` the latched `sel` (assumption 6). -/
  sym : Bool
  /-- `tx_k`: the index of the next sample in the segment; below `2^32` in every run (R52). -/
  k : Nat
  deriving DecidableEq, Repr

/-- The receive engine: R45, its bits of `STATUS` (R35), `RXPOS` (R41) and `RXBYTES` (R42). -/
structure RxState where
  /-- `rx_op`. -/
  op : RxOp
  /-- `STATUS.RXBUSY`. -/
  busy : Bool
  /-- `STATUS.RXDONE`. -/
  done : Bool
  /-- `STATUS.RXEOS`. -/
  eos : Bool
  /-- `RXPOS`. -/
  pos : Word
  /-- `RXBYTES`. -/
  bytes : Word
  /-- `rx_cfg`. -/
  cfg : RxCfg
  /-- `rx_k`: how many samples of the current slot have been popped; below `2^32` in every run (R52). -/
  k : Nat
  /-- `rx_buf`: the valid part of the tone region of the current slot (R45). -/
  buf : List Sample
  /-- `rx_fail`. -/
  fail : Bool
  /-- `ds_shift`. -/
  dsShift : Byte
  /-- `ds_cnt`: 0 to 7, readable as `STATUS.DSCNT`. -/
  dsCnt : Nat
  deriving DecidableEq, Repr

/-- The header parser: R46, and the registers it writes, `HDR_LEN` (R38) and `METHOD` (R39). -/
structure Parser where
  /-- `hp_state`, readable as `STATUS.HPSTATE`. -/
  state : HpState
  /-- `hp_cnt`: 33 bits, the bytes taken in the current field. -/
  cnt : Nat
  /-- `hp_len`. -/
  len : Word
  /-- `hp_total`: unbounded. -/
  total : Nat
  /-- `hp_u8`. -/
  u8 : U8State
  /-- `hp_match`: bit `t` for the method of tag `t`. -/
  matched : BitVec 4
  /-- `HDR_LEN`. -/
  hdrLen : Word
  /-- `METHOD`: `some t` when `VALID` is 1 and `TAG` is `t`, none when the register is 0. -/
  method : Option Method
  deriving DecidableEq, Repr

/-- One step the host may ask for (R81, R204, R205, R208), or a line of a host script that repeats one
(R106, R107). Every register access is 32 bits wide (R206: no narrower move exists). -/
inductive HostStep
  /-- `rd`: a 32-bit read at a byte offset. -/
  | read (offset : Nat)
  /-- `wr`: a 32-bit write at a byte offset. -/
  | write (offset : Nat) (v : Word)
  | pushTxd (x : Item Byte)
  | pushRxs (x : Item Sample)
  | pushRxb (x : Item Byte)
  | popTxs
  | popRxd
  | headTxs
  | headRxd
  /-- `wait TX`: read `STATUS` until `TXBUSY = 0`. -/
  | waitTx
  /-- `wait RX`: read `STATUS` until `RXBUSY = 0`. -/
  | waitRx
  /-- `popall TXS`: pop until the popped item is `END`. -/
  | popAllTxs
  /-- `popall RXD`: pop until the popped item is `END`. -/
  | popAllRxd
  /-- The hardware reset input (R240). DESIGN CHOICE: R12 and R240 say neither which agent drives it nor when, and R81 and
  R208 list no such move; the model makes it a line of the host's script (assumption 23). -/
  | resetInput
  deriving DecidableEq, Repr

/-- What a step of the host returned to it (R204, R208). -/
inductive Reply
  | word (v : Word)
  | byte (x : Item Byte)
  | sample (x : Item Sample)
  /-- `Head` of a stream that holds nothing. -/
  | empty
  deriving DecidableEq, Repr

/-- The whole state (R20). The last four fields are the environment's: the model's own, not the spec's
(assumptions 4 and 5). -/
structure State where
  /-- The live configuration registers (R21 to R25). -/
  cfg : Cfg
  /-- `MARKERS[7:0]` (R27). -/
  startMarker : Byte
  /-- `MARKERS[15:8]` (R27). -/
  endMarker : Byte
  /-- `ERR.CAUSE` (R36). -/
  err : Cause
  /-- `ERRINFO` (R37). -/
  errInfo : Word
  tx : TxState
  rx : RxState
  hp : Parser
  /-- Stream `TXD`, oldest item first (R47, R60). -/
  txd : List (Item Byte)
  /-- Stream `TXS`. -/
  txs : List (Item Sample)
  /-- Stream `RXS`. -/
  rxs : List (Item Sample)
  /-- Stream `RXD`. -/
  rxd : List (Item Byte)
  /-- Stream `RXB`. -/
  rxb : List (Item Byte)
  /-- The steps the host still asks for, next first. -/
  host : List HostStep
  /-- What the host has been answered, oldest first. -/
  replies : List Reply
  /-- Whose turns come next. -/
  turns : List Agent
  /-- How many turns have been drawn from the open schedule. -/
  drawn : Nat
  deriving DecidableEq, Repr

/-- Why the machine stops with a fault: never, so the type has no constructor. What the spec treats as `fault` is an
error recorded in `ERR` (93_implementation_defined.md rows 7, 9 and 10), which is a next state. Safe. -/
inductive Fault
  deriving DecidableEq, Repr

/-- Why the machine has no meaning for a step. -/
inductive Refusal
  /-- Raised by no arm of this model: every command has its meaning. Safe. -/
  | notModelled (mnemonic : String)
  /-- Raised by a host read or write at an offset that is not a multiple of 4: "no defined behaviour"
  (R206). Safe: the spec gives such an access no effect. -/
  | misaligned (offset : Nat)
  /-- Raised by a host read or write at an offset of 0x100 or above: "outside the block's address window", treatment
  `refuse` (R77, 93_implementation_defined.md row 14). Safe: the spec gives such an access no effect. -/
  | outsideWindow (offset : Nat)
  deriving DecidableEq, Repr

/-- A snapshot register before any command: R50 leaves it unspecified and no rule reads it before writing
it; all zeros, as R241 allows (assumption 7). -/
def TxCfg.unset : TxCfg :=
  { sr := 0#32, fh := 0#32, fl := 0#32, bd := 0#32, sd := 0#32, nTone := 0, nSil := 0 }

/-- As `TxCfg.unset`, for `rx_cfg` (R50, R241). -/
def RxCfg.unset : RxCfg :=
  { sr := 0#32, fh := 0#32, fl := 0#32, bd := 0#32, nTone := 0, nSlot := 0, kHigh := 0, kLow := 0 }

/-- The transmit engine after reset (R50). -/
def TxState.reset : TxState :=
  { op := .idle, busy := false, done := false, pos := 0#32, cfg := .unset, hdr := [],
    shift := 0#8, nbits := 0, seg := .fetch, sym := false, k := 0 }

/-- The receive engine after reset (R50). -/
def RxState.reset : RxState :=
  { op := .idle, busy := false, done := false, eos := false, pos := 0#32, bytes := 0#32,
    cfg := .unset, k := 0, buf := [], fail := false, dsShift := 0#8, dsCnt := 0 }

/-- The header parser after reset (R50). -/
def Parser.reset : Parser :=
  { state := .off, cnt := 0, len := 0#32, total := 0, u8 := .acc, matched := 0b1111#4,
    hdrLen := 0#32, method := none }

/-- The machine right after reset (R50, R241, R242), no host step and no turn pending. -/
def State.reset : State :=
  { cfg := resetCfg, startMarker := Config.defStartMarker, endMarker := Config.defEndMarker,
    err := .noError, errInfo := 0#32,
    tx := .reset, rx := .reset, hp := .reset,
    txd := [], txs := [], rxs := [], rxd := [], rxb := [],
    host := [], replies := [], turns := [], drawn := 0 }

end Sys2Proof.Machine
end

