-- ==== Sys2Proof/Machine/Operands.lean ====
section
/-! DEFINITION. What a command's operand and class select: the engine, whether the configuration is checked, the symbol's frequency and the argument of `SIN_S`; and the snapshots an engine takes of the configuration. -/

namespace Sys2Proof

open Machine

/-- The classes of R101. -/
inductive CommandClass
  | sys
  | tx
  | rx
  deriving DecidableEq, Repr

/-- The class of a command (R101). -/
def Instr.commandClass : Instr → CommandClass
  | .nop | .clrerr | .reset => .sys
  | .tone _ | .sil | .txbit _ | .txbyte _ | .txend | .txraw | .txframe _ => .tx
  | .rxslot | .rxflush | .rxraw | .rxframe | .hparse => .rx

/-- The commands refused while `CFGCHK ≠ 0` (R200 step 6). -/
def Instr.usesCfg : Instr → Bool
  | .tone _ | .sil | .txbit _ | .txbyte _ | .txraw | .txframe _ | .rxslot | .rxraw | .rxframe => true
  | .txend | .rxflush | .hparse | .nop | .clrerr | .reset => false

/-- The live frequency of a symbol: mark for 1, space for 0 (R90). -/
def Cfg.symFreq (c : Cfg) (b : Bool) : Nat :=
  if b then c.freqHigh.toNat else c.freqLow.toNat

end Sys2Proof

namespace Sys2Proof.Machine

/-- `sym_freq(b)` of a snapshot: `fh` for 1, `fl` for 0 (R90, R26). -/
def TxCfg.symFreq (c : TxCfg) (b : Bool) : Nat :=
  if b then c.fh.toNat else c.fl.toNat

/-- The transmit snapshot of a configuration (R30, R44). -/
def TxCfg.of (c : Cfg) : TxCfg :=
  { sr := c.sampleRate, fh := c.freqHigh, fl := c.freqLow, bd := c.bitDur, sd := c.silDur,
    nTone := c.nTone, nSil := c.nSil }

/-- The receive snapshot of a configuration (R30, R45). -/
def RxCfg.of (c : Cfg) : RxCfg :=
  { sr := c.sampleRate, fh := c.freqHigh, fl := c.freqLow, bd := c.bitDur,
    nTone := c.nTone, nSlot := c.nSlot, kHigh := c.kHigh, kLow := c.kLow }

/-- The phase of sample `k` of a tone, in turns: `f · k · bd / n_tone` (R121, R142). -/
def TxCfg.phase (c : TxCfg) (b : Bool) (k : Nat) : Rat :=
  (c.symFreq b : Rat) * (k : Rat) * seconds c.bd / (c.nTone : Rat)

end Sys2Proof.Machine
end

