-- ==== Sys2Proof/Machine/Ops.lean ====
section
/-! DEFINITION. The shared operations: pushing to a stream (R63), the error entry (R225) and its clearing (R202), the acceptance and completion of a command (R200, R209), the issue procedure (R200) and the reset of the block (R203). -/

namespace Sys2Proof.Machine

/-- `Push(TXD, x)` (R63). -/
def State.pushTxd (x : Item Byte) (s : State) : State :=
  { s with txd := s.txd ++ [x] }

/-- `Push(TXS, x)` (R63). -/
def State.pushTxs (x : Item Sample) (s : State) : State :=
  { s with txs := s.txs ++ [x] }

/-- `Push(RXS, x)` (R63). -/
def State.pushRxs (x : Item Sample) (s : State) : State :=
  { s with rxs := s.rxs ++ [x] }

/-- `Push(RXD, x)` (R63). -/
def State.pushRxd (x : Item Byte) (s : State) : State :=
  { s with rxd := s.rxd ++ [x] }

/-- `Push(RXB, x)` (R63). -/
def State.pushRxb (x : Item Byte) (s : State) : State :=
  { s with rxb := s.rxb ++ [x] }

/-- `raise C(info)`, the error entry: the first error sticks, a later one is dropped (R225). -/
def State.raise (c : Cause) (info : Nat) (s : State) : State :=
  if s.err = .noError then { s with err := c, errInfo := BitVec.ofNat 32 info } else s

/-- The return from an error: `ERR <- 0; ERRINFO <- 0` (R202, R228). -/
def State.clearError (s : State) : State :=
  { s with err := .noError, errInfo := 0#32 }

/-- Acceptance of a TX-class command (R200 step 7). The sequencer position is the idle one that R149 states of
every completed command (assumption 8). -/
def State.acceptTx (op : TxOp) (s : State) : State :=
  { s with tx := { s.tx with
      op := op, busy := true, done := false, pos := 0#32, cfg := TxCfg.of s.cfg,
      hdr := [], nbits := 0, seg := .fetch, k := 0 } }

/-- `hp_state` at the acceptance of an RX-class command: `H_LEN` for `RXFRAME` and `HPARSE`, else `H_OFF`
(R200 step 7). -/
def RxOp.parserStart : RxOp → HpState
  | .rxframe | .hparse => .len
  | .idle | .rxslot | .rxflush | .rxraw => .off

/-- Acceptance of an RX-class command (R200 step 7). -/
def State.acceptRx (op : RxOp) (s : State) : State :=
  { s with
    rx := { s.rx with
      op := op, busy := true, done := false, eos := false, pos := 0#32, cfg := RxCfg.of s.cfg,
      k := 0, fail := false }
    hp := { s.hp with state := op.parserStart } }

/-- Completion of a TX-class command (R149, R209). -/
def State.completeTx (s : State) : State :=
  { s with tx := { s.tx with op := .idle, busy := false, done := true, seg := .fetch, k := 0 } }

/-- Completion of an RX-class command (R209). -/
def State.completeRx (s : State) : State :=
  { s with rx := { s.rx with op := .idle, busy := false, done := true } }

/-- The engine a class of command needs is busy (R200 step 5). -/
def State.classBusy (s : State) : CommandClass → Bool
  | .sys => false
  | .tx => s.tx.busy
  | .rx => s.rx.busy

/-- Steps 4 to 7 of the issue procedure (R200): the error gate, the busy engine, the checked configuration,
else the acceptance given. -/
def issueCommand (i : Instr) (accept : State → State) (s : State) : State :=
  if s.err ≠ .noError then s
  else if s.classBusy i.commandClass then s.raise .cmdBusy (encode i).toNat
  else if i.usesCfg ∧ cfgchk s.cfg ≠ 0#32 then s.raise .cfgInvalid (cfgchk s.cfg).toNat
  else accept s

/-- The reset of the block: every piece of its state takes R50's value (R203, R240). The environment's own
fields are not the block's and stay (assumption 17). -/
def State.resetBlock (s : State) : State :=
  { State.reset with host := s.host, replies := s.replies, turns := s.turns, drawn := s.drawn }

/-- What the host is answered. -/
def State.answer (r : Reply) (s : State) : State :=
  { s with replies := s.replies ++ [r] }

end Sys2Proof.Machine
end

