-- ==== Sys2Proof/Machine/BitCodec.lean ====
section
/-! DEFINITION. The bit codec: bytes to bits and back (R130, R131), the serializer (R134), the deserializer (R135) and the command `RXFLUSH` (R136). -/

namespace Sys2Proof.Machine

/-- The bits of a byte, most significant first (R92, R130). -/
def byteBits (b : Byte) : List Bool :=
  (List.range 8).map fun j => b.getLsbD (7 - j)

/-- `bytes_to_bits(data)` (R130). -/
def bytesToBits (data : List Byte) : List Bool :=
  data.flatMap byteBits

/-- A byte's shift register after one bit enters at bit 0 (R135). -/
def shiftIn (sh : Byte) (b : Bool) : Byte :=
  (sh <<< 1) ||| (if b then 1#8 else 0#8)

/-- `bits_to_bytes(bits)`: whole groups of 8, first bit in bit 7, a shorter trailing group dropped (R131). -/
def bitsToBytes : List Bool → List Byte
  | b7 :: b6 :: b5 :: b4 :: b3 :: b2 :: b1 :: b0 :: rest =>
    [b7, b6, b5, b4, b3, b2, b1, b0].foldl shiftIn 0#8 :: bitsToBytes rest
  | _ => []

/-- The serializer's load of a byte (R134). -/
def State.loadByte (b : Byte) (s : State) : State :=
  { s with tx := { s.tx with shift := b, nbits := 8 } }

/-- The bit the serializer's next take returns: `tx_shift[7]` (R134). -/
def State.nextBit (s : State) : Bool :=
  s.tx.shift.getLsbD 7

/-- The serializer after a take (R134). -/
def State.takeBit (s : State) : State :=
  { s with tx := { s.tx with shift := s.tx.shift <<< 1, nbits := s.tx.nbits - 1 } }

/-- Giving the deserializer a bit; every eighth bit emits a byte (R135). -/
def giveBit (emit : Byte → State → State) (b : Bool) (s : State) : State :=
  let sh := shiftIn s.rx.dsShift b
  if s.rx.dsCnt + 1 = 8 then
    emit sh { s with rx := { s.rx with dsShift := sh, dsCnt := 0 } }
  else { s with rx := { s.rx with dsShift := sh, dsCnt := s.rx.dsCnt + 1 } }

/-- `ds_cnt <- 0`: the bits waiting in the deserializer are discarded (R137). -/
def State.dropBits (s : State) : State :=
  { s with rx := { s.rx with dsCnt := 0 } }

/-- `ds_cnt <- 0; ds_shift <- 0` (R136, R168, R186). -/
def State.clearDeserializer (s : State) : State :=
  { s with rx := { s.rx with dsCnt := 0, dsShift := 0#8 } }

/-- The one step of `RX` in `RXFLUSH` (R136). -/
def flushStep (s : State) : State :=
  ((s.clearDeserializer).pushRxd .fin).completeRx

/-- `RXFLUSH` (R136). -/
def execRxflush (s : State) : Host.Outcome State Fault Refusal :=
  .next (issueCommand .rxflush (fun s => s.acceptRx .rxflush) s)

end Sys2Proof.Machine
end

