-- ==== Sys2Proof/Machine/FrameCodec.lean ====
section
/-! DEFINITION. The frame codec: method names and the header (R99, R175), UTF-8 (R110), the function parse_frame (R178), the header parser `HP` (R184) and the commands `TXFRAME`, `RXFRAME`, `HPARSE` (R176, R186, R187). -/

namespace Sys2Proof

/-- The name bytes of a method (R99). -/
def Method.name : Method → List Byte
  | .gzip => [0x67#8, 0x7A#8, 0x69#8, 0x70#8]
  | .lzma => [0x6C#8, 0x7A#8, 0x6D#8, 0x61#8]
  | .bz2 => [0x62#8, 0x7A#8, 0x32#8]
  | .zlib => [0x7A#8, 0x6C#8, 0x69#8, 0x62#8]

/-- The supported methods in tag order (R98, R99). -/
def Method.all : List Method :=
  [.gzip, .lzma, .bz2, .zlib]

end Sys2Proof

namespace Sys2Proof.Machine

/-- `be32(v)`: four bytes, most significant first (R175). -/
def be32 (v : Word) : List Byte :=
  [(v >>> 24).setWidth 8, (v >>> 16).setWidth 8, (v >>> 8).setWidth 8, v.setWidth 8]

/-- `header(t)`: the name's length and the name (R175). -/
def header (t : Method) : List Byte :=
  be32 (BitVec.ofNat 32 t.name.length) ++ t.name

/-- A byte lies in an inclusive range. -/
def inRange (lo hi b : Byte) : Bool :=
  lo ≤ b && b ≤ hi

/-- The rows of the table of well-formed UTF-8 sequences: the ranges of each byte in turn (R110). -/
def utf8Rows : List (List (Byte × Byte)) :=
  [ [(0x00#8, 0x7F#8)],
    [(0xC2#8, 0xDF#8), (0x80#8, 0xBF#8)],
    [(0xE0#8, 0xE0#8), (0xA0#8, 0xBF#8), (0x80#8, 0xBF#8)],
    [(0xE1#8, 0xEC#8), (0x80#8, 0xBF#8), (0x80#8, 0xBF#8)],
    [(0xED#8, 0xED#8), (0x80#8, 0x9F#8), (0x80#8, 0xBF#8)],
    [(0xEE#8, 0xEF#8), (0x80#8, 0xBF#8), (0x80#8, 0xBF#8)],
    [(0xF0#8, 0xF0#8), (0x90#8, 0xBF#8), (0x80#8, 0xBF#8), (0x80#8, 0xBF#8)],
    [(0xF1#8, 0xF3#8), (0x80#8, 0xBF#8), (0x80#8, 0xBF#8), (0x80#8, 0xBF#8)],
    [(0xF4#8, 0xF4#8), (0x80#8, 0x8F#8), (0x80#8, 0xBF#8), (0x80#8, 0xBF#8)] ]

/-- A byte sequence has the length and the ranges of a row. -/
def fitsRow : List (Byte × Byte) → List Byte → Bool
  | [], [] => true
  | (lo, hi) :: row, b :: bytes => inRange lo hi b && fitsRow row bytes
  | [], _ :: _ => false
  | _ :: _, [] => false

/-- Well-formed UTF-8 by the table: a concatenation of sequences each of which fits a row (R110). -/
def Utf8WellFormed (bytes : List Byte) : Prop :=
  ∃ seqs : List (List Byte), bytes = seqs.flatten ∧ ∀ q ∈ seqs, ∃ row ∈ utf8Rows, fitsRow row q

/-- `u8_step` (R110). -/
def u8Step (u : U8State) (b : Byte) : U8State :=
  match u with
  | .acc =>
    if inRange 0x00#8 0x7F#8 b then .acc
    else if inRange 0xC2#8 0xDF#8 b then .u1
    else if b = 0xE0#8 then .e0
    else if inRange 0xE1#8 0xEC#8 b || inRange 0xEE#8 0xEF#8 b then .u2
    else if b = 0xED#8 then .ed
    else if b = 0xF0#8 then .f0
    else if inRange 0xF1#8 0xF3#8 b then .u3
    else if b = 0xF4#8 then .f4
    else .bad
  | .u1 => if inRange 0x80#8 0xBF#8 b then .acc else .bad
  | .u2 => if inRange 0x80#8 0xBF#8 b then .u1 else .bad
  | .u3 => if inRange 0x80#8 0xBF#8 b then .u2 else .bad
  | .e0 => if inRange 0xA0#8 0xBF#8 b then .u1 else .bad
  | .ed => if inRange 0x80#8 0x9F#8 b then .u1 else .bad
  | .f0 => if inRange 0x90#8 0xBF#8 b then .u2 else .bad
  | .f4 => if inRange 0x80#8 0x8F#8 b then .u2 else .bad
  | .bad => .bad

/-- `utf8_ok(bytes)` (R110). -/
def utf8Ok (bytes : List Byte) : Bool :=
  bytes.foldl u8Step .acc = .acc

/-- The big-endian value of a four-byte field (R94). -/
def be32Value (bytes : List Byte) : Nat :=
  bytes.foldl (fun acc b => acc * 256 + b.toNat) 0

/-- What parse_frame returns: a tag and the payload, or a cause and its `ERRINFO` (R178). -/
inductive Parsed
  | ok (t : Method) (payload : List Byte)
  | err (c : Cause) (info : Nat)
  deriving DecidableEq, Repr

/-- `parse_frame(bytes)`: the checks in the source's order (R178). -/
def parseFrame (bytes : List Byte) : Parsed :=
  if bytes.length < 4 then .err .frameTooShort bytes.length
  else if bytes.length < 4 + be32Value (bytes.take 4) then .err .frameTooShort bytes.length
  else if !utf8Ok ((bytes.drop 4).take (be32Value (bytes.take 4))) then
    .err .invalidMethodName (be32Value (bytes.take 4))
  else
    match Method.all.find? (fun t => t.name = (bytes.drop 4).take (be32Value (bytes.take 4))) with
    | none => .err .unsupportedMethod (be32Value (bytes.take 4))
    | some t => .ok t (bytes.drop (4 + be32Value (bytes.take 4)))

/-- `hp_start()` (R184). -/
def hpStart (s : State) : State :=
  { s with
    hp := { state := .len, cnt := 0, len := 0#32, total := 0, u8 := .acc, matched := 0b1111#4,
            hdrLen := 0#32, method := none }
    rx := { s.rx with bytes := 0#32, fail := false } }

/-- A recovered byte is counted (R170, R187). -/
def countByte (s : State) : State :=
  { s with
    hp := { s.hp with total := s.hp.total + 1 }
    rx := { s.rx with bytes := s.rx.bytes + 1#32 } }

/-- The methods whose byte at index `cnt` is `b`: `cnt < len(name_t) and b = name_t[cnt]`, one bit each (R184). -/
def nameMask (cnt : Nat) (b : Byte) : BitVec 4 :=
  Method.all.foldl
    (fun m t => if t.name[cnt]? = some b then m ||| (1#4 <<< t.tag.toNat) else m) 0#4

/-- The method the parser has recognised: `hp_match[t] = 1` and `len(name_t) = hp_len` (R184). -/
def Parser.recognised (p : Parser) : Option Method :=
  Method.all.find? fun t => p.matched.getLsbD t.tag.toNat && t.name.length = p.len.toNat

/-- The parser fails in the middle of its input (R184, R227). -/
def failHeader (c : Cause) (s : State) : State :=
  ({ s with hp := { s.hp with state := .fail }, rx := { s.rx with fail := true } }).raise c
    s.hp.len.toNat

/-- `name_done()` (R184). -/
def nameDone (s : State) : State :=
  if s.hp.u8 ≠ .acc then failHeader .invalidMethodName s
  else
    match s.hp.recognised with
    | some t => { s with hp := { s.hp with method := some t, state := .payload } }
    | none => failHeader .unsupportedMethod s

/-- `hp_byte(b)` in `H_LEN` (R184). -/
def lenByte (b : Byte) (s : State) : State :=
  let len := (s.hp.len <<< 8) ||| b.setWidth 32
  if s.hp.cnt + 1 = 4 then
    let s' := { s with hp := { s.hp with len := len, hdrLen := len, cnt := 0, state := .name } }
    if len = 0#32 then nameDone s' else s'
  else { s with hp := { s.hp with len := len, cnt := s.hp.cnt + 1 } }

/-- `hp_byte(b)` in `H_NAME` (R184). -/
def nameByte (b : Byte) (s : State) : State :=
  let s' := { s with hp := { s.hp with
    u8 := u8Step s.hp.u8 b, matched := s.hp.matched &&& nameMask s.hp.cnt b, cnt := s.hp.cnt + 1 } }
  if s.hp.cnt + 1 = s.hp.len.toNat then nameDone s' else s'

/-- `hp_byte(b)` (R184). In `H_OFF` the parser takes no byte (assumption 22). -/
def hpByte (b : Byte) (s : State) : State :=
  match s.hp.state with
  | .len => lenByte b s
  | .name => nameByte b s
  | .payload => s.pushRxd (.data b)
  | .fail => s
  | .off => s

/-- `hp_end()` (R184). -/
def hpEnd (s : State) : State :=
  if s.hp.state = .len ∨ s.hp.state = .name then
    ({ s with hp := { s.hp with state := .fail } }).raise .frameTooShort s.hp.total
  else s

/-- One byte of `RXB` in `HPARSE`: dropped after a failure, else counted and parsed (R187). -/
def parseByte (b : Byte) (s : State) : State :=
  if s.hp.state = .fail then s else hpByte b (countByte s)

/-- One step of `RX` in `HPARSE` (R187). -/
def hparseStep (s : State) : State :=
  match s.rxb with
  | [] => s
  | .fin :: rest =>
    ((hpEnd { s with rxb := rest, rx := { s.rx with eos := true } }).pushRxd .fin).completeRx
  | .data b :: rest => parseByte b { s with rxb := rest }

/-- `TXFRAME tag` (R176): `tx_nbits` and `tx_seg` are set by the acceptance itself. -/
def execTxframe (tag : Method) (s : State) : Host.Outcome State Fault Refusal :=
  .next (issueCommand (.txframe tag)
    (fun s =>
      let s' := s.acceptTx .txframe
      { s' with tx := { s'.tx with hdr := header tag } }) s)

/-- `RXFRAME` (R186). -/
def execRxframe (s : State) : Host.Outcome State Fault Refusal :=
  .next (issueCommand .rxframe (fun s => hpStart (s.acceptRx .rxframe).clearDeserializer) s)

/-- `HPARSE` (R187). -/
def execHparse (s : State) : Host.Outcome State Fault Refusal :=
  .next (issueCommand .hparse (fun s => hpStart (s.acceptRx .hparse)) s)

end Sys2Proof.Machine
end

