-- ==== Sys2Proof/Machine/Demodulator.lean ====
section
/-! DEFINITION. The demodulator: the function demodulate (R155), the slot framer and classifier (R169) and the commands `RXSLOT` and `RXRAW` (R167, R168). -/

namespace Sys2Proof.Machine

/-- The bit of a tone region: 1 when the mark bin's magnitude is strictly greater (R162). -/
def RxCfg.classify {S : Type} (num : Numerics S) (c : RxCfg) (region : List S) : Bool :=
  num.binGt region c.kHigh c.kLow

/-- `region_j`: the first `n_tone` samples of slot `j` (R155, R158). -/
def RxCfg.region {S : Type} (c : RxCfg) (samples : List S) (j : Nat) : List S :=
  (samples.drop (j * c.nSlot)).take c.nTone

/-- `demodulate(samples, config)`: one bit a whole slot (R155). -/
def demodulate {S : Type} (num : Numerics S) (c : RxCfg) (samples : List S) : List Bool :=
  (List.range (samples.length / c.nSlot)).map fun j => c.classify num (c.region samples j)

/-- Where a byte of the deserializer goes: to `RXD` in `RXSLOT` and `RXRAW`, to the parser in `RXFRAME`;
counted in the last two (R170; assumption 22 for the other commands). -/
def emitByte (b : Byte) (s : State) : State :=
  match s.rx.op with
  | .rxslot => s.pushRxd (.data b)
  | .rxraw => (countByte s).pushRxd (.data b)
  | .rxframe => hpByte b (countByte s)
  | .idle | .rxflush | .hparse => s

/-- `rx_buf` with a sample at index `k`. What lies above it is stale: no rule reads an element before it is
written again (R45, R50), so it is not kept (assumption 9). -/
def storeSample (buf : List Sample) (k : Nat) (x : Sample) : List Sample :=
  buf.take k ++ [x]

/-- `rx_buf` after sample number `rx_k` of the slot: stored in the tone region, dropped after it (R169). -/
def RxState.bufWith (r : RxState) (x : Sample) : List Sample :=
  if r.k < r.cfg.nTone then storeSample r.buf r.k x else r.buf

/-- The slot is whole: its bit is counted and given to the deserializer; `RXSLOT` then completes (R169). -/
def closeRxSlot (num : Numerics Sample) (s : State) : State :=
  let b := s.rx.cfg.classify num (s.rx.buf.take s.rx.cfg.nTone)
  let s' := giveBit emitByte b { s with rx := { s.rx with pos := s.rx.pos + 1#32, k := 0 } }
  if s.rx.op = .rxslot then s'.completeRx else s'

/-- A sample popped while the command has not failed (R169). -/
def takeSample (num : Numerics Sample) (x : Sample) (s : State) : State :=
  let s' := { s with rx := { s.rx with buf := s.rx.bufWith x, k := s.rx.k + 1 } }
  if s.rx.k + 1 = s.rx.cfg.nSlot then closeRxSlot num s' else s'

/-- `end_of_samples()`, per command (R167, R168, R186). -/
def endOfSamples (s : State) : State :=
  match s.rx.op with
  | .rxslot => s.completeRx
  | .rxraw => (s.dropBits.pushRxd .fin).completeRx
  | .rxframe => ((hpEnd s.dropBits).pushRxd .fin).completeRx
  | .idle | .rxflush | .hparse => s

/-- One step of `RX` in a command that pops `RXS` (R169). -/
def sampleStep (num : Numerics Sample) (s : State) : State :=
  match s.rxs with
  | [] => s
  | .fin :: rest => endOfSamples { s with rxs := rest, rx := { s.rx with eos := true, k := 0 } }
  | .data x :: rest =>
    if s.rx.fail then { s with rxs := rest } else takeSample num x { s with rxs := rest }

/-- `RXSLOT` (R167). -/
def execRxslot (s : State) : Host.Outcome State Fault Refusal :=
  .next (issueCommand .rxslot (fun s => s.acceptRx .rxslot) s)

/-- The acceptance actions of `RXRAW` beyond R200's (R168). -/
def rawStart (s : State) : State :=
  { s with
    rx := { s.rx with bytes := 0#32 }
    hp := { s.hp with total := 0 } }

/-- `RXRAW` (R168). -/
def execRxraw (s : State) : Host.Outcome State Fault Refusal :=
  .next (issueCommand .rxraw (fun s => rawStart (s.acceptRx .rxraw).clearDeserializer) s)

end Sys2Proof.Machine
end

