-- ==== Sys2Proof/Machine/Tone.lean ====
section
/-! DEFINITION. The tone synthesizer: the functions tone and silence (R120 to R122), the commands `TONE` (R125) and `SIL` (R126). -/

namespace Sys2Proof.Machine

/-- `seg_count(sr, d)`: `rnd(sr · d)` samples, none for `d ≤ 0` (R120). -/
def segCount (sr : Nat) (d : Rat) : Nat :=
  if d ≤ 0 then 0 else rnd ((sr : Rat) * d)

/-- `tone(f, d, sr)`: `SIN_S(f · t_k)` with `t_k = k · d / N` for `k = 0 .. N-1` (R121). -/
def tone {S : Type} (num : Numerics S) (f : Nat) (d : Rat) (sr : Nat) : List S :=
  (List.range (segCount sr d)).map fun (k : Nat) =>
    num.sinS ((f : Rat) * ((k : Rat) * d / (segCount sr d : Rat)))

/-- `silence(d, sr)`: `seg_count(sr, d)` samples, each `SZERO` (R122). -/
def silence {S : Type} (num : Numerics S) (d : Rat) (sr : Nat) : List S :=
  List.replicate (segCount sr d) num.szero

/-- Point the sequencer at the first sample of a tone segment for the bit `b` (R142: opening a slot). -/
def State.openTone (b : Bool) (s : State) : State :=
  { s with tx := { s.tx with sym := b, seg := .tone, k := 0 } }

/-- Point the sequencer at the first sample of a silence segment. -/
def State.openSilence (s : State) : State :=
  { s with tx := { s.tx with seg := .silence, k := 0 } }

/-- Push one tone sample and move to the next (R125, R142). -/
def State.emitTone (num : Numerics Sample) (s : State) : State :=
  let s' := s.pushTxs (.data (num.sinS (s.tx.cfg.phase s.tx.sym s.tx.k)))
  { s' with tx := { s'.tx with k := s.tx.k + 1 } }

/-- Push one zero sample and move to the next (R126, R142). -/
def State.emitZero (num : Numerics Sample) (s : State) : State :=
  let s' := s.pushTxs (.data num.szero)
  { s' with tx := { s'.tx with k := s.tx.k + 1 } }

/-- One step of `TX` in `TONE` (R125). -/
def toneStep (num : Numerics Sample) (s : State) : State :=
  if s.tx.k < s.tx.cfg.nTone then s.emitTone num else s.completeTx

/-- One step of `TX` in `SIL` (R126). -/
def silStep (num : Numerics Sample) (s : State) : State :=
  if s.tx.k < s.tx.cfg.nSil then s.emitZero num else s.completeTx

/-- `TONE sel` (R125). -/
def execTone (sel : Bool) (s : State) : Host.Outcome State Fault Refusal :=
  .next (issueCommand (.tone sel) (fun s => (s.acceptTx .tone).openTone sel) s)

/-- `SIL` (R126). -/
def execSil (s : State) : Host.Outcome State Fault Refusal :=
  .next (issueCommand .sil (fun s => (s.acceptTx .sil).openSilence) s)

end Sys2Proof.Machine
end

