-- ==== Sys2Proof/Machine/Modulator.lean ====
section
/-! DEFINITION. The modulator: the function modulate (R140), the slot sequencer (R142, R148) and the commands `TXBIT`, `TXBYTE`, `TXEND`, `TXRAW` (R143 to R146). -/

namespace Sys2Proof.Machine

/-- `slot(b) = tone(sym_freq(b), bd, sr) ++ silence(sd, sr)` (R140). -/
def slot {S : Type} (num : Numerics S) (c : Cfg) (b : Bool) : List S :=
  tone num (c.symFreq b) (seconds c.bitDur) c.sampleRate.toNat
    ++ silence num (seconds c.silDur) c.sampleRate.toNat

/-- `modulate(bits, config)`: the slots of the bits in order (R140). -/
def modulate {S : Type} (num : Numerics S) (c : Cfg) (bits : List Bool) : List S :=
  bits.flatMap (slot num c)

/-- The slot closes: `TXPOS` counts it and the sequencer fetches again (R142). -/
def State.closeSlot (s : State) : State :=
  { s with tx := { s.tx with pos := s.tx.pos + 1#32, seg := .fetch, k := 0 } }

/-- What comes next between slots (R148). -/
def fetchStep (s : State) : State :=
  if 0 < s.tx.nbits then s.takeBit.openTone s.nextBit
  else if s.tx.op = .txbit ∨ s.tx.op = .txbyte then s.completeTx
  else
    match s.tx.hdr with
    | b :: rest => { s with tx := { s.tx with hdr := rest } }.loadByte b
    | [] =>
      match s.txd with
      | [] => s
      | .fin :: rest => ({ s with txd := rest }.pushTxs .fin).completeTx
      | .data b :: rest => { s with txd := rest }.loadByte b

/-- One step of `TX` in `TXBIT`, `TXBYTE`, `TXRAW`, `TXFRAME` (R142, R148). -/
def slotStep (num : Numerics Sample) (s : State) : State :=
  match s.tx.seg with
  | .tone => if s.tx.k < s.tx.cfg.nTone then s.emitTone num else s.openSilence
  | .silence => if s.tx.k < s.tx.cfg.nSil then s.emitZero num else s.closeSlot
  | .fetch => fetchStep s

/-- The one step of `TX` in `TXEND` (R145). -/
def txendStep (s : State) : State :=
  (s.pushTxs .fin).completeTx

/-- `TXBIT b` (R143). -/
def execTxbit (bit : Bool) (s : State) : Host.Outcome State Fault Refusal :=
  .next (issueCommand (.txbit bit) (fun s => (s.acceptTx .txbit).openTone bit) s)

/-- `TXBYTE v` (R144). -/
def execTxbyte (byte : Byte) (s : State) : Host.Outcome State Fault Refusal :=
  .next (issueCommand (.txbyte byte) (fun s => (s.acceptTx .txbyte).loadByte byte) s)

/-- `TXEND` (R145). -/
def execTxend (s : State) : Host.Outcome State Fault Refusal :=
  .next (issueCommand .txend (fun s => s.acceptTx .txend) s)

/-- `TXRAW` (R146): `tx_hdr`, `tx_nbits` and `tx_seg` are set by the acceptance itself. -/
def execTxraw (s : State) : Host.Outcome State Fault Refusal :=
  .next (issueCommand .txraw (fun s => s.acceptTx .txraw) s)

end Sys2Proof.Machine
end

