-- ==== Sys2Proof/Machine/System.lean ====
section
/-! DEFINITION. The system commands `NOP`, `CLRERR`, `RESET` (R201 to R203). They pass neither the error gate nor the busy check (R200 steps 1 and 3). -/

namespace Sys2Proof.Machine

/-- `NOP` (R201). -/
def execNop (s : State) : Host.Outcome State Fault Refusal :=
  .next s

/-- `CLRERR` (R202). -/
def execClrerr (s : State) : Host.Outcome State Fault Refusal :=
  .next s.clearError

/-- `RESET` (R203). -/
def execReset (s : State) : Host.Outcome State Fault Refusal :=
  .next s.resetBlock

end Sys2Proof.Machine
end

