-- ==== Sys2Proof/Machine/Dispatch.lean ====
section
/-! DEFINITION. One arm per command (R101): the issue of a legal command word. -/

namespace Sys2Proof.Machine

def exec (i : Instr) (s : State) : Host.Outcome State Fault Refusal :=
  match i with
  | .nop => Sys2Proof.Machine.execNop s
  | .tone sel => Sys2Proof.Machine.execTone sel s
  | .sil => Sys2Proof.Machine.execSil s
  | .txbit bit => Sys2Proof.Machine.execTxbit bit s
  | .txbyte byte => Sys2Proof.Machine.execTxbyte byte s
  | .txend => Sys2Proof.Machine.execTxend s
  | .txraw => Sys2Proof.Machine.execTxraw s
  | .txframe tag => Sys2Proof.Machine.execTxframe tag s
  | .rxslot => Sys2Proof.Machine.execRxslot s
  | .rxflush => Sys2Proof.Machine.execRxflush s
  | .rxraw => Sys2Proof.Machine.execRxraw s
  | .rxframe => Sys2Proof.Machine.execRxframe s
  | .hparse => Sys2Proof.Machine.execHparse s
  | .clrerr => Sys2Proof.Machine.execClrerr s
  | .reset => Sys2Proof.Machine.execReset s

end Sys2Proof.Machine
end

