-- ==== Sys2Proof/Machine/Engines.lean ====
section
/-! DEFINITION. One step of each engine (R12), the hold on a full stream (R64), and runs of one engine alone. -/

namespace Sys2Proof.Machine

/-- One step of `TX`: that of the command it executes; an idle engine has none (R12, R44). -/
def txStep (num : Numerics Sample) (s : State) : State :=
  match s.tx.op with
  | .idle => s
  | .tone => toneStep num s
  | .sil => silStep num s
  | .txend => txendStep s
  | .txbit | .txbyte | .txraw | .txframe => slotStep num s

/-- One step of `RX`, `HP` included: that of the command it executes; an idle engine has none (R12, R45). -/
def rxStep (num : Numerics Sample) (s : State) : State :=
  match s.rx.op with
  | .idle => s
  | .rxflush => flushStep s
  | .rxslot | .rxraw | .rxframe => sampleStep num s
  | .hparse => hparseStep s

/-- A stream of depth `d` may go from one length to another: it does not grow past its depth (R64). -/
def roomFor (d : Option Nat) (before after : Nat) : Bool :=
  after ≤ before ||
    match d with
    | none => true
    | some n => after ≤ n

/-- No stream grows past its depth from one state to another (R64). -/
def fits (depth : StreamName → Option Nat) (s s' : State) : Bool :=
  roomFor (depth .txd) s.txd.length s'.txd.length
    && roomFor (depth .txs) s.txs.length s'.txs.length
    && roomFor (depth .rxs) s.rxs.length s'.rxs.length
    && roomFor (depth .rxd) s.rxd.length s'.rxd.length
    && roomFor (depth .rxb) s.rxb.length s'.rxb.length

/-- A step whose push finds its stream full holds: the state stays (R64; assumption 11). -/
def heldOr (depth : StreamName → Option Nat) (s s' : State) : State :=
  if fits depth s s' then s' else s

/-- A turn of `TX`. -/
def txTurn (p : Params) (s : State) : State :=
  heldOr p.depth s (txStep p.num s)

/-- A turn of `RX`. -/
def rxTurn (p : Params) (s : State) : State :=
  heldOr p.depth s (rxStep p.num s)

/-- `n` steps of `TX` alone. -/
def txRun (num : Numerics Sample) : Nat → State → State
  | 0, s => s
  | n + 1, s => txRun num n (txStep num s)

/-- `n` steps of `RX` alone. -/
def rxRun (num : Numerics Sample) : Nat → State → State
  | 0, s => s
  | n + 1, s => rxRun num n (rxStep num s)

end Sys2Proof.Machine
end

