-- ==== Sys2Proof/Machine/Flags.lean ====
section
/-! DEFINITION. The status words software reads: `STATUS` (R35), `ERR` (R36, R215), `METHOD` (R39) and `MARKERS` (R27). -/

namespace Sys2Proof.Machine

/-- The code of `ERR.CAUSE` (R215). -/
def Cause.code : Cause → BitVec 4
  | .noError => 0#4
  | .frameTooShort => 1#4
  | .invalidMethodName => 2#4
  | .unsupportedMethod => 3#4
  | .decompressionFailed => 4#4
  | .cfgInvalid => 5#4
  | .illegalCmd => 6#4
  | .cmdBusy => 7#4

/-- The code of `STATUS.HPSTATE` (R35). -/
def HpState.code : HpState → BitVec 3
  | .off => 0#3
  | .len => 1#3
  | .name => 2#3
  | .payload => 3#3
  | .fail => 4#3

/-- `STATUS.ERRF`: 1 exactly when `ERR.CAUSE ≠ 0` (R35). -/
def State.errf (s : State) : Bool :=
  s.err ≠ .noError

/-- `STATUS`, field by field, every reserved bit 0 (R35). -/
def State.status (s : State) : Word :=
  flagBit 0 s.tx.busy
    ||| flagBit 1 s.rx.busy
    ||| flagBit 2 s.tx.done
    ||| flagBit 3 s.rx.done
    ||| flagBit 4 s.errf
    ||| flagBit 5 s.rx.eos
    ||| (s.hp.state.code.setWidth 32 <<< 8)
    ||| ((BitVec.ofNat 4 s.rx.dsCnt).setWidth 32 <<< 16)

/-- `ERR`: the cause in bits 3:0, 0 above (R36). -/
def State.errWord (s : State) : Word :=
  s.err.code.setWidth 32

/-- `METHOD`: `TAG` in bits 1:0 and `VALID` in bit 8, or 0 (R39). -/
def State.methodWord (s : State) : Word :=
  match s.hp.method with
  | none => 0#32
  | some t => 0x100#32 ||| t.tag.setWidth 32

/-- `MARKERS`: the start pattern in bits 7:0, the end pattern in bits 15:8, 0 above (R27). -/
def State.markersWord (s : State) : Word :=
  0#16 ++ s.endMarker ++ s.startMarker

end Sys2Proof.Machine
end

