-- ==== Sys2Proof/Machine/Registers.lean ====
section
/-! DEFINITION. The register map (R43) and what a 32-bit read and a 32-bit write of it do (R204, R205, R207). -/

namespace Sys2Proof.Machine

/-- The registers of R43. -/
inductive Reg
  | id
  | cmd
  | status
  | err
  | errinfo
  | sampleRate
  | freqHigh
  | freqLow
  | bitDur
  | silDur
  | markers
  | nTone
  | nSil
  | nSlot
  | kHigh
  | kLow
  | cfgchk
  | cfgwarn
  | hdrLen
  | method
  | txpos
  | rxpos
  | rxbytes
  deriving DecidableEq, Repr

/-- The registers in the order of their offsets, from 0x00 in steps of 4 (R43). -/
def registerMap : List Reg :=
  [.id, .cmd, .status, .err, .errinfo, .sampleRate, .freqHigh, .freqLow, .bitDur, .silDur, .markers,
   .nTone, .nSil, .nSlot, .kHigh, .kLow, .cfgchk, .cfgwarn, .hdrLen, .method, .txpos, .rxpos, .rxbytes]

/-- The register at a word-aligned offset, none at 0x5C and above (R43). -/
def regAt (offset : Nat) : Option Reg :=
  registerMap[offset / 4]?

/-- The offset of `CMD` (R43). -/
def cmdOffset : Nat := 0x04

/-- The value a read of a register returns (R204). -/
def State.readReg (s : State) : Reg → Word
  | .id => 0x54324131#32
  | .cmd => 0#32
  | .status => s.status
  | .err => s.errWord
  | .errinfo => s.errInfo
  | .sampleRate => s.cfg.sampleRate
  | .freqHigh => s.cfg.freqHigh
  | .freqLow => s.cfg.freqLow
  | .bitDur => s.cfg.bitDur
  | .silDur => s.cfg.silDur
  | .markers => s.markersWord
  | .nTone => saturate s.cfg.nTone
  | .nSil => saturate s.cfg.nSil
  | .nSlot => saturate s.cfg.nSlot
  | .kHigh => binWord s.cfg.kHigh
  | .kLow => binWord s.cfg.kLow
  | .cfgchk => Machine.cfgchk s.cfg
  | .cfgwarn => Machine.cfgwarn s.cfg
  | .hdrLen => s.hp.hdrLen
  | .method => s.methodWord
  | .txpos => s.tx.pos
  | .rxpos => s.rx.pos
  | .rxbytes => s.rx.bytes

/-- The value a read at an offset of the window returns; 0 at a reserved offset (R204, R207). -/
def State.readAt (s : State) (offset : Nat) : Word :=
  match regAt offset with
  | some r => s.readReg r
  | none => 0#32

/-- A write to a register other than `CMD`: a read-write register stores it, `MARKERS` its low 16 bits, a
read-only one ignores it (R205). -/
def State.writeReg (s : State) (v : Word) : Reg → State
  | .sampleRate => { s with cfg := { s.cfg with sampleRate := v } }
  | .freqHigh => { s with cfg := { s.cfg with freqHigh := v } }
  | .freqLow => { s with cfg := { s.cfg with freqLow := v } }
  | .bitDur => { s with cfg := { s.cfg with bitDur := v } }
  | .silDur => { s with cfg := { s.cfg with silDur := v } }
  | .markers => { s with startMarker := v.extractLsb' 0 8, endMarker := v.extractLsb' 8 8 }
  | .id | .cmd | .status | .err | .errinfo | .nTone | .nSil | .nSlot | .kHigh | .kLow | .cfgchk
  | .cfgwarn | .hdrLen | .method | .txpos | .rxpos | .rxbytes => s

/-- A write at an offset of the window other than `CMD`'s; ignored at a reserved offset (R205, R207). -/
def State.writeAt (s : State) (offset : Nat) (v : Word) : State :=
  match regAt offset with
  | some r => s.writeReg v r
  | none => s

end Sys2Proof.Machine
end

