-- ==== Sys2Proof/Machine/HostPort.lean ====
section
/-! DEFINITION. The host's steps: register accesses (R204 to R207), the issue of a command word (R200), stream accesses (R208), the reset input (R240), and the script lines of R106 and R107. -/

namespace Sys2Proof.Machine

/-- A write of `w` to `CMD`: an illegal word raises `ILLEGAL_CMD(w)`, a legal one is issued (R200). -/
def issue (w : Word) (s : State) : Host.Outcome State Fault Refusal :=
  match decode w with
  | none => .next (s.raise .illegalCmd w.toNat)
  | some i => exec i s

/-- A register access at an offset: outside the window and misaligned it has no defined effect, and the move is refused
(R77, R206, 93_implementation_defined.md rows 12 and 14; assumption 13). -/
def atOffset (offset : Nat) (k : Host.Outcome State Fault Refusal) : Host.Outcome State Fault Refusal :=
  if 0x100 ≤ offset then .refused (.outsideWindow offset)
  else if offset % 4 ≠ 0 then .refused (.misaligned offset)
  else k

/-- A 32-bit write at an offset (R205, R207). -/
def hostWrite (offset : Nat) (v : Word) (s : State) : Host.Outcome State Fault Refusal :=
  atOffset offset (if offset = cmdOffset then issue v s else .next (s.writeAt offset v))

/-- A 32-bit read at an offset (R204, R207). -/
def hostRead (offset : Nat) (s : State) : Host.Outcome State Fault Refusal :=
  atOffset offset (.next (s.answer (.word (s.readAt offset))))

/-- What `Head` of a stream answers (R63, R208). -/
def headReply {α : Type} (f : Item α → Reply) : List (Item α) → Reply
  | [] => .empty
  | x :: _ => f x

/-- One poll of `wait`: read `STATUS`; while the engine is busy the line stays (R106; assumption 16). -/
def waitOn (busy : Bool) (line : HostStep) (s : State) : State :=
  let s' := s.answer (.word s.status)
  if busy then { s' with host := line :: s'.host } else s'

/-- The turn of the host for the line `h`, where `s` is the state with the line taken from the script and
`held` the state with the line still there. A push to a full stream and a pop of an empty one are not steps:
the line waits (R64, R208). The reset input is a line like the others, taken at a turn of the host in script order: the
model's choice (R12, R240; assumption 23). -/
def hostTurn (depth : StreamName → Option Nat) (h : HostStep) (held s : State) :
    Host.Outcome State Fault Refusal :=
  match h with
  | .read offset => hostRead offset s
  | .write offset v => hostWrite offset v s
  | .pushTxd x => .next (if fits depth s (s.pushTxd x) then s.pushTxd x else held)
  | .pushRxs x => .next (if fits depth s (s.pushRxs x) then s.pushRxs x else held)
  | .pushRxb x => .next (if fits depth s (s.pushRxb x) then s.pushRxb x else held)
  | .popTxs =>
    match s.txs with
    | [] => .next held
    | x :: rest => .next ({ s with txs := rest }.answer (.sample x))
  | .popRxd =>
    match s.rxd with
    | [] => .next held
    | x :: rest => .next ({ s with rxd := rest }.answer (.byte x))
  | .headTxs => .next (s.answer (headReply .sample s.txs))
  | .headRxd => .next (s.answer (headReply .byte s.rxd))
  | .waitTx => .next (waitOn s.tx.busy .waitTx s)
  | .waitRx => .next (waitOn s.rx.busy .waitRx s)
  | .popAllTxs =>
    match s.txs with
    | [] => .next held
    | .fin :: rest => .next ({ s with txs := rest }.answer (.sample .fin))
    | .data a :: rest => .next ({ held with txs := rest }.answer (.sample (.data a)))
  | .popAllRxd =>
    match s.rxd with
    | [] => .next held
    | .fin :: rest => .next ({ s with rxd := rest }.answer (.byte .fin))
    | .data a :: rest => .next ({ held with rxd := rest }.answer (.byte (.data a)))
  | .resetInput => .next s.resetBlock

/-- A turn of the host: its next line, if it has one. -/
def hostTurns (depth : StreamName → Option Nat) (s : State) : Host.Outcome State Fault Refusal :=
  match s.host with
  | [] => .next s
  | h :: rest => hostTurn depth h s { s with host := rest }

/-- The script line of a command: `wr CMD, word` (R106). -/
def commandLine (i : Instr) : HostStep :=
  .write cmdOffset (encode i)

/-- `cfg sr, fh, fl, bd_ns, sd_ns` (R107). -/
def cfgLines (c : Cfg) : List HostStep :=
  [.write 0x14 c.sampleRate, .write 0x18 c.freqHigh, .write 0x1C c.freqLow, .write 0x20 c.bitDur,
   .write 0x24 c.silDur]

/-- `pushb TXD, b0 b1 ... bn` (R107). -/
def pushTxdLines (data : List Byte) : List HostStep :=
  data.map fun b => .pushTxd (.data b)

/-- `push RXS, s` for each sample of a list (R106). -/
def pushRxsLines (samples : List Sample) : List HostStep :=
  samples.map fun a => .pushRxs (.data a)

/-- `pushb RXB, b0 b1 ... bn` (R107). -/
def pushRxbLines (data : List Byte) : List HostStep :=
  data.map fun b => .pushRxb (.data b)

/-- The marker byte of a pattern string, its first character in bit 7 (R109). -/
def markerPattern (chars : List Bool) : Byte :=
  chars.foldl shiftIn 0#8

/-- The turn of an agent (R12). -/
def agentTurn (p : Params) (a : Agent) (s : State) : Host.Outcome State Fault Refusal :=
  match a with
  | .host => hostTurns p.depth s
  | .tx => .next (txTurn p s)
  | .rx => .next (rxTurn p s)

/-- One step under given parameters: the next turn of the list, or one drawn from the open schedule (R76). -/
def stepWith (p : Params) (s : State) : Host.Outcome State Fault Refusal :=
  match s.turns with
  | a :: rest => agentTurn p a { s with turns := rest }
  | [] => agentTurn p (Config.freeAgent s.drawn) { s with drawn := s.drawn + 1 }

end Sys2Proof.Machine
end

