-- ==== Sys2Proof/Machine/Numerics.lean ====
section
/-! DEFINITION. What R11 says of a `Numerics` record: the laws N2 to N5, the reference instance over the real numbers, the machine's own instance, and what it is to name the samples of an instance. No step reads a real number. -/

namespace Sys2Proof.Machine

/-- `X[k]`, the discrete Fourier transform of a region (R11). -/
noncomputable def dft {S : Type} (sval : S → ℝ) (x : List S) (k : ℕ) : ℂ :=
  ∑ n ∈ Finset.range x.length,
    (((x.map sval).getD n 0 : ℝ) : ℂ) * Complex.exp (-2 * Real.pi * Complex.I * k * n / x.length)

/-- `|X[k]|` (R11, R161). -/
noncomputable def magnitude {S : Type} (sval : S → ℝ) (x : List S) (k : ℕ) : ℝ :=
  ‖dft sval x k‖

/-- The ideal value of `SIN_S(θ)`, `θ` in turns: `sin(2π·θ)` (R11). -/
noncomputable def idealSin (θ : Rat) : ℝ :=
  Real.sin (2 * Real.pi * (θ : ℝ))

end Sys2Proof.Machine

namespace Sys2Proof

open Machine

/-- The properties every instance must have (R11). -/
structure Numerics.Lawful {S : Type} (num : Numerics S) : Prop where
  zero : num.sval num.szero = 0
  n2 : ∀ θ, |num.sval (num.sinS θ) - idealSin θ| ≤ num.epsSin
  n3 : ∀ x k, num.binGt x k k = false
  n4_above : ∀ x ka kb, ka ≤ x.length / 2 → kb ≤ x.length / 2 →
    num.epsMag x.length < magnitude num.sval x ka - magnitude num.sval x kb → num.binGt x ka kb = true
  n4_below : ∀ x ka kb, ka ≤ x.length / 2 → kb ≤ x.length / 2 →
    num.epsMag x.length < magnitude num.sval x kb - magnitude num.sval x ka → num.binGt x ka kb = false
  n5 : ∀ x ka kb, (∀ a ∈ x, num.sval a = 0) → num.binGt x ka kb = false

/-- Ideal arithmetic over any type of samples: exact zero, exact sine, `BIN_GT` exactly the strict comparison, both bounds
0 (R11). -/
structure Numerics.Ideal {S : Type} (num : Numerics S) : Prop where
  zero : num.sval num.szero = 0
  sine : ∀ θ, num.sval (num.sinS θ) = idealSin θ
  compare : ∀ x ka kb, num.binGt x ka kb = true ↔ magnitude num.sval x kb < magnitude num.sval x ka
  epsSin : num.epsSin = 0
  epsMag : ∀ n, num.epsMag n = 0

/-- The arithmetic `num` on names, with `value` for what a name stands for, is the instance `inst` over `S`: a name says which
sample it names and nothing else (R11, R108; assumption 1). -/
structure Numerics.Names {S : Type} (num : Numerics Sample) (value : Sample → S) (inst : Numerics S) : Prop where
  sval : ∀ a, num.sval a = inst.sval (value a)
  szero : value num.szero = inst.szero
  sinS : ∀ θ, value (num.sinS θ) = inst.sinS θ
  binGt : ∀ x ka kb, num.binGt x ka kb = inst.binGt (x.map value) ka kb
  epsSin : num.epsSin = inst.epsSin
  epsMag : ∀ n, num.epsMag n = inst.epsMag n

end Sys2Proof

namespace Sys2Proof.Machine

open Classical in
/-- The reference instance: samples are the real numbers, `sval` is the identity, the rest is ideal (R11). -/
noncomputable def referenceNumerics : Numerics ℝ where
  sval := id
  szero := 0
  sinS := idealSin
  binGt x ka kb := decide (magnitude id x kb < magnitude id x ka)
  epsSin := 0
  epsMag _ := 0

/-- The transform of a region of zero values is zero. -/
theorem magnitude_zero {S : Type} {sval : S → ℝ} {x : List S} (h : ∀ a ∈ x, sval a = 0) (k : ℕ) :
    magnitude sval x k = 0 := by
  unfold magnitude dft
  rw [norm_eq_zero]
  refine Finset.sum_eq_zero fun n hn => ?_
  have hn := Finset.mem_range.mp hn
  rw [List.getD_eq_getElem _ _ (by simpa using hn), List.getElem_map, h _ (List.getElem_mem hn)]
  simp

/-- An arithmetic on names that has R11's properties. -/
structure LawfulNumerics where
  num : Numerics Sample
  lawful : num.Lawful

/-- Some arithmetic has R11's properties: every name stands for 0 and the bound on the sine is 1. It only shows that the type of
`Config.numerics` is inhabited. -/
def someNumerics : LawfulNumerics where
  num := { sval := fun _ => 0, szero := ⟨0⟩, sinS := fun _ => ⟨0⟩, binGt := fun _ _ _ => false,
           epsSin := 1, epsMag := fun _ => 0 }
  lawful :=
    { zero := rfl
      n2 := fun θ => by simpa [idealSin] using Real.abs_sin_le_one _
      n3 := fun _ _ => rfl
      n4_above := fun x ka kb _ _ h => by simp [magnitude_zero] at h
      n4_below := fun _ _ _ _ _ _ => rfl
      n5 := fun _ _ _ _ => rfl }

end Sys2Proof.Machine

/-- The machine's arithmetic: an open record of which nothing is known but R11's properties (R7, R11; assumption 2). The
argument only says that its type is inhabited. -/
opaque Sys2Proof.Config.numerics [Inhabited Sys2Proof.Machine.LawfulNumerics] : Sys2Proof.Machine.LawfulNumerics

namespace Sys2Proof.Machine

/-- The machine's instance of the `Numerics` record, its `sval`, `EPS_SIN` and `EPS_MAG` among the fields (R11). -/
def openNumerics : Numerics Sample :=
  (@Config.numerics ⟨someNumerics⟩).num

/-- The machine's instance has the properties N2 to N5 (R11). -/
theorem openNumerics_lawful : openNumerics.Lawful :=
  (@Config.numerics ⟨someNumerics⟩).lawful

/-- The reference parameters: the open arithmetic, unbounded streams (R7, R64). -/
def referenceParams : Params where
  num := openNumerics
  depth _ := none

end Sys2Proof.Machine
end

