-- ==== Sys2Proof/Machine/Step.lean ====
section
/-! DEFINITION. One step of the machine under the reference parameters, and the state whose next step issues a given command word. -/

namespace Sys2Proof.Machine

/-- One step: the turn of one agent (R12, R76), with the reference parameters (R7). -/
def step (s : State) : Host.Outcome State Fault Refusal :=
  stepWith referenceParams s

/-- The state in which the host's next line writes the word to `CMD` and the next turn is the host's: the
block fetches no instruction, so this is where a command comes from (R52, R200; assumption 4). -/
def State.withFetchWord (s : State) (nbits w : Nat) : State :=
  { s with host := .write cmdOffset (tableWord nbits w) :: s.host, turns := .host :: s.turns }

end Sys2Proof.Machine
end

