-- ==== Sys2Proof/Safety.lean ====
section
/-! DEFINITION. The terms of the claims: what an engine leaves alone, what it is for a command to complete, and what a state of a run always satisfies. -/

namespace Sys2Proof.Machine

/-- From `s` to `t` nothing changed but what `TX` writes: its own state, `TXD` and `TXS` (R78). -/
def TxFrame (s t : State) : Prop :=
  t = { s with tx := t.tx, txd := t.txd, txs := t.txs }

/-- From `s` to `t` nothing changed but what `RX` and `HP` write: their own state, `RXS`, `RXB`, `RXD` and the error
registers (R78). -/
def RxFrame (s t : State) : Prop :=
  t = { s with rx := t.rx, hp := t.hp, rxs := t.rxs, rxd := t.rxd, rxb := t.rxb, err := t.err,
               errInfo := t.errInfo }

/-- Running `TX` from `t` the command in execution completes in `u`: `TXBUSY` is 1 until then, and then the engine
is idle with `TXDONE` 1 (R149, R209). -/
def TxCompletes (num : Numerics Sample) (t u : State) : Prop :=
  ∃ n, txRun num n t = u ∧ (∀ m < n, (txRun num m t).tx.busy = true)
    ∧ u.tx.op = .idle ∧ u.tx.busy = false ∧ u.tx.done = true

/-- Running `RX` from `t` the command in execution completes in `u` (R209). -/
def RxCompletes (num : Numerics Sample) (t u : State) : Prop :=
  ∃ n, rxRun num n t = u ∧ (∀ m < n, (rxRun num m t).rx.busy = true)
    ∧ u.rx.op = .idle ∧ u.rx.busy = false ∧ u.rx.done = true

/-- Running `TX` from `t` the command in execution never ends: `TXBUSY` stays 1, and from some step on the state is `u`, the
engine's hold (R253). -/
def TxHolds (num : Numerics Sample) (t u : State) : Prop :=
  (∀ m, (txRun num m t).tx.busy = true) ∧ ∃ n, ∀ m, n ≤ m → txRun num m t = u

/-- Running `RX` from `t` the command in execution never ends, and from some step on the state is `u` (R253). -/
def RxHolds (num : Numerics Sample) (t u : State) : Prop :=
  (∀ m, (rxRun num m t).rx.busy = true) ∧ ∃ n, ∀ m, n ≤ m → rxRun num m t = u

/-- The state after the host has pushed items to `TXD`, `RXS` and `RXB`, in order (R63, R208). -/
def State.feed (toTxd : List (Item Byte)) (toRxs : List (Item Sample)) (toRxb : List (Item Byte)) (s : State) :
    State :=
  { s with txd := s.txd ++ toTxd, rxs := s.rxs ++ toRxs, rxb := s.rxb ++ toRxb }

/-- A push lifts the hold `u` of the command accepted in `t`: whatever the host pushes in the hold, `TX` goes on as if it had
been pushed before the command started, since that run comes to the hold with the pushed items waiting (R63, R81). -/
def TxResumes (num : Numerics Sample) (t u : State) : Prop :=
  ∀ toTxd toRxs toRxb, ∃ n, txRun num n (t.feed toTxd toRxs toRxb) = u.feed toTxd toRxs toRxb
    ∧ ∀ m ≤ n, (txRun num m (t.feed toTxd toRxs toRxb)).tx.busy = true

/-- As `TxResumes`, for `RX` (R63, R81). -/
def RxResumes (num : Numerics Sample) (t u : State) : Prop :=
  ∀ toTxd toRxs toRxb, ∃ n, rxRun num n (t.feed toTxd toRxs toRxb) = u.feed toTxd toRxs toRxb
    ∧ ∀ m ≤ n, (rxRun num m (t.feed toTxd toRxs toRxb)).rx.busy = true

/-- The next turn is that of the agent `a`, and `s'` is the state in which it takes it: the turn is the first of the list, or,
with none listed, the one drawn from the open schedule (R76; assumption 5). -/
def State.TurnOf (s : State) (a : Agent) (s' : State) : Prop :=
  (∃ turns, s.turns = a :: turns ∧ s' = { s with turns := turns })
    ∨ (s.turns = [] ∧ Config.freeAgent s.drawn = a ∧ s' = { s with drawn := s.drawn + 1 })

/-- The next turn is the host's, and its next line is `h`. -/
def State.HostNext (s : State) (h : HostStep) : Prop :=
  (∃ s', s.TurnOf .host s') ∧ ∃ lines, s.host = h :: lines

/-- A 32-bit read at an offset answers `v` and does nothing else (R204). -/
def State.Answers (s : State) (offset : Nat) (v : Word) : Prop :=
  hostRead offset s = .next { s with replies := s.replies ++ [.word v] }

/-- A stream holds one buffer: its data items, then `END` (R62). -/
def buffer {α : Type} (xs : List α) : List (Item α) :=
  xs.map .data ++ [.fin]

/-- How many of `n` recovered bytes a command that parses has counted when it completes: all of them, or the header
alone when the name failed (R178, R186). -/
def Parsed.counted (n : Nat) : Parsed → Nat
  | .ok _ _ => n
  | .err .frameTooShort _ => n
  | .err _ info => 4 + info

/-- How many of `m` whole slots `RXFRAME` has classified when it completes: all of them, or those of the header alone when the
name failed (R186). -/
def Parsed.slots (m : Nat) : Parsed → Nat
  | .ok _ _ => m
  | .err .frameTooShort _ => m
  | .err _ info => 8 * (4 + info)

/-- The payload bytes a command that parses delivers: none when the header failed (R186). -/
def Parsed.payload : Parsed → List Byte
  | .ok _ payload => payload
  | .err _ _ => []

/-- What a command that parses has delivered and recorded for the outcome of parse_frame (R186, R187, R188). -/
def Delivers (r : Parsed) (s u : State) : Prop :=
  match r with
  | .ok t payload =>
    u.rxd = s.rxd ++ buffer payload ∧ u.hp.method = some t ∧ u.hp.state = .payload
      ∧ u.err = s.err ∧ u.errInfo = s.errInfo
  | .err c info =>
    u.rxd = s.rxd ++ [.fin] ∧ u.hp.method = none ∧ u.hp.state = .fail
      ∧ u.err = c ∧ u.errInfo = BitVec.ofNat 32 info

/-- `HDR_LEN` after a command that parsed `bytes` (R188). -/
def headerLength (bytes : List Byte) : Word :=
  if bytes.length < 4 then 0#32 else BitVec.ofNat 32 (be32Value (bytes.take 4))

/-- The markers replaced (R27). -/
def State.withMarkers (s : State) (startMarker endMarker : Byte) : State :=
  { s with startMarker := startMarker, endMarker := endMarker }

/-- The sufficient condition for the round trip: a whole number of samples in a tone, a whole number of cycles of either
frequency, distinct and inside the axis, and equal slot lengths at both ends (44_demodulator.md, section 1). -/
structure RoundTrips (c : Cfg) : Prop where
  whole : unitsPerSecond ∣ c.sampleRate.toNat * c.bitDur.toNat
  wholeHigh : unitsPerSecond ∣ c.freqHigh.toNat * c.bitDur.toNat
  wholeLow : unitsPerSecond ∣ c.freqLow.toNat * c.bitDur.toNat
  distinct : c.freqHigh.toNat * c.bitDur.toNat ≠ c.freqLow.toNat * c.bitDur.toNat
  high_pos : 0 < c.freqHigh.toNat * c.bitDur.toNat
  high_lt : c.freqHigh.toNat * c.bitDur.toNat / unitsPerSecond ≤ (c.nTone + 1) / 2 - 1
  low_pos : 0 < c.freqLow.toNat * c.bitDur.toNat
  low_lt : c.freqLow.toNat * c.bitDur.toNat / unitsPerSecond ≤ (c.nTone + 1) / 2 - 1
  slots : c.nSlot = c.nTone + c.nSil

/-- The commands of `TX` that use the configuration (R200 step 6). -/
def TxOp.usesCfg : TxOp → Bool
  | .tone | .sil | .txbit | .txbyte | .txraw | .txframe => true
  | .idle | .txend => false

/-- The commands of `RX` that use the configuration (R200 step 6): those that pop `RXS`. -/
def RxOp.usesCfg : RxOp → Bool
  | .rxslot | .rxraw | .rxframe => true
  | .idle | .rxflush | .hparse => false

/-- The commands of `RX` that run the header parser (R46). -/
def RxOp.usesParser : RxOp → Bool
  | .rxframe | .hparse => true
  | .idle | .rxslot | .rxflush | .rxraw => false

/-- The invariant of the transmit engine. -/
structure TxInv (t : TxState) : Prop where
  /-- `tx_op` is `IDLE` exactly when `TXBUSY = 0` (R44). -/
  busy_iff : t.busy = true ↔ t.op ≠ .idle
  /-- Where the sequencer rests between commands (R149). -/
  rest : t.op = .idle → t.seg = .fetch ∧ t.nbits = 0 ∧ t.hdr = []
  /-- `tx_nbits` is 0 to 8 (R44). -/
  nbits_le : t.nbits ≤ 8
  /-- `tx_hdr` has length 0 to 8, and holds bytes in `TXFRAME` only (R44). -/
  hdr_le : t.hdr.length ≤ 8
  hdr_frame : t.hdr ≠ [] → t.op = .txframe
  /-- `TONE`, `SIL` and `TXEND` stay in one segment and serialise no byte (R125, R126, R145). -/
  in_tone : t.op = .tone → t.seg = .tone ∧ t.nbits = 0
  in_silence : t.op = .sil → t.seg = .silence ∧ t.nbits = 0
  in_end : t.op = .txend → t.seg = .fetch ∧ t.nbits = 0
  /-- A running command that uses the configuration runs on a snapshot of a valid one (R30, R200, R245). -/
  snapshot : t.op.usesCfg = true → ∃ c : Cfg, cfgchk c = 0#32 ∧ t.cfg = TxCfg.of c
  /-- `tx_k` is in `0 .. n_tone` or `0 .. n_sil` (R44). -/
  k_tone : t.seg = .tone → t.k ≤ t.cfg.nTone
  k_silence : t.seg = .silence → t.k ≤ t.cfg.nSil
  k_fetch : t.seg = .fetch → t.k = 0

/-- The invariant of the receive engine. -/
structure RxInv (r : RxState) : Prop where
  /-- `rx_op` is `IDLE` exactly when `RXBUSY = 0` (R35, R45). -/
  busy_iff : r.busy = true ↔ r.op ≠ .idle
  /-- `ds_cnt` is 0 to 7 (R45). -/
  dsCnt_le : r.dsCnt ≤ 7
  /-- As for `TX` (R30, R200, R245). -/
  snapshot : r.op.usesCfg = true → ∃ c : Cfg, cfgchk c = 0#32 ∧ r.cfg = RxCfg.of c
  /-- A slot in progress is not whole (R169). -/
  k_lt : r.op.usesCfg = true → r.k < r.cfg.nSlot
  /-- `rx_k` does not survive a command (R45). -/
  k_rest : r.op.usesCfg = false → r.k = 0
  /-- The samples of the tone region popped so far are in `rx_buf` (R45). -/
  buf_le : r.op.usesCfg = true → r.k ≤ r.buf.length ∨ r.cfg.nTone ≤ r.buf.length

/-- The invariant of the header parser, which runs inside `RX`. -/
structure ParserInv (r : RxState) (p : Parser) : Prop where
  /-- `RXBYTES` is the low 32 bits of `hp_total` (R42, R46). -/
  bytes_eq : r.bytes = BitVec.ofNat 32 p.total
  /-- `hp_state` in and outside the commands that parse (R46). -/
  off_rest : r.op = .idle → p.state = .off ∨ p.state = .payload ∨ p.state = .fail
  off_other : r.op ≠ .idle → r.op.usesParser = false → p.state = .off
  on_parse : r.op.usesParser = true → p.state ≠ .off
  /-- `hp_cnt` within its field (R46). -/
  cnt_len : p.state = .len → p.cnt < 4
  cnt_name : p.state = .name → p.cnt < p.len.toNat
  /-- `METHOD.VALID` in `H_PAYLOAD`; cleared while a header is being read or after it failed (R39, R188). -/
  method_payload : p.state = .payload → p.method ≠ none
  method_none : p.state = .len ∨ p.state = .name ∨ p.state = .fail → p.method = none
  /-- `rx_fail` only after a header error (R227). -/
  fail_state : r.fail = true → p.state = .fail

/-- The invariant of the error registers. -/
structure ErrorInv (s : State) : Prop where
  /-- Code 4 is never raised (R219). -/
  never_decompression : s.err ≠ .decompressionFailed
  /-- `ERRINFO` is cleared with `ERR` (R37). -/
  info_zero : s.err = .noError → s.errInfo = 0#32

/-- The invariant of the machine. -/
structure State.Inv (s : State) : Prop where
  tx : TxInv s.tx
  rx : RxInv s.rx
  parser : ParserInv s.rx s.hp
  error : ErrorInv s

end Sys2Proof.Machine
end

