-- ==== Sys2Proof/Certificates/Slice0/Obligations.lean ====
section
/-! DEFINITION. The statements for the provers, each with the rule or the section of spec/ it comes from. -/

open Sys2Proof Sys2Proof.Machine

/-! ### Command words -/

/-- Words written out from the bits of 30_encoding.md section 7 decode to the commands they stand for, and words it calls
illegal to none. -/
def Obligations.SpecWordsDecode : Prop :=
  decode 0x00000000#32 = some .nop
    ∧ decode 0x00000101#32 = some (.tone true)
    ∧ decode 0x00000001#32 = some (.tone false)
    ∧ decode 0x00000103#32 = some (.txbit true)
    ∧ decode 0x0000A504#32 = some (.txbyte 0xA5#8)
    ∧ decode 0x00000207#32 = some (.txframe .bz2)
    ∧ decode 0x0000000A#32 = some .rxraw
    ∧ decode 0x0000000C#32 = some .hparse
    ∧ decode 0x0000000F#32 = some .reset
    ∧ decode 0x0000000D#32 = none
    ∧ decode 0x00000201#32 = none
    ∧ decode 0x0000010F#32 = none
    ∧ decode 0x00010000#32 = none

/-- Decoding and encoding are inverse to each other on all words and all commands: no bit of a legal word is dropped
and no two words mean one command. -/
def Obligations.DecodeInvertsEncode : Prop :=
  ∀ (w : Word) (i : Instr), decode w = some i ↔ encode i = w

/-- R103: which words are illegal (the legality check written from the prose agrees with the decoder), what an illegal word does and nothing else, and that the word of `NOP` is the only one
that does nothing in every state. R221: the cause and its `ERRINFO`. -/
def Obligations.IllegalWordsRaiseIllegalCmd : Prop :=
  (∀ w : Word, decode w = none ↔
    (w.extractLsb' 0 8 = 0x0D#8 ∨ 0x10 ≤ (w.extractLsb' 0 8).toNat
      ∨ w.extractLsb' 16 16 ≠ 0#16
      ∨ ((w.extractLsb' 0 8 = 0x01#8 ∨ w.extractLsb' 0 8 = 0x03#8) ∧ w.extractLsb' 9 7 ≠ 0#7)
      ∨ (w.extractLsb' 0 8 = 0x07#8 ∧ w.extractLsb' 10 6 ≠ 0#6)
      ∨ (w.extractLsb' 0 8 ∉ [0x01#8, 0x03#8, 0x04#8, 0x07#8] ∧ w.extractLsb' 8 8 ≠ 0#8)))
  ∧ (∀ w : Word, legalWord w = true ↔ decode w ≠ none)
  ∧ (∀ (w : Word) (s : State), decode w = none → s.err = .noError →
      issue w s = .next { s with err := .illegalCmd, errInfo := w })
  ∧ (∀ (w : Word) (s : State), decode w = none → s.err ≠ .noError → issue w s = .next s)
  ∧ (∀ w : Word, (∀ s : State, issue w s = .next s) ↔ w = 0#32)

/-! ### One step -/

/-- When it is the host's turn and its next line writes to `CMD` a word that decodes to a well-formed command, the step is
that command's meaning, the line and the turn used up and nothing else around it; a word that decodes to none records
`ILLEGAL_CMD`. -/
def Obligations.StepIssuesTheDecodedCommand : Prop :=
  ∀ (s : State) (w : Word) (turns : List Agent) (lines : List HostStep),
    s.turns = .host :: turns → s.host = .write 0x04 w :: lines →
    (∀ i, decode w = some i → i.wellFormed = true →
      step s = exec i { s with turns := turns, host := lines })
    ∧ (decode w = none →
      step s = .next (({ s with turns := turns, host := lines }).raise .illegalCmd w.toNat))

/-- A turn belongs to one agent: an engine's turn is one step of that engine, the host's turn is its next line, taken from the
script, and changes nothing else when there is none, and with no turn listed the next one is drawn from the open schedule. A
read line is a 32-bit read, a write line a 32-bit write. The list of turns, the open schedule and the script are the model's:
log entries 4 and 5. -/
def Obligations.TurnsBelongToOneAgent : Prop :=
  (∀ (s : State) (turns : List Agent), s.turns = .tx :: turns →
      step s = .next (txStep openNumerics { s with turns := turns }))
  ∧ (∀ (s : State) (turns : List Agent), s.turns = .rx :: turns →
      step s = .next (rxStep openNumerics { s with turns := turns }))
  ∧ (∀ (s : State) (turns : List Agent), s.turns = .host :: turns → s.host = [] →
      step s = .next { s with turns := turns })
  ∧ (∀ (s : State) (turns : List Agent) (h : HostStep) (lines : List HostStep),
      s.turns = .host :: turns → s.host = h :: lines →
      step s = hostTurn (fun _ => none) h { s with turns := turns } { s with turns := turns, host := lines })
  ∧ (∀ s : State, s.turns = [] →
      step s = agentTurn referenceParams (Config.freeAgent s.drawn) { s with drawn := s.drawn + 1 })
  ∧ ∀ (depth : StreamName → Option Nat) (held s : State) (offset : Nat) (v : Word),
      hostTurn depth (.read offset) held s = hostRead offset s
      ∧ hostTurn depth (.write offset v) held s = hostWrite offset v s

/-! ### System commands -/

/-- R201: `NOP` does nothing, in every state; its word is 0, and a word with its `OP` and any other bit set is illegal. -/
def Obligations.NopDoesNothing : Prop :=
  (∀ s : State, exec .nop s = .next s)
  ∧ encode .nop = 0x00000000#32
  ∧ ∀ (w : Word) (s : State), w.extractLsb' 0 8 = 0x00#8 → w ≠ 0#32 →
      issue w s = .next (s.raise .illegalCmd w.toNat)

/-- R202: `CLRERR` clears the recorded error, in every state, and changes nothing else; a word with its `OP` and any other
bit set is illegal. -/
def Obligations.ClrerrClearsOnlyTheError : Prop :=
  (∀ s : State, exec .clrerr s = .next { s with err := .noError, errInfo := 0#32 })
  ∧ (∀ s t : State, exec .clrerr s = .next t → t.errf = false)
  ∧ encode .clrerr = 0x0000000E#32
  ∧ ∀ (w : Word) (s : State), w.extractLsb' 0 8 = 0x0E#8 → w ≠ 0x0000000E#32 →
      issue w s = .next (s.raise .illegalCmd w.toNat)

/-- R203: `RESET` puts the whole block into its reset state, in every state; the host's script, its answers and the turns
are not the block's (log entry 17). The reset input has the same effect; that it is a line of the host is the model's choice
(log entry 23). A word with its `OP` and any other bit set is illegal. -/
def Obligations.ResetRestoresTheResetState : Prop :=
  (∀ s : State, exec .reset s = .next { State.reset with
      host := s.host, replies := s.replies, turns := s.turns, drawn := s.drawn })
  ∧ (∀ s t : State, exec .reset s = .next t →
      t.status = 0#32 ∧ t.txd = [] ∧ t.txs = [] ∧ t.rxs = [] ∧ t.rxd = [] ∧ t.rxb = [])
  ∧ encode .reset = 0x0000000F#32
  ∧ (∀ (depth : StreamName → Option Nat) (held s : State),
      hostTurn depth .resetInput held s = exec .reset s)
  ∧ ∀ (w : Word) (s : State), w.extractLsb' 0 8 = 0x0F#8 → w ≠ 0x0000000F#32 →
      issue w s = .next (s.raise .illegalCmd w.toNat)

/-- The reset values the spec gives (10_state.md section 8): registers, engines, deserializer, parser and streams; `MARKERS`
holds the open `DEF_SM` and `DEF_EM`; the configuration registers hold the open `DEF_*` where those are valid, and a valid
configuration in any case (70_reset_and_hazards.md section 1 lets no other be assumed; log entry 3). -/
def Obligations.ResetValues : Prop :=
  let s := State.reset
  s.status = 0#32 ∧ s.errWord = 0#32 ∧ s.errInfo = 0#32 ∧ s.hp.hdrLen = 0#32 ∧ s.methodWord = 0#32
  ∧ s.tx.pos = 0#32 ∧ s.rx.pos = 0#32 ∧ s.rx.bytes = 0#32
  ∧ s.tx.op = .idle ∧ s.rx.op = .idle
  ∧ s.tx.hdr = [] ∧ s.tx.nbits = 0 ∧ s.tx.seg = .fetch ∧ s.tx.k = 0 ∧ s.tx.sym = false ∧ s.tx.shift = 0#8
  ∧ s.rx.k = 0 ∧ s.rx.dsCnt = 0 ∧ s.rx.dsShift = 0#8 ∧ s.rx.fail = false
  ∧ s.hp.state = .off ∧ s.hp.cnt = 0 ∧ s.hp.len = 0#32 ∧ s.hp.total = 0 ∧ s.hp.u8 = .acc
  ∧ s.hp.matched = 0b1111#4
  ∧ s.txd = [] ∧ s.txs = [] ∧ s.rxs = [] ∧ s.rxd = [] ∧ s.rxb = []
  ∧ s.startMarker = Config.defStartMarker ∧ s.endMarker = Config.defEndMarker
  ∧ s.readReg .markers = 0#16 ++ Config.defEndMarker ++ Config.defStartMarker
  ∧ cfgchk s.cfg = 0#32
  ∧ (s.cfg = Config.defaults ∨ cfgchk Config.defaults ≠ 0#32)

/-! ### Issue and errors -/

/-- R222: a legal command whose engine is busy raises `CMD_BUSY` with the word, and nothing else changes. -/
def Obligations.BusyEngineRaisesCmdBusy : Prop :=
  ∀ (i : Instr) (s : State), s.err = .noError → s.classBusy i.commandClass = true →
    exec i s = .next { s with err := .cmdBusy, errInfo := encode i }

/-- R220: a command that uses the configuration raises `CFG_INVALID` with `CFGCHK` when the live configuration fails a check,
and nothing else changes; the resolution invariant is not among the checks: a configuration that violates it passes. -/
def Obligations.InvalidConfigurationIsRefused : Prop :=
  (∀ (i : Instr) (s : State), i.usesCfg = true → s.err = .noError →
      s.classBusy i.commandClass = false → cfgchk s.cfg ≠ 0#32 →
      exec i s = .next { s with err := .cfgInvalid, errInfo := cfgchk s.cfg })
  ∧ ∃ c : Cfg, cfgchk c = 0#32 ∧ freqGap c * c.bitDur.toNat < unitsPerSecond

/-- A command of a `TX` or `RX` class has no partial effect: either it changes nothing but the error registers, or it is
accepted, and then there was no error, its engine was idle and is busy now, the configuration was valid if it uses it,
and the error registers, the live configuration, the other engine and every stream are as before. Every word written to
`CMD` is answered with a next state, never with a stop, and while an error is recorded a command of a `TX` or `RX` class
changes nothing at all. -/
def Obligations.IssueHasNoPartialEffect : Prop :=
  (∀ (w : Word) (s : State), ∃ t, issue w s = .next t)
  ∧ (∀ (i : Instr) (s : State), i.commandClass ≠ .sys → s.err ≠ .noError → exec i s = .next s)
  ∧ ∀ (i : Instr) (s t : State), i.commandClass ≠ .sys → exec i s = .next t →
    t = { s with err := t.err, errInfo := t.errInfo }
    ∨ (s.err = .noError ∧ s.classBusy i.commandClass = false
      ∧ (i.usesCfg = true → cfgchk s.cfg = 0#32)
      ∧ t.classBusy i.commandClass = true
      ∧ (i.commandClass = .tx → t = { s with tx := t.tx } ∧ t.tx.cfg = TxCfg.of s.cfg)
      ∧ (i.commandClass = .rx → t = { s with rx := t.rx, hp := t.hp } ∧ t.rx.cfg = RxCfg.of s.cfg))

/-- R225: the error entry records the first error and drops a later one, changes nothing else, and `ERRF` reads 1 after it. -/
def Obligations.FirstErrorSticks : Prop :=
  ∀ (c : Cause) (info : Nat) (s : State),
    (s.err = .noError → s.raise c info = { s with err := c, errInfo := BitVec.ofNat 32 info })
    ∧ (s.err ≠ .noError → s.raise c info = s)
    ∧ (c ≠ .noError → (s.raise c info).errf = true)

/-- A recorded error leaves only by `CLRERR`, `RESET` or the reset input, at a turn of the host: any other step of any agent
keeps cause and `ERRINFO`. That the reset input is a line of the host is the model's choice (log entry 23). -/
def Obligations.ErrorsLeaveOnlyByClearing : Prop :=
  ∀ s t : State, step s = .next t → s.err ≠ .noError →
    (t.err = s.err ∧ t.errInfo = s.errInfo)
    ∨ (t.err = .noError ∧ t.errInfo = 0#32
      ∧ ∃ h, s.HostNext h
        ∧ (h = .write 0x04 0x0000000E#32 ∨ h = .write 0x04 0x0000000F#32 ∨ h = .resetInput))

/-- A running command ends only by its own engine's step, taken at that engine's turn, which sets its `DONE` bit, or by a reset
at a turn of the host. That the reset input is a line of the host is the model's choice (log entry 23). -/
def Obligations.BusyEndsOnlyByCompletionOrReset : Prop :=
  ∀ s t : State, step s = .next t →
    (s.tx.busy = true → t.tx.busy = false →
      (∃ s', s.TurnOf .tx s' ∧ t = txStep openNumerics s' ∧ t.tx.op = .idle ∧ t.tx.done = true)
      ∨ ∃ h, s.HostNext h ∧ (h = .write 0x04 0x0000000F#32 ∨ h = .resetInput))
    ∧ (s.rx.busy = true → t.rx.busy = false →
      (∃ s', s.TurnOf .rx s' ∧ t = rxStep openNumerics s' ∧ t.rx.op = .idle ∧ t.rx.done = true)
      ∨ ∃ h, s.HostNext h ∧ (h = .write 0x04 0x0000000F#32 ∨ h = .resetInput))

/-! ### Transmit commands -/

/-- `TONE sel` is accepted and pushes the tone of the selected frequency, no `END`; `TXPOS` is 0 at acceptance and at
completion; nothing else of the block changes. -/
def Obligations.ToneEmitsOneToneSegment : Prop :=
  ∀ (num : Numerics Sample) (sel : Bool) (s : State),
    s.err = .noError → s.tx.busy = false → cfgchk s.cfg = 0#32 →
    ∃ t u, exec (.tone sel) s = .next t
      ∧ t.tx.busy = true ∧ t.tx.done = false ∧ t.tx.pos = 0#32
      ∧ TxCompletes num t u ∧ TxFrame s u ∧ u.txd = s.txd ∧ u.tx.pos = 0#32
      ∧ u.txs = s.txs ++
        (tone num (s.cfg.symFreq sel) (seconds s.cfg.bitDur) s.cfg.sampleRate.toNat).map .data

/-- `SIL` is accepted and pushes the silence segment, no `END`; `TXPOS` is 0; nothing else of the block changes. -/
def Obligations.SilEmitsOneSilenceSegment : Prop :=
  ∀ (num : Numerics Sample) (s : State),
    s.err = .noError → s.tx.busy = false → cfgchk s.cfg = 0#32 →
    ∃ t u, exec .sil s = .next t
      ∧ t.tx.busy = true ∧ t.tx.done = false ∧ t.tx.pos = 0#32
      ∧ TxCompletes num t u ∧ TxFrame s u ∧ u.txd = s.txd ∧ u.tx.pos = 0#32
      ∧ u.txs = s.txs ++
        (silence num (seconds s.cfg.silDur) s.cfg.sampleRate.toNat).map .data

/-- `TXBIT b` is accepted and pushes the slot of its bit, no `END`; `TXPOS` is 1 at completion; `TXD` and the rest of the
block are untouched. -/
def Obligations.TxbitModulatesOneBit : Prop :=
  ∀ (num : Numerics Sample) (bit : Bool) (s : State),
    s.err = .noError → s.tx.busy = false → cfgchk s.cfg = 0#32 →
    ∃ t u, exec (.txbit bit) s = .next t
      ∧ t.tx.busy = true ∧ t.tx.done = false ∧ t.tx.pos = 0#32
      ∧ TxCompletes num t u ∧ TxFrame s u ∧ u.txd = s.txd ∧ u.tx.pos = 1#32
      ∧ u.txs = s.txs ++ (slot num s.cfg bit).map .data

/-- `TXBYTE v` is accepted and modulates the eight bits of its byte, no `END`; `TXPOS` is 8 at completion; `TXD` and the
rest of the block are untouched. -/
def Obligations.TxbyteModulatesEightBits : Prop :=
  ∀ (num : Numerics Sample) (byte : Byte) (s : State),
    s.err = .noError → s.tx.busy = false → cfgchk s.cfg = 0#32 →
    ∃ t u, exec (.txbyte byte) s = .next t
      ∧ t.tx.busy = true ∧ t.tx.done = false ∧ t.tx.pos = 0#32
      ∧ TxCompletes num t u ∧ TxFrame s u ∧ u.txd = s.txd ∧ u.tx.pos = 8#32
      ∧ u.txs = s.txs ++ (modulate num s.cfg (bytesToBits [byte])).map .data

/-- `TXEND` is accepted whatever the configuration is and pushes `END`; `TXPOS` is 0; nothing else of the block changes. -/
def Obligations.TxendClosesTheBuffer : Prop :=
  ∀ (num : Numerics Sample) (s : State), s.err = .noError → s.tx.busy = false →
    ∃ t u, exec .txend s = .next t
      ∧ t.tx.busy = true ∧ t.tx.done = false ∧ t.tx.pos = 0#32
      ∧ TxCompletes num t u ∧ TxFrame s u ∧ u.txd = s.txd ∧ u.tx.pos = 0#32
      ∧ u.txs = s.txs ++ [.fin]

/-- `TXRAW` is accepted and, with a whole buffer in `TXD`, pushes the modulated bits of its bytes and one `END`, pops
exactly the buffer, and counts its bits in `TXPOS`; nothing else of the block changes. -/
def Obligations.TxrawModulatesTheBuffer : Prop :=
  ∀ (num : Numerics Sample) (s : State) (data : List Byte) (rest : List (Item Byte)),
    s.err = .noError → s.tx.busy = false → cfgchk s.cfg = 0#32 → s.txd = buffer data ++ rest →
    ∃ t u, exec .txraw s = .next t
      ∧ t.tx.busy = true ∧ t.tx.done = false ∧ t.tx.pos = 0#32
      ∧ TxCompletes num t u ∧ TxFrame s u ∧ u.txd = rest
      ∧ u.tx.pos = BitVec.ofNat 32 (8 * data.length)
      ∧ u.txs = s.txs ++ buffer (modulate num s.cfg (bytesToBits data))

/-- `TXFRAME tag` is accepted and, with a whole payload in `TXD`, pushes the modulated bits of the tag's header and the
payload and one `END`, pops exactly the payload's buffer, and counts the bits in `TXPOS`; nothing else of the block
changes. -/
def Obligations.TxframeModulatesHeaderAndPayload : Prop :=
  ∀ (num : Numerics Sample) (tag : Method) (s : State) (payload : List Byte) (rest : List (Item Byte)),
    s.err = .noError → s.tx.busy = false → cfgchk s.cfg = 0#32 → s.txd = buffer payload ++ rest →
    ∃ t u, exec (.txframe tag) s = .next t
      ∧ t.tx.busy = true ∧ t.tx.done = false ∧ t.tx.pos = 0#32
      ∧ TxCompletes num t u ∧ TxFrame s u ∧ u.txd = rest
      ∧ u.tx.pos = BitVec.ofNat 32 (8 * ((header tag).length + payload.length))
      ∧ u.txs = s.txs ++ buffer (modulate num s.cfg (bytesToBits (header tag ++ payload)))

/-- A streaming command whose buffer has not got its `END` consumes every item, delivers what it gives for the items, and then
holds, busy, for ever unless the host pushes: `TXRAW`, `TXFRAME`, `RXRAW`, `RXFRAME`, `HPARSE`; and `RXSLOT` with less than a
slot in `RXS` does the same, with no bit. A push lifts the hold: whatever the host pushes then has the effect it would have
had before the command started, the rest of the buffer completes the command with the outcome of the whole buffer, and the
rest of the slot completes `RXSLOT` with the bit of the whole slot. Nor does acceptance look at what the streams hold. -/
def Obligations.CommandsWithoutEndHold : Prop :=
  (∀ (num : Numerics Sample) (s : State) (data : List Byte),
    s.err = .noError → s.tx.busy = false → cfgchk s.cfg = 0#32 → s.txd = data.map .data →
    (∃ t u, exec .txraw s = .next t ∧ TxHolds num t u ∧ TxResumes num t u ∧ TxFrame s u ∧ u.txd = []
      ∧ u.txs = s.txs ++ (modulate num s.cfg (bytesToBits data)).map .data
      ∧ ∀ more rest, ∃ v, TxCompletes num (u.feed (buffer more ++ rest) [] []) v ∧ TxFrame s v ∧ v.txd = rest
        ∧ v.tx.pos = BitVec.ofNat 32 (8 * (data ++ more).length)
        ∧ v.txs = s.txs ++ buffer (modulate num s.cfg (bytesToBits (data ++ more))))
    ∧ ∀ tag : Method, ∃ t u, exec (.txframe tag) s = .next t ∧ TxHolds num t u ∧ TxResumes num t u
      ∧ TxFrame s u ∧ u.txd = []
      ∧ u.txs = s.txs ++ (modulate num s.cfg (bytesToBits (header tag ++ data))).map .data
      ∧ ∀ more rest, ∃ v, TxCompletes num (u.feed (buffer more ++ rest) [] []) v ∧ TxFrame s v ∧ v.txd = rest
        ∧ v.tx.pos = BitVec.ofNat 32 (8 * (header tag ++ data ++ more).length)
        ∧ v.txs = s.txs ++ buffer (modulate num s.cfg (bytesToBits (header tag ++ data ++ more))))
  ∧ (∀ (num : Numerics Sample) (s : State) (samples : List Sample),
    s.err = .noError → s.rx.busy = false → cfgchk s.cfg = 0#32 → s.rxs = samples.map .data →
    let recovered := fun xs => bitsToBytes (demodulate num (RxCfg.of s.cfg) xs)
    (∃ t u, exec .rxraw s = .next t ∧ RxHolds num t u ∧ RxResumes num t u
      ∧ RxFrame s u ∧ u.rxs = [] ∧ u.rxb = s.rxb
      ∧ u.rxd = s.rxd ++ (recovered samples).map .data
      ∧ ∀ more rest, ∃ v, RxCompletes num (u.feed [] (buffer more ++ rest) []) v ∧ RxFrame s v
        ∧ v.rxs = rest ∧ v.rxb = s.rxb ∧ v.err = s.err
        ∧ v.rx.pos = BitVec.ofNat 32 ((samples ++ more).length / s.cfg.nSlot)
        ∧ v.rxd = s.rxd ++ buffer (recovered (samples ++ more)))
    ∧ (∃ t u, exec .rxframe s = .next t ∧ RxHolds num t u ∧ RxResumes num t u
      ∧ RxFrame s u ∧ u.rxs = [] ∧ u.rxb = s.rxb
      ∧ u.rxd = s.rxd ++ ((parseFrame (recovered samples)).payload).map .data
      ∧ ∀ more rest, ∃ v, RxCompletes num (u.feed [] (buffer more ++ rest) []) v ∧ RxFrame s v
        ∧ v.rxs = rest ∧ v.rxb = s.rxb
        ∧ v.hp.hdrLen = headerLength (recovered (samples ++ more))
        ∧ Delivers (parseFrame (recovered (samples ++ more))) s v)
    ∧ (samples.length < s.cfg.nSlot →
      ∃ t u, exec .rxslot s = .next t ∧ RxHolds num t u ∧ RxResumes num t u
        ∧ RxFrame s u ∧ u.rxs = [] ∧ u.rxb = s.rxb
        ∧ u.rxd = s.rxd ∧ u.rx.pos = 0#32 ∧ u.rx.dsCnt = s.rx.dsCnt ∧ u.rx.dsShift = s.rx.dsShift
        ∧ (∀ more rest, (samples ++ more).length = s.cfg.nSlot → s.rx.dsCnt ≤ 7 →
          ∃ v, RxCompletes num (u.feed [] (more.map .data ++ rest) []) v ∧ RxFrame s v
            ∧ v.rxs = rest ∧ v.rxb = s.rxb ∧ v.rx.pos = 1#32 ∧ v.rx.eos = false
            ∧ v.rx.dsCnt = (s.rx.dsCnt + 1) % 8
            ∧ v.rx.dsShift = shiftIn s.rx.dsShift
                ((RxCfg.of s.cfg).classify num ((samples ++ more).take s.cfg.nTone))
            ∧ v.rxd = s.rxd ++ (if s.rx.dsCnt = 7 then [.data v.rx.dsShift] else []))
        ∧ ∀ more rest, (samples ++ more).length < s.cfg.nSlot →
          ∃ v, RxCompletes num (u.feed [] (buffer more ++ rest) []) v ∧ RxFrame s v
            ∧ v.rxs = rest ∧ v.rxb = s.rxb ∧ v.rx.pos = 0#32 ∧ v.rx.eos = true
            ∧ v.rx.dsCnt = s.rx.dsCnt ∧ v.rx.dsShift = s.rx.dsShift ∧ v.rxd = s.rxd))
  ∧ (∀ (num : Numerics Sample) (s : State) (bytes : List Byte),
    s.err = .noError → s.rx.busy = false → s.rxb = bytes.map .data →
    ∃ t u, exec .hparse s = .next t ∧ RxHolds num t u ∧ RxResumes num t u
      ∧ RxFrame s u ∧ u.rxb = [] ∧ u.rxs = s.rxs
      ∧ u.rxd = s.rxd ++ ((parseFrame bytes).payload).map .data
      ∧ ∀ more rest, ∃ v, RxCompletes num (u.feed [] [] (buffer more ++ rest)) v ∧ RxFrame s v
        ∧ v.rxb = rest ∧ v.rxs = s.rxs
        ∧ v.hp.hdrLen = headerLength (bytes ++ more)
        ∧ Delivers (parseFrame (bytes ++ more)) s v)
  ∧ ∀ (i : Instr) (s : State) (toTxd : List (Item Byte)) (toRxs : List (Item Sample)) (toRxb : List (Item Byte)),
    i ≠ .reset → ∃ t, exec i s = .next t ∧ exec i (s.feed toTxd toRxs toRxb) = .next (t.feed toTxd toRxs toRxb)

/-! ### Receive commands -/

/-- `RXSLOT` with a whole slot in `RXS` is accepted, pops it, and gives its bit to the deserializer, which keeps what
earlier commands left and pushes a byte to `RXD` at every eighth bit; `RXPOS` is 1; `RXBYTES` and the rest of the block
are untouched. -/
def Obligations.RxslotClassifiesOneSlot : Prop :=
  ∀ (num : Numerics Sample) (s : State) (samples : List Sample) (rest : List (Item Sample)),
    s.err = .noError → s.rx.busy = false → cfgchk s.cfg = 0#32 → s.rx.dsCnt ≤ 7 →
    samples.length = s.cfg.nSlot → s.rxs = samples.map .data ++ rest →
    ∃ t u, exec .rxslot s = .next t
      ∧ t.rx.busy = true ∧ t.rx.done = false ∧ t.rx.eos = false
      ∧ RxCompletes num t u ∧ RxFrame s u ∧ u.rxs = rest ∧ u.rxb = s.rxb
      ∧ u.err = s.err ∧ u.errInfo = s.errInfo
      ∧ u.hp = { s.hp with state := .off }
      ∧ u.rx.pos = 1#32 ∧ u.rx.eos = false ∧ u.rx.bytes = s.rx.bytes
      ∧ u.rx.dsCnt = (s.rx.dsCnt + 1) % 8
      ∧ u.rx.dsShift = shiftIn s.rx.dsShift
          ((RxCfg.of s.cfg).classify num (samples.take s.cfg.nTone))
      ∧ u.rxd = s.rxd ++ (if s.rx.dsCnt = 7 then [.data u.rx.dsShift] else [])

/-- `RXSLOT` with fewer samples than a slot before the `END` is accepted, pops them and the `END`, and produces no bit: the
deserializer and `RXD` are as before, `RXPOS` is 0 and `RXEOS` is 1. -/
def Obligations.RxslotAtTheEndProducesNoBit : Prop :=
  ∀ (num : Numerics Sample) (s : State) (samples : List Sample) (rest : List (Item Sample)),
    s.err = .noError → s.rx.busy = false → cfgchk s.cfg = 0#32 →
    samples.length < s.cfg.nSlot → s.rxs = buffer samples ++ rest →
    ∃ t u, exec .rxslot s = .next t
      ∧ RxCompletes num t u ∧ RxFrame s u ∧ u.rxs = rest ∧ u.rxb = s.rxb ∧ u.rxd = s.rxd
      ∧ u.err = s.err ∧ u.errInfo = s.errInfo
      ∧ u.hp = { s.hp with state := .off }
      ∧ u.rx.pos = 0#32 ∧ u.rx.eos = true ∧ u.rx.bytes = s.rx.bytes
      ∧ u.rx.dsCnt = s.rx.dsCnt ∧ u.rx.dsShift = s.rx.dsShift

/-- `RXFLUSH` is accepted whatever the configuration is, discards the waiting bits and pushes `END`; it pops nothing,
`RXPOS` is 0, `RXEOS` is cleared, and `RXBYTES`, `HDR_LEN` and `METHOD` are as before. -/
def Obligations.RxflushDropsThePartialByte : Prop :=
  ∀ (num : Numerics Sample) (s : State), s.err = .noError → s.rx.busy = false →
    ∃ t u, exec .rxflush s = .next t
      ∧ t.rx.busy = true ∧ t.rx.done = false
      ∧ RxCompletes num t u ∧ RxFrame s u ∧ u.rxs = s.rxs ∧ u.rxb = s.rxb
      ∧ u.rxd = s.rxd ++ [.fin]
      ∧ u.err = s.err ∧ u.errInfo = s.errInfo
      ∧ u.hp = { s.hp with state := .off }
      ∧ u.rx.pos = 0#32 ∧ u.rx.eos = false ∧ u.rx.bytes = s.rx.bytes
      ∧ u.rx.dsCnt = 0 ∧ u.rx.dsShift = 0#8

/-- `RXRAW` is accepted and, with a whole sample buffer in `RXS`, pushes the bytes of its demodulated bits and one `END`,
pops exactly the buffer, and counts slots and bytes; a trailing partial slot and partial byte are dropped, and no error
is raised whatever the samples are. -/
def Obligations.RxrawDemodulatesTheBuffer : Prop :=
  ∀ (num : Numerics Sample) (s : State) (samples : List Sample) (rest : List (Item Sample)),
    s.err = .noError → s.rx.busy = false → cfgchk s.cfg = 0#32 → s.rxs = buffer samples ++ rest →
    ∃ t u, exec .rxraw s = .next t
      ∧ t.rx.busy = true ∧ t.rx.done = false ∧ t.rx.eos = false
      ∧ RxCompletes num t u ∧ RxFrame s u ∧ u.rxs = rest ∧ u.rxb = s.rxb
      ∧ u.rxd = s.rxd ++ buffer (bitsToBytes (demodulate num (RxCfg.of s.cfg) samples))
      ∧ u.err = s.err ∧ u.errInfo = s.errInfo
      ∧ u.hp = { s.hp with state := .off, total := samples.length / s.cfg.nSlot / 8 }
      ∧ u.rx.pos = BitVec.ofNat 32 (samples.length / s.cfg.nSlot)
      ∧ u.rx.bytes = BitVec.ofNat 32 (samples.length / s.cfg.nSlot / 8)
      ∧ u.rx.eos = true ∧ u.rx.dsCnt = 0

/-- `RXFRAME` is accepted and, with a whole sample buffer in `RXS`, delivers and records what parse_frame gives for the
recovered bytes: the payload, the tag and `H_PAYLOAD`, or an `END` alone, the error and `H_FAIL`; it pops exactly the
buffer; `HDR_LEN` and the counters are as the rules say. -/
def Obligations.RxframeParsesTheRecoveredBytes : Prop :=
  ∀ (num : Numerics Sample) (s : State) (samples : List Sample) (rest : List (Item Sample)),
    s.err = .noError → s.rx.busy = false → cfgchk s.cfg = 0#32 → s.rxs = buffer samples ++ rest →
    let bits := demodulate num (RxCfg.of s.cfg) samples
    let bytes := bitsToBytes bits
    ∃ t u, exec .rxframe s = .next t
      ∧ t.rx.busy = true ∧ t.rx.done = false ∧ t.rx.eos = false ∧ t.hp.method = none
      ∧ RxCompletes num t u ∧ RxFrame s u ∧ u.rxs = rest ∧ u.rxb = s.rxb
      ∧ Delivers (parseFrame bytes) s u
      ∧ u.hp.hdrLen = headerLength bytes
      ∧ u.hp.total = (parseFrame bytes).counted bytes.length
      ∧ u.rx.bytes = BitVec.ofNat 32 ((parseFrame bytes).counted bytes.length)
      ∧ u.rx.pos = BitVec.ofNat 32 ((parseFrame bytes).slots bits.length)
      ∧ u.rx.eos = true ∧ u.rx.dsCnt = 0

/-- `HPARSE` is accepted whatever the configuration is and, with a whole byte buffer in `RXB`, delivers and records what
parse_frame gives for its bytes; it pops exactly the buffer; `RXS` and the deserializer are untouched and `RXPOS`
is 0. -/
def Obligations.HparseParsesTheBytes : Prop :=
  ∀ (num : Numerics Sample) (s : State) (bytes : List Byte) (rest : List (Item Byte)),
    s.err = .noError → s.rx.busy = false → s.rxb = buffer bytes ++ rest →
    ∃ t u, exec .hparse s = .next t
      ∧ t.rx.busy = true ∧ t.rx.done = false ∧ t.rx.eos = false ∧ t.hp.method = none
      ∧ RxCompletes num t u ∧ RxFrame s u ∧ u.rxb = rest ∧ u.rxs = s.rxs
      ∧ Delivers (parseFrame bytes) s u
      ∧ u.hp.hdrLen = headerLength bytes
      ∧ u.hp.total = (parseFrame bytes).counted bytes.length
      ∧ u.rx.bytes = BitVec.ofNat 32 ((parseFrame bytes).counted bytes.length)
      ∧ u.rx.pos = 0#32 ∧ u.rx.eos = true
      ∧ u.rx.dsCnt = s.rx.dsCnt ∧ u.rx.dsShift = s.rx.dsShift

/-- No payload before acceptance: in a command that parses, a step of `RX` pushes to `RXD` nothing, or one `END`, or, only
when the header has been accepted, one byte; and at most one byte of payload a step. -/
def Obligations.NoPayloadBeforeTheHeaderIsAccepted : Prop :=
  ∀ (num : Numerics Sample) (s : State), s.rx.op.usesParser = true →
    (rxStep num s).rxd = s.rxd
    ∨ (rxStep num s).rxd = s.rxd ++ [.fin]
    ∨ (s.hp.state = .payload ∧ ∃ b, (rxStep num s).rxd = s.rxd ++ [.data b])

/-- `HDR_LEN` and `METHOD` change only while a command that parses is running, or when one is accepted, or by a reset: every
other step of any agent keeps them. That the reset input is a line of the host is the model's choice (log entry 23). -/
def Obligations.HeaderResultsChangeOnlyByParsing : Prop :=
  ∀ s t : State, step s = .next t → s.rx.op.usesParser = false →
    (t.hp.hdrLen = s.hp.hdrLen ∧ t.hp.method = s.hp.method)
    ∨ ∃ h, s.HostNext h
      ∧ ((h = .write 0x04 0x0000000B#32 ∨ h = .write 0x04 0x0000000C#32) ∧ t.hp.hdrLen = 0#32 ∧ t.hp.method = none
          ∧ t.rx.op.usesParser = true
        ∨ (h = .write 0x04 0x0000000F#32 ∨ h = .resetInput) ∧ t.hp.hdrLen = 0#32 ∧ t.hp.method = none)

/-! ### The functions of the source -/

/-- R9: `rnd` of a quotient is the nearest integer and, when two are equally near, the even one; of a rational it is the same
whatever fraction names it. -/
def Obligations.RndIsNearestTiesToEven : Prop :=
  (∀ p q : Nat, 0 < q →
    2 * (rndDiv p q * q) ≤ 2 * p + q ∧ 2 * p ≤ 2 * (rndDiv p q * q) + q
    ∧ (2 * (rndDiv p q * q) = 2 * p + q ∨ 2 * p = 2 * (rndDiv p q * q) + q → rndDiv p q % 2 = 0))
  ∧ (∀ p q : Nat, 0 < q → rnd ((p : Rat) / (q : Rat)) = rndDiv p q)
  ∧ rnd (5 / 2) = 2 ∧ rnd (7 / 2) = 4 ∧ rnd (12 / 5) = 2 ∧ rnd (24 / 5) = 5

/-- R28: the three sample counts are the rounded exact products of the rate and the durations, the registers show them saturated,
they are ordered, the slot differs from its parts by at most one sample and sometimes does, and only a configuration that
R31 rejects has a count that 32 bits cannot hold. -/
def Obligations.SampleCountsOfTheConfiguration : Prop :=
  (∀ c : Cfg,
    c.nTone = rnd ((c.sampleRate.toNat : Rat) * (c.bitDur.toNat : Rat) / 10 ^ 9)
    ∧ c.nSil = rnd ((c.sampleRate.toNat : Rat) * (c.silDur.toNat : Rat) / 10 ^ 9)
    ∧ c.nSlot = rnd ((c.sampleRate.toNat : Rat) * ((c.bitDur.toNat : Rat) + (c.silDur.toNat : Rat)) / 10 ^ 9)
    ∧ c.nTone ≤ c.nSlot ∧ c.nSil ≤ c.nSlot
    ∧ c.nSlot ≤ c.nTone + c.nSil + 1 ∧ c.nTone + c.nSil ≤ c.nSlot + 1
    ∧ (2 ^ 32 ≤ c.nTone ∨ 2 ^ 32 ≤ c.nSil ∨ 2 ^ 32 ≤ c.nSlot → cfgchk c ≠ 0#32))
  ∧ (∃ c : Cfg, cfgchk c = 0#32 ∧ c.nSlot = c.nTone + c.nSil + 1)
  ∧ (∃ c : Cfg, cfgchk c = 0#32 ∧ c.nTone + c.nSil = c.nSlot + 1)
  ∧ ∀ s : State,
    (s.readReg .nTone).toNat = min s.cfg.nTone (2 ^ 32 - 1)
    ∧ (s.readReg .nSil).toNat = min s.cfg.nSil (2 ^ 32 - 1)
    ∧ (s.readReg .nSlot).toNat = min s.cfg.nSlot (2 ^ 32 - 1)

/-- R29: `kbin` is the least bin on the axis that minimises the distance, it is the closed formula the rule gives, it is 0 for
an empty tone or a zero rate, and `K_HIGH` and `K_LOW` are the bins of the live frequencies (shown exactly where 32 bits
hold them). -/
def Obligations.BinsAreTheLeastNearest : Prop :=
  (∀ f n sr : Nat, 0 < n → 0 < sr →
    kbin f n sr ≤ n / 2
    ∧ (∀ k, k ≤ n / 2 → binDistance f n sr (kbin f n sr) ≤ binDistance f n sr k)
    ∧ (∀ k, k < kbin f n sr → binDistance f n sr (kbin f n sr) < binDistance f n sr k))
  ∧ (∀ f n sr : Nat, 0 < n → 0 < sr →
    (kbin f n sr : Int) = min ((n / 2 : Nat) : Int) (max 0 ⌈(f : Rat) * (n : Rat) / (sr : Rat) - 1 / 2⌉))
  ∧ (∀ f n sr : Nat, n = 0 ∨ sr = 0 → kbin f n sr = 0)
  ∧ (∀ s : State, kbin s.cfg.freqHigh.toNat s.cfg.nTone s.cfg.sampleRate.toNat < 2 ^ 32 →
      (s.readReg .kHigh).toNat = kbin s.cfg.freqHigh.toNat s.cfg.nTone s.cfg.sampleRate.toNat)
  ∧ (∀ s : State, kbin s.cfg.freqLow.toNat s.cfg.nTone s.cfg.sampleRate.toNat < 2 ^ 32 →
      (s.readReg .kLow).toNat = kbin s.cfg.freqLow.toNat s.cfg.nTone s.cfg.sampleRate.toNat)

/-- R120: the sample count of a segment, none for a duration that is not positive; tone and silence have that many samples; of
the two durations of a configuration it is `n_tone` and `n_sil`; a duration register cannot express a negative duration,
and a zero one is rejected at issue. -/
def Obligations.SegmentCounts : Prop :=
  (∀ (sr : Nat) (d : Rat), 0 < d → segCount sr d = rnd ((sr : Rat) * d))
  ∧ (∀ (sr : Nat) (d : Rat), d ≤ 0 → segCount sr d = 0)
  ∧ (∀ (S : Type) (num : Numerics S) (f sr : Nat) (d : Rat),
      (tone num f d sr).length = segCount sr d ∧ (silence num d sr).length = segCount sr d)
  ∧ (∀ c : Cfg, segCount c.sampleRate.toNat (seconds c.bitDur) = c.nTone
      ∧ segCount c.sampleRate.toNat (seconds c.silDur) = c.nSil)
  ∧ (∀ w : Word, 0 ≤ seconds w)
  ∧ ∀ (i : Instr) (s : State), i.usesCfg = true → s.err = .noError →
      s.classBusy i.commandClass = false → s.cfg.bitDur = 0#32 ∨ s.cfg.silDur = 0#32 →
      exec i s = .next { s with err := .cfgInvalid, errInfo := cfgchk s.cfg }

/-- R130: bit `8·i + j` of a byte sequence is bit `7 - j` of byte `i`; the result has length `8n`. -/
def Obligations.BytesToBitsIsMostSignificantFirst : Prop :=
  (∀ data : List Byte, (bytesToBits data).length = 8 * data.length)
  ∧ (∀ (data : List Byte) (i j : Nat) (b : Byte), data[i]? = some b → j < 8 →
      (bytesToBits data)[8 * i + j]? = some ((b >>> (7 - j)).getLsbD 0))
  ∧ bytesToBits [] = []

/-- R131: byte `i` of a bit sequence is the weighted sum of its bits `8·i` to `8·i + 7`, first bit heaviest; there are
`floor(m/8)` bytes, and the bits after the last whole group have no effect. -/
def Obligations.BitsToBytesPacksWholeGroups : Prop :=
  (∀ bits : List Bool, (bitsToBytes bits).length = bits.length / 8)
  ∧ (∀ (bits : List Bool) (i : Nat) (b : Byte), (bitsToBytes bits)[i]? = some b →
      b.toNat = ∑ j ∈ Finset.range 8, (bits.getD (8 * i + j) false).toNat * 2 ^ (7 - j))
  ∧ (∀ bits : List Bool, bitsToBytes (bits.take (8 * (bits.length / 8))) = bitsToBytes bits)
  ∧ bitsToBytes [] = []

/-- R133: packing undoes unpacking, an unpacked sequence has a whole number of groups, and 12 bits give exactly 1 byte. -/
def Obligations.BitCodecRoundTrip : Prop :=
  (∀ data : List Byte, bitsToBytes (bytesToBits data) = data)
  ∧ (∀ data : List Byte, (bytesToBits data).length % 8 = 0)
  ∧ ∀ bits : List Bool, bits.length = 12 → (bitsToBytes bits).length = 1

/-- Every modulated buffer has `n_tone + n_sil` samples a bit, an empty bit sequence gives an empty buffer, and every tone
segment starts at phase 0 whatever was sent before. Rules the spec derives. -/
def Obligations.ModulatedBufferShape : Prop :=
  (∀ (S : Type) (num : Numerics S) (c : Cfg) (bits : List Bool),
    (modulate num c bits).length = bits.length * (c.nTone + c.nSil))
  ∧ (∀ (S : Type) (num : Numerics S) (c : Cfg), modulate num c [] = [])
  ∧ ∀ (S : Type) (num : Numerics S) (f : Nat) (d : Rat) (sr : Nat), 0 < segCount sr d →
    (tone num f d sr).head? = some (num.sinS 0)

/-- R157: the samples after the last whole slot have no effect, even when they hold a whole tone region, and a buffer
shorter than one slot demodulates to nothing. -/
def Obligations.TrailingSamplesAreDropped : Prop :=
  ∀ (S : Type) (num : Numerics S) (c : Cfg) (samples : List S), 0 < c.nSlot →
    demodulate num (RxCfg.of c) (samples.take (samples.length / c.nSlot * c.nSlot))
      = demodulate num (RxCfg.of c) samples
    ∧ (demodulate num (RxCfg.of c) samples).length = samples.length / c.nSlot
    ∧ (samples.length < c.nSlot → demodulate num (RxCfg.of c) samples = [])

/-- R110: the automaton accepts exactly the concatenations of sequences of the table. -/
def Obligations.Utf8CheckerMatchesTheTable : Prop :=
  ∀ bytes : List Byte, utf8Ok bytes = true ↔ Utf8WellFormed bytes

/-- R175: the header of a method is the big-endian length of its name and the name: the four headers, byte for byte, and
their lengths. -/
def Obligations.HeaderBytes : Prop :=
  (∀ t : Method, header t = be32 (BitVec.ofNat 32 t.name.length) ++ t.name)
  ∧ (∀ v : Word, be32 v = [((v >>> 24) &&& 0xFF#32).setWidth 8, ((v >>> 16) &&& 0xFF#32).setWidth 8,
      ((v >>> 8) &&& 0xFF#32).setWidth 8, (v &&& 0xFF#32).setWidth 8])
  ∧ header .gzip = [0x00#8, 0x00#8, 0x00#8, 0x04#8, 0x67#8, 0x7A#8, 0x69#8, 0x70#8]
  ∧ header .lzma = [0x00#8, 0x00#8, 0x00#8, 0x04#8, 0x6C#8, 0x7A#8, 0x6D#8, 0x61#8]
  ∧ header .bz2 = [0x00#8, 0x00#8, 0x00#8, 0x03#8, 0x62#8, 0x7A#8, 0x32#8]
  ∧ header .zlib = [0x00#8, 0x00#8, 0x00#8, 0x04#8, 0x7A#8, 0x6C#8, 0x69#8, 0x62#8]
  ∧ (header .gzip).length = 8 ∧ (header .lzma).length = 8 ∧ (header .zlib).length = 8 ∧ (header .bz2).length = 7

/-- The frame round trip: parsing the header of a tag and any payload gives the tag and the payload. A derived rule of the
spec. -/
def Obligations.FrameRoundTrip : Prop :=
  ∀ (t : Method) (payload : List Byte), parseFrame (header t ++ payload) = .ok t payload

/-! ### Registers and streams -/

/-- The places of the fields of `STATUS`, the codes of `HPSTATE`, and that its other bits read 0. -/
def Obligations.StatusFields : Prop :=
  ∀ s : State, s.rx.dsCnt ≤ 7 →
    (s.readReg .status).getLsbD 0 = s.tx.busy
    ∧ (s.readReg .status).getLsbD 1 = s.rx.busy
    ∧ (s.readReg .status).getLsbD 2 = s.tx.done
    ∧ (s.readReg .status).getLsbD 3 = s.rx.done
    ∧ ((s.readReg .status).getLsbD 4 = true ↔ s.err ≠ .noError)
    ∧ (s.readReg .status).getLsbD 5 = s.rx.eos
    ∧ (s.readReg .status).extractLsb' 6 2 = 0#2
    ∧ (s.readReg .status).extractLsb' 8 3 =
        (match s.hp.state with
          | .off => 0#3
          | .len => 1#3
          | .name => 2#3
          | .payload => 3#3
          | .fail => 4#3)
    ∧ (s.readReg .status).extractLsb' 11 5 = 0#5
    ∧ ((s.readReg .status).extractLsb' 16 4).toNat = s.rx.dsCnt
    ∧ (s.readReg .status).extractLsb' 20 12 = 0#12

/-- R31: `CFGCHK` is computed from the live configuration, each bit 1 exactly when its check fails, the bits above 0. The same
of the bits of `CFGWARN` and its advisory conditions. -/
def Obligations.ConfigurationChecksReadTheLiveConfiguration : Prop :=
  ∀ s : State,
    ((s.readReg .cfgchk).getLsbD 0 = true ↔ s.cfg.sampleRate = 0#32)
    ∧ ((s.readReg .cfgchk).getLsbD 1 = true ↔ s.cfg.freqHigh = 0#32)
    ∧ ((s.readReg .cfgchk).getLsbD 2 = true ↔ s.cfg.freqLow = 0#32)
    ∧ ((s.readReg .cfgchk).getLsbD 3 = true ↔ s.cfg.freqHigh = s.cfg.freqLow)
    ∧ ((s.readReg .cfgchk).getLsbD 4 = true ↔ s.cfg.bitDur = 0#32)
    ∧ ((s.readReg .cfgchk).getLsbD 5 = true ↔ s.cfg.silDur = 0#32)
    ∧ ((s.readReg .cfgchk).getLsbD 6 = true ↔ s.cfg.nTone = 0)
    ∧ ((s.readReg .cfgchk).getLsbD 7 = true ↔ 2 ^ 32 ≤ s.cfg.nSlot)
    ∧ (s.readReg .cfgchk).extractLsb' 8 24 = 0#24
    ∧ ((s.readReg .cfgwarn).getLsbD 0 = true ↔ freqGap s.cfg * s.cfg.bitDur.toNat < 10 ^ 9)
    ∧ ((s.readReg .cfgwarn).getLsbD 1 = true ↔ s.cfg.nSlot ≠ s.cfg.nTone + s.cfg.nSil)
    ∧ ((s.readReg .cfgwarn).getLsbD 2 = true ↔
        (s.cfg.sampleRate.toNat ≤ 2 * s.cfg.freqHigh.toNat
          ∨ s.cfg.sampleRate.toNat ≤ 2 * s.cfg.freqLow.toNat))
    ∧ ((s.readReg .cfgwarn).getLsbD 3 = true ↔ s.cfg.kHigh = s.cfg.kLow)
    ∧ (s.readReg .cfgwarn).extractLsb' 4 28 = 0#28

/-- R204: a read at a mapped offset answers the register's value and changes nothing, at each of the 23 offsets: `ID`, 0 for
`CMD`, the stored value of a register with storage, the value computed from the live configuration for a derived one; with
the codes of `ERR.CAUSE` and the layout of `METHOD`. The fields of `STATUS`, `CFGCHK` and `CFGWARN` have statements of their
own. A bin that 32 bits cannot hold reads as an open value (log entry 10). -/
def Obligations.ReadsHaveNoSideEffect : Prop :=
  ∀ s : State,
    s.Answers 0x00 0x54324131#32
    ∧ s.Answers 0x04 0#32
    ∧ s.Answers 0x08 (s.readReg .status)
    ∧ s.Answers 0x0C
        (match s.err with
          | .noError => 0#32
          | .frameTooShort => 1#32
          | .invalidMethodName => 2#32
          | .unsupportedMethod => 3#32
          | .decompressionFailed => 4#32
          | .cfgInvalid => 5#32
          | .illegalCmd => 6#32
          | .cmdBusy => 7#32)
    ∧ s.Answers 0x10 s.errInfo
    ∧ s.Answers 0x14 s.cfg.sampleRate
    ∧ s.Answers 0x18 s.cfg.freqHigh
    ∧ s.Answers 0x1C s.cfg.freqLow
    ∧ s.Answers 0x20 s.cfg.bitDur
    ∧ s.Answers 0x24 s.cfg.silDur
    ∧ s.Answers 0x28 (0#16 ++ s.endMarker ++ s.startMarker)
    ∧ s.Answers 0x2C (BitVec.ofNat 32 (min s.cfg.nTone (2 ^ 32 - 1)))
    ∧ s.Answers 0x30 (BitVec.ofNat 32 (min s.cfg.nSil (2 ^ 32 - 1)))
    ∧ s.Answers 0x34 (BitVec.ofNat 32 (min s.cfg.nSlot (2 ^ 32 - 1)))
    ∧ (∃ v, s.Answers 0x38 v ∧ (s.cfg.kHigh < 2 ^ 32 → v.toNat = s.cfg.kHigh))
    ∧ (∃ v, s.Answers 0x3C v ∧ (s.cfg.kLow < 2 ^ 32 → v.toNat = s.cfg.kLow))
    ∧ s.Answers 0x40 (s.readReg .cfgchk)
    ∧ s.Answers 0x44 (s.readReg .cfgwarn)
    ∧ s.Answers 0x48 s.hp.hdrLen
    ∧ s.Answers 0x4C
        (match s.hp.method with
          | none => 0#32
          | some .gzip => 0x00000100#32
          | some .lzma => 0x00000101#32
          | some .bz2 => 0x00000102#32
          | some .zlib => 0x00000103#32)
    ∧ s.Answers 0x50 s.tx.pos
    ∧ s.Answers 0x54 s.rx.pos
    ∧ s.Answers 0x58 s.rx.bytes

/-- R205: a write of a read-write register stores the value, of `MARKERS` its low 16 bits, also while engines are busy and
while an error is pending; a write of a read-only register changes nothing; a write to `CMD` issues the word. R207: a read
at a reserved offset answers 0, a write there changes nothing, neither raises an error. -/
def Obligations.WritesStoreOrAreIgnored : Prop :=
  ∀ (s : State) (v : Word),
    hostWrite 0x14 v s = .next { s with cfg := { s.cfg with sampleRate := v } }
    ∧ hostWrite 0x18 v s = .next { s with cfg := { s.cfg with freqHigh := v } }
    ∧ hostWrite 0x1C v s = .next { s with cfg := { s.cfg with freqLow := v } }
    ∧ hostWrite 0x20 v s = .next { s with cfg := { s.cfg with bitDur := v } }
    ∧ hostWrite 0x24 v s = .next { s with cfg := { s.cfg with silDur := v } }
    ∧ (∃ t, hostWrite 0x28 v s = .next t
        ∧ t = { s with startMarker := t.startMarker, endMarker := t.endMarker }
        ∧ t.readReg .markers = v &&& 0x0000FFFF#32)
    ∧ hostWrite 0x04 v s = issue v s
    ∧ (∀ offset, offset < 0x5C → offset % 4 = 0 →
        offset ∉ [0x04, 0x14, 0x18, 0x1C, 0x20, 0x24, 0x28] → hostWrite offset v s = .next s)
    ∧ ∀ offset, 0x5C ≤ offset → offset < 0x100 → offset % 4 = 0 →
        hostWrite offset v s = .next s
        ∧ hostRead offset s = .next { s with replies := s.replies ++ [.word 0#32] }

/-- Accesses with no defined behaviour stop by name: an offset that is not a multiple of 4 inside the window, and an offset
outside the window. -/
def Obligations.UndefinedAccessesStop : Prop :=
  ∀ (s : State) (v : Word) (offset : Nat),
    (offset < 0x100 → offset % 4 ≠ 0 →
      hostRead offset s = .refused (.misaligned offset)
      ∧ hostWrite offset v s = .refused (.misaligned offset))
    ∧ (0x100 ≤ offset →
      hostRead offset s = .refused (.outsideWindow offset)
      ∧ hostWrite offset v s = .refused (.outsideWindow offset))

/-- The host's stream steps: a push appends, a pop removes the oldest item and answers it, a pop of an empty stream waits,
`Head` answers without removing; none depends on `BUSY` or on `ERR`, and nothing else changes. The script lines: `wait` reads
`STATUS` and stays while its engine is busy, `popall` pops an item and stays unless the item is `END` or there is none (that
a line which cannot end yet stays at the head of the script is the model's, log entries 4 and 16). -/
def Obligations.StreamsAreFirstInFirstOut : Prop :=
  ∀ (held s : State) (x : Item Byte) (a : Item Sample),
    hostTurn (fun _ => none) (.pushTxd x) held s = .next { s with txd := s.txd ++ [x] }
    ∧ hostTurn (fun _ => none) (.pushRxs a) held s = .next { s with rxs := s.rxs ++ [a] }
    ∧ hostTurn (fun _ => none) (.pushRxb x) held s = .next { s with rxb := s.rxb ++ [x] }
    ∧ (∀ rest, s.txs = a :: rest → hostTurn (fun _ => none) .popTxs held s
        = .next { s with txs := rest, replies := s.replies ++ [.sample a] })
    ∧ (∀ rest, s.rxd = x :: rest → hostTurn (fun _ => none) .popRxd held s
        = .next { s with rxd := rest, replies := s.replies ++ [.byte x] })
    ∧ (s.txs = [] → hostTurn (fun _ => none) .popTxs held s = .next held)
    ∧ (s.rxd = [] → hostTurn (fun _ => none) .popRxd held s = .next held)
    ∧ hostTurn (fun _ => none) .headTxs held s
        = .next { s with replies := s.replies ++ [match s.txs with | [] => .empty | y :: _ => .sample y] }
    ∧ hostTurn (fun _ => none) .headRxd held s
        = .next { s with replies := s.replies ++ [match s.rxd with | [] => .empty | y :: _ => .byte y] }
    ∧ hostTurn (fun _ => none) .waitTx held s
        = .next { s with
            replies := s.replies ++ [.word (s.readReg .status)]
            host := if s.tx.busy then .waitTx :: s.host else s.host }
    ∧ hostTurn (fun _ => none) .waitRx held s
        = .next { s with
            replies := s.replies ++ [.word (s.readReg .status)]
            host := if s.rx.busy then .waitRx :: s.host else s.host }
    ∧ (∀ rest, s.txs = a :: rest →
        hostTurn (fun _ => none) .popAllTxs { s with host := .popAllTxs :: s.host } s
          = .next { s with
              txs := rest
              replies := s.replies ++ [.sample a]
              host := if a = .fin then s.host else .popAllTxs :: s.host })
    ∧ (∀ rest, s.rxd = x :: rest →
        hostTurn (fun _ => none) .popAllRxd { s with host := .popAllRxd :: s.host } s
          = .next { s with
              rxd := rest
              replies := s.replies ++ [.byte x]
              host := if x = .fin then s.host else .popAllRxd :: s.host })
    ∧ (s.txs = [] → hostTurn (fun _ => none) .popAllTxs held s = .next held)
    ∧ (s.rxd = [] → hostTurn (fun _ => none) .popAllRxd held s = .next held)

/-- A finite stream depth adds holds and nothing else. A turn of an engine is the step of the unbounded machine, or, exactly
when that step would push to a full output stream, it changes nothing; no output stream grows past its depth. A push of the
host to a full stream is no step, its line waits; any other push appends. With no depth nothing is ever held. That a held
step is withheld whole, its pop included, is the model's reading (log entry 11), of `hold` in 00_scope.md section 5: the agent
has no step now; that the host's line waits at the head of the script is the model's too (log entry 4). -/
def Obligations.FiniteDepthOnlyAddsHolds : Prop :=
  (∀ (p : Params) (s : State),
    agentTurn p .tx s = .next (txTurn p s) ∧ agentTurn p .rx s = .next (rxTurn p s)
    ∧ (txTurn p s = txStep p.num s
      ∨ (txTurn p s = s ∧ s.txs.length < (txStep p.num s).txs.length
        ∧ ∃ n, p.depth .txs = some n ∧ n ≤ s.txs.length))
    ∧ (rxTurn p s = rxStep p.num s
      ∨ (rxTurn p s = s ∧ s.rxd.length < (rxStep p.num s).rxd.length
        ∧ ∃ n, p.depth .rxd = some n ∧ n ≤ s.rxd.length))
    ∧ (∀ n, p.depth .txs = some n → n ≤ s.txs.length →
        s.txs.length < (txStep p.num s).txs.length → txTurn p s = s)
    ∧ (∀ n, p.depth .rxd = some n → n ≤ s.rxd.length →
        s.rxd.length < (rxStep p.num s).rxd.length → rxTurn p s = s)
    ∧ (∀ n, p.depth .txs = some n → (txTurn p s).txs.length ≤ max n s.txs.length)
    ∧ (∀ n, p.depth .rxd = some n → (rxTurn p s).rxd.length ≤ max n s.rxd.length))
  ∧ ∀ (depth : StreamName → Option Nat) (held s : State) (x : Item Byte) (a : Item Sample),
    (∀ n, depth .txd = some n → n ≤ s.txd.length → hostTurn depth (.pushTxd x) held s = .next held)
    ∧ (∀ n, depth .rxs = some n → n ≤ s.rxs.length → hostTurn depth (.pushRxs a) held s = .next held)
    ∧ (∀ n, depth .rxb = some n → n ≤ s.rxb.length → hostTurn depth (.pushRxb x) held s = .next held)
    ∧ ((∀ n, depth .txd = some n → s.txd.length < n) →
        hostTurn depth (.pushTxd x) held s = .next { s with txd := s.txd ++ [x] })
    ∧ ((∀ n, depth .rxs = some n → s.rxs.length < n) →
        hostTurn depth (.pushRxs a) held s = .next { s with rxs := s.rxs ++ [a] })
    ∧ ((∀ n, depth .rxb = some n → s.rxb.length < n) →
        hostTurn depth (.pushRxb x) held s = .next { s with rxb := s.rxb ++ [x] })

/-! ### Isolation -/

/-- A step of `TX` writes only what is `TX`'s, pops at most one item of `TXD` and pushes at most one to `TXS`, and raises
nothing; a step of `RX` writes only what is `RX`'s, pops at most one item of `RXS` or `RXB` and pushes at most one to `RXD`. -/
def Obligations.EnginesTouchOnlyTheirOwn : Prop :=
  ∀ (num : Numerics Sample) (s : State),
    TxFrame s (txStep num s) ∧ RxFrame s (rxStep num s)
    ∧ ((txStep num s).txd = s.txd ∨ (txStep num s).txd = s.txd.tail)
    ∧ (∃ pushed : List (Item Sample), pushed.length ≤ 1 ∧ (txStep num s).txs = s.txs ++ pushed)
    ∧ ((rxStep num s).rxs = s.rxs ∨ (rxStep num s).rxs = s.rxs.tail)
    ∧ ((rxStep num s).rxb = s.rxb ∨ (rxStep num s).rxb = s.rxb.tail)
    ∧ (∃ pushed : List (Item Byte), pushed.length ≤ 1 ∧ (rxStep num s).rxd = s.rxd ++ pushed)

/-- The engines do not interfere: a step of `TX` and a step of `RX` give the same state in either order. -/
def Obligations.EngineStepsCommute : Prop :=
  ∀ (num : Numerics Sample) (s : State), txStep num (rxStep num s) = rxStep num (txStep num s)

/-- A write of any register but `CMD` and a step of either engine give the same state in either order: a running command
works on its snapshot, and the markers are read by no engine. Nor does any command but `RESET` read or change the
markers. -/
def Obligations.ConfigurationWritesDoNotReachRunningCommands : Prop :=
  (∀ (num : Numerics Sample) (s : State) (v : Word) (r : Reg), r ≠ .cmd →
    txStep num (s.writeReg v r) = (txStep num s).writeReg v r
    ∧ rxStep num (s.writeReg v r) = (rxStep num s).writeReg v r)
  ∧ ∀ (i : Instr) (s : State) (a b : Byte), i ≠ .reset →
    ∃ t, exec i s = .next t ∧ exec i (s.withMarkers a b) = .next (t.withMarkers a b)
      ∧ t.startMarker = s.startMarker ∧ t.endMarker = s.endMarker

/-! ### Invariants -/

/-- The invariant holds after reset. -/
def Obligations.ResetMeetsTheInvariant : Prop :=
  State.reset.Inv

/-- Every step of every agent keeps the invariant: busy bits and operations agree, sequencer positions stay inside their
segments, running commands have a snapshot of a valid configuration, the parser's fields agree with its state, `RXBYTES` is
the low half of the exact count, and code 4 is never raised. -/
def Obligations.StepKeepsTheInvariant : Prop :=
  ∀ s t : State, s.Inv → step s = .next t → t.Inv

/-- In a state of the invariant the sample indices of running commands are below `2^32`: 32-bit registers hold them and never
wrap. -/
def Obligations.SampleIndicesNeverWrap : Prop :=
  ∀ s : State, s.Inv →
    (s.tx.op.usesCfg = true → s.tx.k < 2 ^ 32) ∧ (s.rx.op.usesCfg = true → s.rx.k < 2 ^ 32)

/-! ### The arithmetic of samples -/

/-- A region of samples of value zero, and any region when the two bins are equal, gives bit 0, on the machine's own arithmetic
and on every lawful one over any type of samples. The rule is derived in the spec. -/
def Obligations.SilenceIsClassifiedZero : Prop :=
  (∀ (c : RxCfg) (region : List Sample),
    (∀ a ∈ region, openNumerics.sval a = 0) ∨ c.kHigh = c.kLow → c.classify openNumerics region = false)
  ∧ ∀ (S : Type) (num : Numerics S) (c : RxCfg) (region : List S),
    num.Lawful → (∀ a ∈ region, num.sval a = 0) ∨ c.kHigh = c.kLow → c.classify num region = false

/-- Under ideal arithmetic, multiplying every sample of a region by the same non-zero real leaves the bit unchanged. -/
def Obligations.ScalingLeavesTheBit : Prop :=
  ∀ (S : Type) (num : Numerics S) (c : RxCfg) (x y : List S) (g : ℝ),
    num.Ideal → g ≠ 0 → y.map num.sval = x.map (fun a => g * num.sval a) →
    c.classify num y = c.classify num x

/-- Under a lawful arithmetic every generated sample lies within `1 + EPS_SIN`. The rule is derived in the spec. -/
def Obligations.GeneratedSamplesAreInRange : Prop :=
  ∀ (S : Type) (num : Numerics S) (c : Cfg) (bits : List Bool),
    num.Lawful → ∀ a ∈ modulate num c bits, |num.sval a| ≤ 1 + num.epsSin

/-- Under ideal arithmetic and the sufficient condition of 44_demodulator.md section 1, demodulating what was modulated
gives back every bit sequence, and the raw path every byte sequence. The rule is derived in the spec. -/
def Obligations.IdealRoundTrip : Prop :=
  ∀ (S : Type) (num : Numerics S) (c : Cfg), num.Ideal → cfgchk c = 0#32 → RoundTrips c →
    (∀ bits : List Bool, demodulate num (RxCfg.of c) (modulate num c bits) = bits)
    ∧ ∀ data : List Byte,
      bitsToBytes (demodulate num (RxCfg.of c) (modulate num c (bytesToBits data))) = data
end

