-- ==== Sys2Proof/Laws/Encoding.lean ====
section
/-! SUPPORT. The fields of a command word built from its fields (R100). -/

namespace Sys2Proof

/-- The number a command word is: `OP + (A << 8)` (R106). -/
theorem commandWord_toNat (op a : Byte) : (commandWord op a).toNat = a.toNat * 256 + op.toNat := by
  simp only [commandWord, BitVec.toNat_append]
  rw [Nat.shiftLeft_eq, Nat.shiftLeft_eq]
  simp
  rw [← Nat.shiftLeft_eq _ 8, Nat.shiftLeft_add_eq_or_of_lt op.isLt]

/-- Each field of a command word is the field it was built from (R100). -/
theorem commandWord_fields (op a : Byte) :
    (commandWord op a).extractLsb' 0 8 = op
      ∧ (commandWord op a).extractLsb' 8 8 = a
      ∧ (commandWord op a).extractLsb' 16 16 = 0#16 := by
  have h := op.isLt
  have h' := a.isLt
  refine ⟨?_, ?_, ?_⟩ <;> apply BitVec.eq_of_toNat_eq <;> simp [commandWord_toNat] <;> omega

end Sys2Proof
end

