-- ==== Sys2Proof/Laws/State.lean ====
section
/-! SUPPORT. What each update of the state leaves in each field: one lemma a field and update, true by rfl, for simp. -/

namespace Sys2Proof.Machine


/-! ### State.pushTxd -/

@[simp] theorem State.pushTxd_cfg (x : Item Byte) (s : State) : (s.pushTxd x).cfg = s.cfg := rfl
@[simp] theorem State.pushTxd_startMarker (x : Item Byte) (s : State) : (s.pushTxd x).startMarker = s.startMarker := rfl
@[simp] theorem State.pushTxd_endMarker (x : Item Byte) (s : State) : (s.pushTxd x).endMarker = s.endMarker := rfl
@[simp] theorem State.pushTxd_err (x : Item Byte) (s : State) : (s.pushTxd x).err = s.err := rfl
@[simp] theorem State.pushTxd_errInfo (x : Item Byte) (s : State) : (s.pushTxd x).errInfo = s.errInfo := rfl
@[simp] theorem State.pushTxd_tx (x : Item Byte) (s : State) : (s.pushTxd x).tx = s.tx := rfl
@[simp] theorem State.pushTxd_rx (x : Item Byte) (s : State) : (s.pushTxd x).rx = s.rx := rfl
@[simp] theorem State.pushTxd_hp (x : Item Byte) (s : State) : (s.pushTxd x).hp = s.hp := rfl
@[simp] theorem State.pushTxd_txd (x : Item Byte) (s : State) : (s.pushTxd x).txd = s.txd ++ [x] := rfl
@[simp] theorem State.pushTxd_txs (x : Item Byte) (s : State) : (s.pushTxd x).txs = s.txs := rfl
@[simp] theorem State.pushTxd_rxs (x : Item Byte) (s : State) : (s.pushTxd x).rxs = s.rxs := rfl
@[simp] theorem State.pushTxd_rxd (x : Item Byte) (s : State) : (s.pushTxd x).rxd = s.rxd := rfl
@[simp] theorem State.pushTxd_rxb (x : Item Byte) (s : State) : (s.pushTxd x).rxb = s.rxb := rfl
@[simp] theorem State.pushTxd_host (x : Item Byte) (s : State) : (s.pushTxd x).host = s.host := rfl
@[simp] theorem State.pushTxd_replies (x : Item Byte) (s : State) : (s.pushTxd x).replies = s.replies := rfl
@[simp] theorem State.pushTxd_turns (x : Item Byte) (s : State) : (s.pushTxd x).turns = s.turns := rfl
@[simp] theorem State.pushTxd_drawn (x : Item Byte) (s : State) : (s.pushTxd x).drawn = s.drawn := rfl

/-! ### State.pushTxs -/

@[simp] theorem State.pushTxs_cfg (x : Item Sample) (s : State) : (s.pushTxs x).cfg = s.cfg := rfl
@[simp] theorem State.pushTxs_startMarker (x : Item Sample) (s : State) : (s.pushTxs x).startMarker = s.startMarker := rfl
@[simp] theorem State.pushTxs_endMarker (x : Item Sample) (s : State) : (s.pushTxs x).endMarker = s.endMarker := rfl
@[simp] theorem State.pushTxs_err (x : Item Sample) (s : State) : (s.pushTxs x).err = s.err := rfl
@[simp] theorem State.pushTxs_errInfo (x : Item Sample) (s : State) : (s.pushTxs x).errInfo = s.errInfo := rfl
@[simp] theorem State.pushTxs_tx (x : Item Sample) (s : State) : (s.pushTxs x).tx = s.tx := rfl
@[simp] theorem State.pushTxs_rx (x : Item Sample) (s : State) : (s.pushTxs x).rx = s.rx := rfl
@[simp] theorem State.pushTxs_hp (x : Item Sample) (s : State) : (s.pushTxs x).hp = s.hp := rfl
@[simp] theorem State.pushTxs_txd (x : Item Sample) (s : State) : (s.pushTxs x).txd = s.txd := rfl
@[simp] theorem State.pushTxs_txs (x : Item Sample) (s : State) : (s.pushTxs x).txs = s.txs ++ [x] := rfl
@[simp] theorem State.pushTxs_rxs (x : Item Sample) (s : State) : (s.pushTxs x).rxs = s.rxs := rfl
@[simp] theorem State.pushTxs_rxd (x : Item Sample) (s : State) : (s.pushTxs x).rxd = s.rxd := rfl
@[simp] theorem State.pushTxs_rxb (x : Item Sample) (s : State) : (s.pushTxs x).rxb = s.rxb := rfl
@[simp] theorem State.pushTxs_host (x : Item Sample) (s : State) : (s.pushTxs x).host = s.host := rfl
@[simp] theorem State.pushTxs_replies (x : Item Sample) (s : State) : (s.pushTxs x).replies = s.replies := rfl
@[simp] theorem State.pushTxs_turns (x : Item Sample) (s : State) : (s.pushTxs x).turns = s.turns := rfl
@[simp] theorem State.pushTxs_drawn (x : Item Sample) (s : State) : (s.pushTxs x).drawn = s.drawn := rfl

/-! ### State.pushRxs -/

@[simp] theorem State.pushRxs_cfg (x : Item Sample) (s : State) : (s.pushRxs x).cfg = s.cfg := rfl
@[simp] theorem State.pushRxs_startMarker (x : Item Sample) (s : State) : (s.pushRxs x).startMarker = s.startMarker := rfl
@[simp] theorem State.pushRxs_endMarker (x : Item Sample) (s : State) : (s.pushRxs x).endMarker = s.endMarker := rfl
@[simp] theorem State.pushRxs_err (x : Item Sample) (s : State) : (s.pushRxs x).err = s.err := rfl
@[simp] theorem State.pushRxs_errInfo (x : Item Sample) (s : State) : (s.pushRxs x).errInfo = s.errInfo := rfl
@[simp] theorem State.pushRxs_tx (x : Item Sample) (s : State) : (s.pushRxs x).tx = s.tx := rfl
@[simp] theorem State.pushRxs_rx (x : Item Sample) (s : State) : (s.pushRxs x).rx = s.rx := rfl
@[simp] theorem State.pushRxs_hp (x : Item Sample) (s : State) : (s.pushRxs x).hp = s.hp := rfl
@[simp] theorem State.pushRxs_txd (x : Item Sample) (s : State) : (s.pushRxs x).txd = s.txd := rfl
@[simp] theorem State.pushRxs_txs (x : Item Sample) (s : State) : (s.pushRxs x).txs = s.txs := rfl
@[simp] theorem State.pushRxs_rxs (x : Item Sample) (s : State) : (s.pushRxs x).rxs = s.rxs ++ [x] := rfl
@[simp] theorem State.pushRxs_rxd (x : Item Sample) (s : State) : (s.pushRxs x).rxd = s.rxd := rfl
@[simp] theorem State.pushRxs_rxb (x : Item Sample) (s : State) : (s.pushRxs x).rxb = s.rxb := rfl
@[simp] theorem State.pushRxs_host (x : Item Sample) (s : State) : (s.pushRxs x).host = s.host := rfl
@[simp] theorem State.pushRxs_replies (x : Item Sample) (s : State) : (s.pushRxs x).replies = s.replies := rfl
@[simp] theorem State.pushRxs_turns (x : Item Sample) (s : State) : (s.pushRxs x).turns = s.turns := rfl
@[simp] theorem State.pushRxs_drawn (x : Item Sample) (s : State) : (s.pushRxs x).drawn = s.drawn := rfl

/-! ### State.pushRxd -/

@[simp] theorem State.pushRxd_cfg (x : Item Byte) (s : State) : (s.pushRxd x).cfg = s.cfg := rfl
@[simp] theorem State.pushRxd_startMarker (x : Item Byte) (s : State) : (s.pushRxd x).startMarker = s.startMarker := rfl
@[simp] theorem State.pushRxd_endMarker (x : Item Byte) (s : State) : (s.pushRxd x).endMarker = s.endMarker := rfl
@[simp] theorem State.pushRxd_err (x : Item Byte) (s : State) : (s.pushRxd x).err = s.err := rfl
@[simp] theorem State.pushRxd_errInfo (x : Item Byte) (s : State) : (s.pushRxd x).errInfo = s.errInfo := rfl
@[simp] theorem State.pushRxd_tx (x : Item Byte) (s : State) : (s.pushRxd x).tx = s.tx := rfl
@[simp] theorem State.pushRxd_rx (x : Item Byte) (s : State) : (s.pushRxd x).rx = s.rx := rfl
@[simp] theorem State.pushRxd_hp (x : Item Byte) (s : State) : (s.pushRxd x).hp = s.hp := rfl
@[simp] theorem State.pushRxd_txd (x : Item Byte) (s : State) : (s.pushRxd x).txd = s.txd := rfl
@[simp] theorem State.pushRxd_txs (x : Item Byte) (s : State) : (s.pushRxd x).txs = s.txs := rfl
@[simp] theorem State.pushRxd_rxs (x : Item Byte) (s : State) : (s.pushRxd x).rxs = s.rxs := rfl
@[simp] theorem State.pushRxd_rxd (x : Item Byte) (s : State) : (s.pushRxd x).rxd = s.rxd ++ [x] := rfl
@[simp] theorem State.pushRxd_rxb (x : Item Byte) (s : State) : (s.pushRxd x).rxb = s.rxb := rfl
@[simp] theorem State.pushRxd_host (x : Item Byte) (s : State) : (s.pushRxd x).host = s.host := rfl
@[simp] theorem State.pushRxd_replies (x : Item Byte) (s : State) : (s.pushRxd x).replies = s.replies := rfl
@[simp] theorem State.pushRxd_turns (x : Item Byte) (s : State) : (s.pushRxd x).turns = s.turns := rfl
@[simp] theorem State.pushRxd_drawn (x : Item Byte) (s : State) : (s.pushRxd x).drawn = s.drawn := rfl

/-! ### State.pushRxb -/

@[simp] theorem State.pushRxb_cfg (x : Item Byte) (s : State) : (s.pushRxb x).cfg = s.cfg := rfl
@[simp] theorem State.pushRxb_startMarker (x : Item Byte) (s : State) : (s.pushRxb x).startMarker = s.startMarker := rfl
@[simp] theorem State.pushRxb_endMarker (x : Item Byte) (s : State) : (s.pushRxb x).endMarker = s.endMarker := rfl
@[simp] theorem State.pushRxb_err (x : Item Byte) (s : State) : (s.pushRxb x).err = s.err := rfl
@[simp] theorem State.pushRxb_errInfo (x : Item Byte) (s : State) : (s.pushRxb x).errInfo = s.errInfo := rfl
@[simp] theorem State.pushRxb_tx (x : Item Byte) (s : State) : (s.pushRxb x).tx = s.tx := rfl
@[simp] theorem State.pushRxb_rx (x : Item Byte) (s : State) : (s.pushRxb x).rx = s.rx := rfl
@[simp] theorem State.pushRxb_hp (x : Item Byte) (s : State) : (s.pushRxb x).hp = s.hp := rfl
@[simp] theorem State.pushRxb_txd (x : Item Byte) (s : State) : (s.pushRxb x).txd = s.txd := rfl
@[simp] theorem State.pushRxb_txs (x : Item Byte) (s : State) : (s.pushRxb x).txs = s.txs := rfl
@[simp] theorem State.pushRxb_rxs (x : Item Byte) (s : State) : (s.pushRxb x).rxs = s.rxs := rfl
@[simp] theorem State.pushRxb_rxd (x : Item Byte) (s : State) : (s.pushRxb x).rxd = s.rxd := rfl
@[simp] theorem State.pushRxb_rxb (x : Item Byte) (s : State) : (s.pushRxb x).rxb = s.rxb ++ [x] := rfl
@[simp] theorem State.pushRxb_host (x : Item Byte) (s : State) : (s.pushRxb x).host = s.host := rfl
@[simp] theorem State.pushRxb_replies (x : Item Byte) (s : State) : (s.pushRxb x).replies = s.replies := rfl
@[simp] theorem State.pushRxb_turns (x : Item Byte) (s : State) : (s.pushRxb x).turns = s.turns := rfl
@[simp] theorem State.pushRxb_drawn (x : Item Byte) (s : State) : (s.pushRxb x).drawn = s.drawn := rfl

/-! ### State.clearError -/

@[simp] theorem State.clearError_cfg (s : State) : (s.clearError).cfg = s.cfg := rfl
@[simp] theorem State.clearError_startMarker (s : State) : (s.clearError).startMarker = s.startMarker := rfl
@[simp] theorem State.clearError_endMarker (s : State) : (s.clearError).endMarker = s.endMarker := rfl
@[simp] theorem State.clearError_err (s : State) : (s.clearError).err = .noError := rfl
@[simp] theorem State.clearError_errInfo (s : State) : (s.clearError).errInfo = 0#32 := rfl
@[simp] theorem State.clearError_tx (s : State) : (s.clearError).tx = s.tx := rfl
@[simp] theorem State.clearError_rx (s : State) : (s.clearError).rx = s.rx := rfl
@[simp] theorem State.clearError_hp (s : State) : (s.clearError).hp = s.hp := rfl
@[simp] theorem State.clearError_txd (s : State) : (s.clearError).txd = s.txd := rfl
@[simp] theorem State.clearError_txs (s : State) : (s.clearError).txs = s.txs := rfl
@[simp] theorem State.clearError_rxs (s : State) : (s.clearError).rxs = s.rxs := rfl
@[simp] theorem State.clearError_rxd (s : State) : (s.clearError).rxd = s.rxd := rfl
@[simp] theorem State.clearError_rxb (s : State) : (s.clearError).rxb = s.rxb := rfl
@[simp] theorem State.clearError_host (s : State) : (s.clearError).host = s.host := rfl
@[simp] theorem State.clearError_replies (s : State) : (s.clearError).replies = s.replies := rfl
@[simp] theorem State.clearError_turns (s : State) : (s.clearError).turns = s.turns := rfl
@[simp] theorem State.clearError_drawn (s : State) : (s.clearError).drawn = s.drawn := rfl

/-! ### State.acceptTx -/

@[simp] theorem State.acceptTx_cfg (op : TxOp) (s : State) : (s.acceptTx op).cfg = s.cfg := rfl
@[simp] theorem State.acceptTx_startMarker (op : TxOp) (s : State) : (s.acceptTx op).startMarker = s.startMarker := rfl
@[simp] theorem State.acceptTx_endMarker (op : TxOp) (s : State) : (s.acceptTx op).endMarker = s.endMarker := rfl
@[simp] theorem State.acceptTx_err (op : TxOp) (s : State) : (s.acceptTx op).err = s.err := rfl
@[simp] theorem State.acceptTx_errInfo (op : TxOp) (s : State) : (s.acceptTx op).errInfo = s.errInfo := rfl
@[simp] theorem State.acceptTx_tx_op (op : TxOp) (s : State) : (s.acceptTx op).tx.op = op := rfl
@[simp] theorem State.acceptTx_tx_busy (op : TxOp) (s : State) : (s.acceptTx op).tx.busy = true := rfl
@[simp] theorem State.acceptTx_tx_done (op : TxOp) (s : State) : (s.acceptTx op).tx.done = false := rfl
@[simp] theorem State.acceptTx_tx_pos (op : TxOp) (s : State) : (s.acceptTx op).tx.pos = 0#32 := rfl
@[simp] theorem State.acceptTx_tx_cfg (op : TxOp) (s : State) : (s.acceptTx op).tx.cfg = TxCfg.of s.cfg := rfl
@[simp] theorem State.acceptTx_tx_hdr (op : TxOp) (s : State) : (s.acceptTx op).tx.hdr = [] := rfl
@[simp] theorem State.acceptTx_tx_shift (op : TxOp) (s : State) : (s.acceptTx op).tx.shift = s.tx.shift := rfl
@[simp] theorem State.acceptTx_tx_nbits (op : TxOp) (s : State) : (s.acceptTx op).tx.nbits = 0 := rfl
@[simp] theorem State.acceptTx_tx_seg (op : TxOp) (s : State) : (s.acceptTx op).tx.seg = .fetch := rfl
@[simp] theorem State.acceptTx_tx_sym (op : TxOp) (s : State) : (s.acceptTx op).tx.sym = s.tx.sym := rfl
@[simp] theorem State.acceptTx_tx_k (op : TxOp) (s : State) : (s.acceptTx op).tx.k = 0 := rfl
@[simp] theorem State.acceptTx_rx (op : TxOp) (s : State) : (s.acceptTx op).rx = s.rx := rfl
@[simp] theorem State.acceptTx_hp (op : TxOp) (s : State) : (s.acceptTx op).hp = s.hp := rfl
@[simp] theorem State.acceptTx_txd (op : TxOp) (s : State) : (s.acceptTx op).txd = s.txd := rfl
@[simp] theorem State.acceptTx_txs (op : TxOp) (s : State) : (s.acceptTx op).txs = s.txs := rfl
@[simp] theorem State.acceptTx_rxs (op : TxOp) (s : State) : (s.acceptTx op).rxs = s.rxs := rfl
@[simp] theorem State.acceptTx_rxd (op : TxOp) (s : State) : (s.acceptTx op).rxd = s.rxd := rfl
@[simp] theorem State.acceptTx_rxb (op : TxOp) (s : State) : (s.acceptTx op).rxb = s.rxb := rfl
@[simp] theorem State.acceptTx_host (op : TxOp) (s : State) : (s.acceptTx op).host = s.host := rfl
@[simp] theorem State.acceptTx_replies (op : TxOp) (s : State) : (s.acceptTx op).replies = s.replies := rfl
@[simp] theorem State.acceptTx_turns (op : TxOp) (s : State) : (s.acceptTx op).turns = s.turns := rfl
@[simp] theorem State.acceptTx_drawn (op : TxOp) (s : State) : (s.acceptTx op).drawn = s.drawn := rfl

/-! ### State.acceptRx -/

@[simp] theorem State.acceptRx_cfg (op : RxOp) (s : State) : (s.acceptRx op).cfg = s.cfg := rfl
@[simp] theorem State.acceptRx_startMarker (op : RxOp) (s : State) : (s.acceptRx op).startMarker = s.startMarker := rfl
@[simp] theorem State.acceptRx_endMarker (op : RxOp) (s : State) : (s.acceptRx op).endMarker = s.endMarker := rfl
@[simp] theorem State.acceptRx_err (op : RxOp) (s : State) : (s.acceptRx op).err = s.err := rfl
@[simp] theorem State.acceptRx_errInfo (op : RxOp) (s : State) : (s.acceptRx op).errInfo = s.errInfo := rfl
@[simp] theorem State.acceptRx_tx (op : RxOp) (s : State) : (s.acceptRx op).tx = s.tx := rfl
@[simp] theorem State.acceptRx_rx_op (op : RxOp) (s : State) : (s.acceptRx op).rx.op = op := rfl
@[simp] theorem State.acceptRx_rx_busy (op : RxOp) (s : State) : (s.acceptRx op).rx.busy = true := rfl
@[simp] theorem State.acceptRx_rx_done (op : RxOp) (s : State) : (s.acceptRx op).rx.done = false := rfl
@[simp] theorem State.acceptRx_rx_eos (op : RxOp) (s : State) : (s.acceptRx op).rx.eos = false := rfl
@[simp] theorem State.acceptRx_rx_pos (op : RxOp) (s : State) : (s.acceptRx op).rx.pos = 0#32 := rfl
@[simp] theorem State.acceptRx_rx_bytes (op : RxOp) (s : State) : (s.acceptRx op).rx.bytes = s.rx.bytes := rfl
@[simp] theorem State.acceptRx_rx_cfg (op : RxOp) (s : State) : (s.acceptRx op).rx.cfg = RxCfg.of s.cfg := rfl
@[simp] theorem State.acceptRx_rx_k (op : RxOp) (s : State) : (s.acceptRx op).rx.k = 0 := rfl
@[simp] theorem State.acceptRx_rx_buf (op : RxOp) (s : State) : (s.acceptRx op).rx.buf = s.rx.buf := rfl
@[simp] theorem State.acceptRx_rx_fail (op : RxOp) (s : State) : (s.acceptRx op).rx.fail = false := rfl
@[simp] theorem State.acceptRx_rx_dsShift (op : RxOp) (s : State) : (s.acceptRx op).rx.dsShift = s.rx.dsShift := rfl
@[simp] theorem State.acceptRx_rx_dsCnt (op : RxOp) (s : State) : (s.acceptRx op).rx.dsCnt = s.rx.dsCnt := rfl
@[simp] theorem State.acceptRx_hp_state (op : RxOp) (s : State) : (s.acceptRx op).hp.state = op.parserStart := rfl
@[simp] theorem State.acceptRx_hp_cnt (op : RxOp) (s : State) : (s.acceptRx op).hp.cnt = s.hp.cnt := rfl
@[simp] theorem State.acceptRx_hp_len (op : RxOp) (s : State) : (s.acceptRx op).hp.len = s.hp.len := rfl
@[simp] theorem State.acceptRx_hp_total (op : RxOp) (s : State) : (s.acceptRx op).hp.total = s.hp.total := rfl
@[simp] theorem State.acceptRx_hp_u8 (op : RxOp) (s : State) : (s.acceptRx op).hp.u8 = s.hp.u8 := rfl
@[simp] theorem State.acceptRx_hp_matched (op : RxOp) (s : State) : (s.acceptRx op).hp.matched = s.hp.matched := rfl
@[simp] theorem State.acceptRx_hp_hdrLen (op : RxOp) (s : State) : (s.acceptRx op).hp.hdrLen = s.hp.hdrLen := rfl
@[simp] theorem State.acceptRx_hp_method (op : RxOp) (s : State) : (s.acceptRx op).hp.method = s.hp.method := rfl
@[simp] theorem State.acceptRx_txd (op : RxOp) (s : State) : (s.acceptRx op).txd = s.txd := rfl
@[simp] theorem State.acceptRx_txs (op : RxOp) (s : State) : (s.acceptRx op).txs = s.txs := rfl
@[simp] theorem State.acceptRx_rxs (op : RxOp) (s : State) : (s.acceptRx op).rxs = s.rxs := rfl
@[simp] theorem State.acceptRx_rxd (op : RxOp) (s : State) : (s.acceptRx op).rxd = s.rxd := rfl
@[simp] theorem State.acceptRx_rxb (op : RxOp) (s : State) : (s.acceptRx op).rxb = s.rxb := rfl
@[simp] theorem State.acceptRx_host (op : RxOp) (s : State) : (s.acceptRx op).host = s.host := rfl
@[simp] theorem State.acceptRx_replies (op : RxOp) (s : State) : (s.acceptRx op).replies = s.replies := rfl
@[simp] theorem State.acceptRx_turns (op : RxOp) (s : State) : (s.acceptRx op).turns = s.turns := rfl
@[simp] theorem State.acceptRx_drawn (op : RxOp) (s : State) : (s.acceptRx op).drawn = s.drawn := rfl

/-! ### State.completeTx -/

@[simp] theorem State.completeTx_cfg (s : State) : (s.completeTx).cfg = s.cfg := rfl
@[simp] theorem State.completeTx_startMarker (s : State) : (s.completeTx).startMarker = s.startMarker := rfl
@[simp] theorem State.completeTx_endMarker (s : State) : (s.completeTx).endMarker = s.endMarker := rfl
@[simp] theorem State.completeTx_err (s : State) : (s.completeTx).err = s.err := rfl
@[simp] theorem State.completeTx_errInfo (s : State) : (s.completeTx).errInfo = s.errInfo := rfl
@[simp] theorem State.completeTx_tx_op (s : State) : (s.completeTx).tx.op = .idle := rfl
@[simp] theorem State.completeTx_tx_busy (s : State) : (s.completeTx).tx.busy = false := rfl
@[simp] theorem State.completeTx_tx_done (s : State) : (s.completeTx).tx.done = true := rfl
@[simp] theorem State.completeTx_tx_pos (s : State) : (s.completeTx).tx.pos = s.tx.pos := rfl
@[simp] theorem State.completeTx_tx_cfg (s : State) : (s.completeTx).tx.cfg = s.tx.cfg := rfl
@[simp] theorem State.completeTx_tx_hdr (s : State) : (s.completeTx).tx.hdr = s.tx.hdr := rfl
@[simp] theorem State.completeTx_tx_shift (s : State) : (s.completeTx).tx.shift = s.tx.shift := rfl
@[simp] theorem State.completeTx_tx_nbits (s : State) : (s.completeTx).tx.nbits = s.tx.nbits := rfl
@[simp] theorem State.completeTx_tx_seg (s : State) : (s.completeTx).tx.seg = .fetch := rfl
@[simp] theorem State.completeTx_tx_sym (s : State) : (s.completeTx).tx.sym = s.tx.sym := rfl
@[simp] theorem State.completeTx_tx_k (s : State) : (s.completeTx).tx.k = 0 := rfl
@[simp] theorem State.completeTx_rx (s : State) : (s.completeTx).rx = s.rx := rfl
@[simp] theorem State.completeTx_hp (s : State) : (s.completeTx).hp = s.hp := rfl
@[simp] theorem State.completeTx_txd (s : State) : (s.completeTx).txd = s.txd := rfl
@[simp] theorem State.completeTx_txs (s : State) : (s.completeTx).txs = s.txs := rfl
@[simp] theorem State.completeTx_rxs (s : State) : (s.completeTx).rxs = s.rxs := rfl
@[simp] theorem State.completeTx_rxd (s : State) : (s.completeTx).rxd = s.rxd := rfl
@[simp] theorem State.completeTx_rxb (s : State) : (s.completeTx).rxb = s.rxb := rfl
@[simp] theorem State.completeTx_host (s : State) : (s.completeTx).host = s.host := rfl
@[simp] theorem State.completeTx_replies (s : State) : (s.completeTx).replies = s.replies := rfl
@[simp] theorem State.completeTx_turns (s : State) : (s.completeTx).turns = s.turns := rfl
@[simp] theorem State.completeTx_drawn (s : State) : (s.completeTx).drawn = s.drawn := rfl

/-! ### State.completeRx -/

@[simp] theorem State.completeRx_cfg (s : State) : (s.completeRx).cfg = s.cfg := rfl
@[simp] theorem State.completeRx_startMarker (s : State) : (s.completeRx).startMarker = s.startMarker := rfl
@[simp] theorem State.completeRx_endMarker (s : State) : (s.completeRx).endMarker = s.endMarker := rfl
@[simp] theorem State.completeRx_err (s : State) : (s.completeRx).err = s.err := rfl
@[simp] theorem State.completeRx_errInfo (s : State) : (s.completeRx).errInfo = s.errInfo := rfl
@[simp] theorem State.completeRx_tx (s : State) : (s.completeRx).tx = s.tx := rfl
@[simp] theorem State.completeRx_rx_op (s : State) : (s.completeRx).rx.op = .idle := rfl
@[simp] theorem State.completeRx_rx_busy (s : State) : (s.completeRx).rx.busy = false := rfl
@[simp] theorem State.completeRx_rx_done (s : State) : (s.completeRx).rx.done = true := rfl
@[simp] theorem State.completeRx_rx_eos (s : State) : (s.completeRx).rx.eos = s.rx.eos := rfl
@[simp] theorem State.completeRx_rx_pos (s : State) : (s.completeRx).rx.pos = s.rx.pos := rfl
@[simp] theorem State.completeRx_rx_bytes (s : State) : (s.completeRx).rx.bytes = s.rx.bytes := rfl
@[simp] theorem State.completeRx_rx_cfg (s : State) : (s.completeRx).rx.cfg = s.rx.cfg := rfl
@[simp] theorem State.completeRx_rx_k (s : State) : (s.completeRx).rx.k = s.rx.k := rfl
@[simp] theorem State.completeRx_rx_buf (s : State) : (s.completeRx).rx.buf = s.rx.buf := rfl
@[simp] theorem State.completeRx_rx_fail (s : State) : (s.completeRx).rx.fail = s.rx.fail := rfl
@[simp] theorem State.completeRx_rx_dsShift (s : State) : (s.completeRx).rx.dsShift = s.rx.dsShift := rfl
@[simp] theorem State.completeRx_rx_dsCnt (s : State) : (s.completeRx).rx.dsCnt = s.rx.dsCnt := rfl
@[simp] theorem State.completeRx_hp (s : State) : (s.completeRx).hp = s.hp := rfl
@[simp] theorem State.completeRx_txd (s : State) : (s.completeRx).txd = s.txd := rfl
@[simp] theorem State.completeRx_txs (s : State) : (s.completeRx).txs = s.txs := rfl
@[simp] theorem State.completeRx_rxs (s : State) : (s.completeRx).rxs = s.rxs := rfl
@[simp] theorem State.completeRx_rxd (s : State) : (s.completeRx).rxd = s.rxd := rfl
@[simp] theorem State.completeRx_rxb (s : State) : (s.completeRx).rxb = s.rxb := rfl
@[simp] theorem State.completeRx_host (s : State) : (s.completeRx).host = s.host := rfl
@[simp] theorem State.completeRx_replies (s : State) : (s.completeRx).replies = s.replies := rfl
@[simp] theorem State.completeRx_turns (s : State) : (s.completeRx).turns = s.turns := rfl
@[simp] theorem State.completeRx_drawn (s : State) : (s.completeRx).drawn = s.drawn := rfl

/-! ### State.answer -/

@[simp] theorem State.answer_cfg (r : Reply) (s : State) : (s.answer r).cfg = s.cfg := rfl
@[simp] theorem State.answer_startMarker (r : Reply) (s : State) : (s.answer r).startMarker = s.startMarker := rfl
@[simp] theorem State.answer_endMarker (r : Reply) (s : State) : (s.answer r).endMarker = s.endMarker := rfl
@[simp] theorem State.answer_err (r : Reply) (s : State) : (s.answer r).err = s.err := rfl
@[simp] theorem State.answer_errInfo (r : Reply) (s : State) : (s.answer r).errInfo = s.errInfo := rfl
@[simp] theorem State.answer_tx (r : Reply) (s : State) : (s.answer r).tx = s.tx := rfl
@[simp] theorem State.answer_rx (r : Reply) (s : State) : (s.answer r).rx = s.rx := rfl
@[simp] theorem State.answer_hp (r : Reply) (s : State) : (s.answer r).hp = s.hp := rfl
@[simp] theorem State.answer_txd (r : Reply) (s : State) : (s.answer r).txd = s.txd := rfl
@[simp] theorem State.answer_txs (r : Reply) (s : State) : (s.answer r).txs = s.txs := rfl
@[simp] theorem State.answer_rxs (r : Reply) (s : State) : (s.answer r).rxs = s.rxs := rfl
@[simp] theorem State.answer_rxd (r : Reply) (s : State) : (s.answer r).rxd = s.rxd := rfl
@[simp] theorem State.answer_rxb (r : Reply) (s : State) : (s.answer r).rxb = s.rxb := rfl
@[simp] theorem State.answer_host (r : Reply) (s : State) : (s.answer r).host = s.host := rfl
@[simp] theorem State.answer_replies (r : Reply) (s : State) : (s.answer r).replies = s.replies ++ [r] := rfl
@[simp] theorem State.answer_turns (r : Reply) (s : State) : (s.answer r).turns = s.turns := rfl
@[simp] theorem State.answer_drawn (r : Reply) (s : State) : (s.answer r).drawn = s.drawn := rfl

/-! ### State.openTone -/

@[simp] theorem State.openTone_cfg (b : Bool) (s : State) : (s.openTone b).cfg = s.cfg := rfl
@[simp] theorem State.openTone_startMarker (b : Bool) (s : State) : (s.openTone b).startMarker = s.startMarker := rfl
@[simp] theorem State.openTone_endMarker (b : Bool) (s : State) : (s.openTone b).endMarker = s.endMarker := rfl
@[simp] theorem State.openTone_err (b : Bool) (s : State) : (s.openTone b).err = s.err := rfl
@[simp] theorem State.openTone_errInfo (b : Bool) (s : State) : (s.openTone b).errInfo = s.errInfo := rfl
@[simp] theorem State.openTone_tx_op (b : Bool) (s : State) : (s.openTone b).tx.op = s.tx.op := rfl
@[simp] theorem State.openTone_tx_busy (b : Bool) (s : State) : (s.openTone b).tx.busy = s.tx.busy := rfl
@[simp] theorem State.openTone_tx_done (b : Bool) (s : State) : (s.openTone b).tx.done = s.tx.done := rfl
@[simp] theorem State.openTone_tx_pos (b : Bool) (s : State) : (s.openTone b).tx.pos = s.tx.pos := rfl
@[simp] theorem State.openTone_tx_cfg (b : Bool) (s : State) : (s.openTone b).tx.cfg = s.tx.cfg := rfl
@[simp] theorem State.openTone_tx_hdr (b : Bool) (s : State) : (s.openTone b).tx.hdr = s.tx.hdr := rfl
@[simp] theorem State.openTone_tx_shift (b : Bool) (s : State) : (s.openTone b).tx.shift = s.tx.shift := rfl
@[simp] theorem State.openTone_tx_nbits (b : Bool) (s : State) : (s.openTone b).tx.nbits = s.tx.nbits := rfl
@[simp] theorem State.openTone_tx_seg (b : Bool) (s : State) : (s.openTone b).tx.seg = .tone := rfl
@[simp] theorem State.openTone_tx_sym (b : Bool) (s : State) : (s.openTone b).tx.sym = b := rfl
@[simp] theorem State.openTone_tx_k (b : Bool) (s : State) : (s.openTone b).tx.k = 0 := rfl
@[simp] theorem State.openTone_rx (b : Bool) (s : State) : (s.openTone b).rx = s.rx := rfl
@[simp] theorem State.openTone_hp (b : Bool) (s : State) : (s.openTone b).hp = s.hp := rfl
@[simp] theorem State.openTone_txd (b : Bool) (s : State) : (s.openTone b).txd = s.txd := rfl
@[simp] theorem State.openTone_txs (b : Bool) (s : State) : (s.openTone b).txs = s.txs := rfl
@[simp] theorem State.openTone_rxs (b : Bool) (s : State) : (s.openTone b).rxs = s.rxs := rfl
@[simp] theorem State.openTone_rxd (b : Bool) (s : State) : (s.openTone b).rxd = s.rxd := rfl
@[simp] theorem State.openTone_rxb (b : Bool) (s : State) : (s.openTone b).rxb = s.rxb := rfl
@[simp] theorem State.openTone_host (b : Bool) (s : State) : (s.openTone b).host = s.host := rfl
@[simp] theorem State.openTone_replies (b : Bool) (s : State) : (s.openTone b).replies = s.replies := rfl
@[simp] theorem State.openTone_turns (b : Bool) (s : State) : (s.openTone b).turns = s.turns := rfl
@[simp] theorem State.openTone_drawn (b : Bool) (s : State) : (s.openTone b).drawn = s.drawn := rfl

/-! ### State.openSilence -/

@[simp] theorem State.openSilence_cfg (s : State) : (s.openSilence).cfg = s.cfg := rfl
@[simp] theorem State.openSilence_startMarker (s : State) : (s.openSilence).startMarker = s.startMarker := rfl
@[simp] theorem State.openSilence_endMarker (s : State) : (s.openSilence).endMarker = s.endMarker := rfl
@[simp] theorem State.openSilence_err (s : State) : (s.openSilence).err = s.err := rfl
@[simp] theorem State.openSilence_errInfo (s : State) : (s.openSilence).errInfo = s.errInfo := rfl
@[simp] theorem State.openSilence_tx_op (s : State) : (s.openSilence).tx.op = s.tx.op := rfl
@[simp] theorem State.openSilence_tx_busy (s : State) : (s.openSilence).tx.busy = s.tx.busy := rfl
@[simp] theorem State.openSilence_tx_done (s : State) : (s.openSilence).tx.done = s.tx.done := rfl
@[simp] theorem State.openSilence_tx_pos (s : State) : (s.openSilence).tx.pos = s.tx.pos := rfl
@[simp] theorem State.openSilence_tx_cfg (s : State) : (s.openSilence).tx.cfg = s.tx.cfg := rfl
@[simp] theorem State.openSilence_tx_hdr (s : State) : (s.openSilence).tx.hdr = s.tx.hdr := rfl
@[simp] theorem State.openSilence_tx_shift (s : State) : (s.openSilence).tx.shift = s.tx.shift := rfl
@[simp] theorem State.openSilence_tx_nbits (s : State) : (s.openSilence).tx.nbits = s.tx.nbits := rfl
@[simp] theorem State.openSilence_tx_seg (s : State) : (s.openSilence).tx.seg = .silence := rfl
@[simp] theorem State.openSilence_tx_sym (s : State) : (s.openSilence).tx.sym = s.tx.sym := rfl
@[simp] theorem State.openSilence_tx_k (s : State) : (s.openSilence).tx.k = 0 := rfl
@[simp] theorem State.openSilence_rx (s : State) : (s.openSilence).rx = s.rx := rfl
@[simp] theorem State.openSilence_hp (s : State) : (s.openSilence).hp = s.hp := rfl
@[simp] theorem State.openSilence_txd (s : State) : (s.openSilence).txd = s.txd := rfl
@[simp] theorem State.openSilence_txs (s : State) : (s.openSilence).txs = s.txs := rfl
@[simp] theorem State.openSilence_rxs (s : State) : (s.openSilence).rxs = s.rxs := rfl
@[simp] theorem State.openSilence_rxd (s : State) : (s.openSilence).rxd = s.rxd := rfl
@[simp] theorem State.openSilence_rxb (s : State) : (s.openSilence).rxb = s.rxb := rfl
@[simp] theorem State.openSilence_host (s : State) : (s.openSilence).host = s.host := rfl
@[simp] theorem State.openSilence_replies (s : State) : (s.openSilence).replies = s.replies := rfl
@[simp] theorem State.openSilence_turns (s : State) : (s.openSilence).turns = s.turns := rfl
@[simp] theorem State.openSilence_drawn (s : State) : (s.openSilence).drawn = s.drawn := rfl

/-! ### State.emitTone -/

@[simp] theorem State.emitTone_cfg (num : Numerics Sample) (s : State) : (s.emitTone num).cfg = s.cfg := rfl
@[simp] theorem State.emitTone_startMarker (num : Numerics Sample) (s : State) : (s.emitTone num).startMarker = s.startMarker := rfl
@[simp] theorem State.emitTone_endMarker (num : Numerics Sample) (s : State) : (s.emitTone num).endMarker = s.endMarker := rfl
@[simp] theorem State.emitTone_err (num : Numerics Sample) (s : State) : (s.emitTone num).err = s.err := rfl
@[simp] theorem State.emitTone_errInfo (num : Numerics Sample) (s : State) : (s.emitTone num).errInfo = s.errInfo := rfl
@[simp] theorem State.emitTone_tx_op (num : Numerics Sample) (s : State) : (s.emitTone num).tx.op = s.tx.op := rfl
@[simp] theorem State.emitTone_tx_busy (num : Numerics Sample) (s : State) : (s.emitTone num).tx.busy = s.tx.busy := rfl
@[simp] theorem State.emitTone_tx_done (num : Numerics Sample) (s : State) : (s.emitTone num).tx.done = s.tx.done := rfl
@[simp] theorem State.emitTone_tx_pos (num : Numerics Sample) (s : State) : (s.emitTone num).tx.pos = s.tx.pos := rfl
@[simp] theorem State.emitTone_tx_cfg (num : Numerics Sample) (s : State) : (s.emitTone num).tx.cfg = s.tx.cfg := rfl
@[simp] theorem State.emitTone_tx_hdr (num : Numerics Sample) (s : State) : (s.emitTone num).tx.hdr = s.tx.hdr := rfl
@[simp] theorem State.emitTone_tx_shift (num : Numerics Sample) (s : State) : (s.emitTone num).tx.shift = s.tx.shift := rfl
@[simp] theorem State.emitTone_tx_nbits (num : Numerics Sample) (s : State) : (s.emitTone num).tx.nbits = s.tx.nbits := rfl
@[simp] theorem State.emitTone_tx_seg (num : Numerics Sample) (s : State) : (s.emitTone num).tx.seg = s.tx.seg := rfl
@[simp] theorem State.emitTone_tx_sym (num : Numerics Sample) (s : State) : (s.emitTone num).tx.sym = s.tx.sym := rfl
@[simp] theorem State.emitTone_tx_k (num : Numerics Sample) (s : State) : (s.emitTone num).tx.k = s.tx.k + 1 := rfl
@[simp] theorem State.emitTone_rx (num : Numerics Sample) (s : State) : (s.emitTone num).rx = s.rx := rfl
@[simp] theorem State.emitTone_hp (num : Numerics Sample) (s : State) : (s.emitTone num).hp = s.hp := rfl
@[simp] theorem State.emitTone_txd (num : Numerics Sample) (s : State) : (s.emitTone num).txd = s.txd := rfl
@[simp] theorem State.emitTone_txs (num : Numerics Sample) (s : State) : (s.emitTone num).txs = s.txs ++ [.data (num.sinS (s.tx.cfg.phase s.tx.sym s.tx.k))] := rfl
@[simp] theorem State.emitTone_rxs (num : Numerics Sample) (s : State) : (s.emitTone num).rxs = s.rxs := rfl
@[simp] theorem State.emitTone_rxd (num : Numerics Sample) (s : State) : (s.emitTone num).rxd = s.rxd := rfl
@[simp] theorem State.emitTone_rxb (num : Numerics Sample) (s : State) : (s.emitTone num).rxb = s.rxb := rfl
@[simp] theorem State.emitTone_host (num : Numerics Sample) (s : State) : (s.emitTone num).host = s.host := rfl
@[simp] theorem State.emitTone_replies (num : Numerics Sample) (s : State) : (s.emitTone num).replies = s.replies := rfl
@[simp] theorem State.emitTone_turns (num : Numerics Sample) (s : State) : (s.emitTone num).turns = s.turns := rfl
@[simp] theorem State.emitTone_drawn (num : Numerics Sample) (s : State) : (s.emitTone num).drawn = s.drawn := rfl

/-! ### State.emitZero -/

@[simp] theorem State.emitZero_cfg (num : Numerics Sample) (s : State) : (s.emitZero num).cfg = s.cfg := rfl
@[simp] theorem State.emitZero_startMarker (num : Numerics Sample) (s : State) : (s.emitZero num).startMarker = s.startMarker := rfl
@[simp] theorem State.emitZero_endMarker (num : Numerics Sample) (s : State) : (s.emitZero num).endMarker = s.endMarker := rfl
@[simp] theorem State.emitZero_err (num : Numerics Sample) (s : State) : (s.emitZero num).err = s.err := rfl
@[simp] theorem State.emitZero_errInfo (num : Numerics Sample) (s : State) : (s.emitZero num).errInfo = s.errInfo := rfl
@[simp] theorem State.emitZero_tx_op (num : Numerics Sample) (s : State) : (s.emitZero num).tx.op = s.tx.op := rfl
@[simp] theorem State.emitZero_tx_busy (num : Numerics Sample) (s : State) : (s.emitZero num).tx.busy = s.tx.busy := rfl
@[simp] theorem State.emitZero_tx_done (num : Numerics Sample) (s : State) : (s.emitZero num).tx.done = s.tx.done := rfl
@[simp] theorem State.emitZero_tx_pos (num : Numerics Sample) (s : State) : (s.emitZero num).tx.pos = s.tx.pos := rfl
@[simp] theorem State.emitZero_tx_cfg (num : Numerics Sample) (s : State) : (s.emitZero num).tx.cfg = s.tx.cfg := rfl
@[simp] theorem State.emitZero_tx_hdr (num : Numerics Sample) (s : State) : (s.emitZero num).tx.hdr = s.tx.hdr := rfl
@[simp] theorem State.emitZero_tx_shift (num : Numerics Sample) (s : State) : (s.emitZero num).tx.shift = s.tx.shift := rfl
@[simp] theorem State.emitZero_tx_nbits (num : Numerics Sample) (s : State) : (s.emitZero num).tx.nbits = s.tx.nbits := rfl
@[simp] theorem State.emitZero_tx_seg (num : Numerics Sample) (s : State) : (s.emitZero num).tx.seg = s.tx.seg := rfl
@[simp] theorem State.emitZero_tx_sym (num : Numerics Sample) (s : State) : (s.emitZero num).tx.sym = s.tx.sym := rfl
@[simp] theorem State.emitZero_tx_k (num : Numerics Sample) (s : State) : (s.emitZero num).tx.k = s.tx.k + 1 := rfl
@[simp] theorem State.emitZero_rx (num : Numerics Sample) (s : State) : (s.emitZero num).rx = s.rx := rfl
@[simp] theorem State.emitZero_hp (num : Numerics Sample) (s : State) : (s.emitZero num).hp = s.hp := rfl
@[simp] theorem State.emitZero_txd (num : Numerics Sample) (s : State) : (s.emitZero num).txd = s.txd := rfl
@[simp] theorem State.emitZero_txs (num : Numerics Sample) (s : State) : (s.emitZero num).txs = s.txs ++ [.data num.szero] := rfl
@[simp] theorem State.emitZero_rxs (num : Numerics Sample) (s : State) : (s.emitZero num).rxs = s.rxs := rfl
@[simp] theorem State.emitZero_rxd (num : Numerics Sample) (s : State) : (s.emitZero num).rxd = s.rxd := rfl
@[simp] theorem State.emitZero_rxb (num : Numerics Sample) (s : State) : (s.emitZero num).rxb = s.rxb := rfl
@[simp] theorem State.emitZero_host (num : Numerics Sample) (s : State) : (s.emitZero num).host = s.host := rfl
@[simp] theorem State.emitZero_replies (num : Numerics Sample) (s : State) : (s.emitZero num).replies = s.replies := rfl
@[simp] theorem State.emitZero_turns (num : Numerics Sample) (s : State) : (s.emitZero num).turns = s.turns := rfl
@[simp] theorem State.emitZero_drawn (num : Numerics Sample) (s : State) : (s.emitZero num).drawn = s.drawn := rfl

/-! ### State.loadByte -/

@[simp] theorem State.loadByte_cfg (b : Byte) (s : State) : (s.loadByte b).cfg = s.cfg := rfl
@[simp] theorem State.loadByte_startMarker (b : Byte) (s : State) : (s.loadByte b).startMarker = s.startMarker := rfl
@[simp] theorem State.loadByte_endMarker (b : Byte) (s : State) : (s.loadByte b).endMarker = s.endMarker := rfl
@[simp] theorem State.loadByte_err (b : Byte) (s : State) : (s.loadByte b).err = s.err := rfl
@[simp] theorem State.loadByte_errInfo (b : Byte) (s : State) : (s.loadByte b).errInfo = s.errInfo := rfl
@[simp] theorem State.loadByte_tx_op (b : Byte) (s : State) : (s.loadByte b).tx.op = s.tx.op := rfl
@[simp] theorem State.loadByte_tx_busy (b : Byte) (s : State) : (s.loadByte b).tx.busy = s.tx.busy := rfl
@[simp] theorem State.loadByte_tx_done (b : Byte) (s : State) : (s.loadByte b).tx.done = s.tx.done := rfl
@[simp] theorem State.loadByte_tx_pos (b : Byte) (s : State) : (s.loadByte b).tx.pos = s.tx.pos := rfl
@[simp] theorem State.loadByte_tx_cfg (b : Byte) (s : State) : (s.loadByte b).tx.cfg = s.tx.cfg := rfl
@[simp] theorem State.loadByte_tx_hdr (b : Byte) (s : State) : (s.loadByte b).tx.hdr = s.tx.hdr := rfl
@[simp] theorem State.loadByte_tx_shift (b : Byte) (s : State) : (s.loadByte b).tx.shift = b := rfl
@[simp] theorem State.loadByte_tx_nbits (b : Byte) (s : State) : (s.loadByte b).tx.nbits = 8 := rfl
@[simp] theorem State.loadByte_tx_seg (b : Byte) (s : State) : (s.loadByte b).tx.seg = s.tx.seg := rfl
@[simp] theorem State.loadByte_tx_sym (b : Byte) (s : State) : (s.loadByte b).tx.sym = s.tx.sym := rfl
@[simp] theorem State.loadByte_tx_k (b : Byte) (s : State) : (s.loadByte b).tx.k = s.tx.k := rfl
@[simp] theorem State.loadByte_rx (b : Byte) (s : State) : (s.loadByte b).rx = s.rx := rfl
@[simp] theorem State.loadByte_hp (b : Byte) (s : State) : (s.loadByte b).hp = s.hp := rfl
@[simp] theorem State.loadByte_txd (b : Byte) (s : State) : (s.loadByte b).txd = s.txd := rfl
@[simp] theorem State.loadByte_txs (b : Byte) (s : State) : (s.loadByte b).txs = s.txs := rfl
@[simp] theorem State.loadByte_rxs (b : Byte) (s : State) : (s.loadByte b).rxs = s.rxs := rfl
@[simp] theorem State.loadByte_rxd (b : Byte) (s : State) : (s.loadByte b).rxd = s.rxd := rfl
@[simp] theorem State.loadByte_rxb (b : Byte) (s : State) : (s.loadByte b).rxb = s.rxb := rfl
@[simp] theorem State.loadByte_host (b : Byte) (s : State) : (s.loadByte b).host = s.host := rfl
@[simp] theorem State.loadByte_replies (b : Byte) (s : State) : (s.loadByte b).replies = s.replies := rfl
@[simp] theorem State.loadByte_turns (b : Byte) (s : State) : (s.loadByte b).turns = s.turns := rfl
@[simp] theorem State.loadByte_drawn (b : Byte) (s : State) : (s.loadByte b).drawn = s.drawn := rfl

/-! ### State.takeBit -/

@[simp] theorem State.takeBit_cfg (s : State) : (s.takeBit).cfg = s.cfg := rfl
@[simp] theorem State.takeBit_startMarker (s : State) : (s.takeBit).startMarker = s.startMarker := rfl
@[simp] theorem State.takeBit_endMarker (s : State) : (s.takeBit).endMarker = s.endMarker := rfl
@[simp] theorem State.takeBit_err (s : State) : (s.takeBit).err = s.err := rfl
@[simp] theorem State.takeBit_errInfo (s : State) : (s.takeBit).errInfo = s.errInfo := rfl
@[simp] theorem State.takeBit_tx_op (s : State) : (s.takeBit).tx.op = s.tx.op := rfl
@[simp] theorem State.takeBit_tx_busy (s : State) : (s.takeBit).tx.busy = s.tx.busy := rfl
@[simp] theorem State.takeBit_tx_done (s : State) : (s.takeBit).tx.done = s.tx.done := rfl
@[simp] theorem State.takeBit_tx_pos (s : State) : (s.takeBit).tx.pos = s.tx.pos := rfl
@[simp] theorem State.takeBit_tx_cfg (s : State) : (s.takeBit).tx.cfg = s.tx.cfg := rfl
@[simp] theorem State.takeBit_tx_hdr (s : State) : (s.takeBit).tx.hdr = s.tx.hdr := rfl
@[simp] theorem State.takeBit_tx_shift (s : State) : (s.takeBit).tx.shift = s.tx.shift <<< 1 := rfl
@[simp] theorem State.takeBit_tx_nbits (s : State) : (s.takeBit).tx.nbits = s.tx.nbits - 1 := rfl
@[simp] theorem State.takeBit_tx_seg (s : State) : (s.takeBit).tx.seg = s.tx.seg := rfl
@[simp] theorem State.takeBit_tx_sym (s : State) : (s.takeBit).tx.sym = s.tx.sym := rfl
@[simp] theorem State.takeBit_tx_k (s : State) : (s.takeBit).tx.k = s.tx.k := rfl
@[simp] theorem State.takeBit_rx (s : State) : (s.takeBit).rx = s.rx := rfl
@[simp] theorem State.takeBit_hp (s : State) : (s.takeBit).hp = s.hp := rfl
@[simp] theorem State.takeBit_txd (s : State) : (s.takeBit).txd = s.txd := rfl
@[simp] theorem State.takeBit_txs (s : State) : (s.takeBit).txs = s.txs := rfl
@[simp] theorem State.takeBit_rxs (s : State) : (s.takeBit).rxs = s.rxs := rfl
@[simp] theorem State.takeBit_rxd (s : State) : (s.takeBit).rxd = s.rxd := rfl
@[simp] theorem State.takeBit_rxb (s : State) : (s.takeBit).rxb = s.rxb := rfl
@[simp] theorem State.takeBit_host (s : State) : (s.takeBit).host = s.host := rfl
@[simp] theorem State.takeBit_replies (s : State) : (s.takeBit).replies = s.replies := rfl
@[simp] theorem State.takeBit_turns (s : State) : (s.takeBit).turns = s.turns := rfl
@[simp] theorem State.takeBit_drawn (s : State) : (s.takeBit).drawn = s.drawn := rfl

/-! ### State.closeSlot -/

@[simp] theorem State.closeSlot_cfg (s : State) : (s.closeSlot).cfg = s.cfg := rfl
@[simp] theorem State.closeSlot_startMarker (s : State) : (s.closeSlot).startMarker = s.startMarker := rfl
@[simp] theorem State.closeSlot_endMarker (s : State) : (s.closeSlot).endMarker = s.endMarker := rfl
@[simp] theorem State.closeSlot_err (s : State) : (s.closeSlot).err = s.err := rfl
@[simp] theorem State.closeSlot_errInfo (s : State) : (s.closeSlot).errInfo = s.errInfo := rfl
@[simp] theorem State.closeSlot_tx_op (s : State) : (s.closeSlot).tx.op = s.tx.op := rfl
@[simp] theorem State.closeSlot_tx_busy (s : State) : (s.closeSlot).tx.busy = s.tx.busy := rfl
@[simp] theorem State.closeSlot_tx_done (s : State) : (s.closeSlot).tx.done = s.tx.done := rfl
@[simp] theorem State.closeSlot_tx_pos (s : State) : (s.closeSlot).tx.pos = s.tx.pos + 1#32 := rfl
@[simp] theorem State.closeSlot_tx_cfg (s : State) : (s.closeSlot).tx.cfg = s.tx.cfg := rfl
@[simp] theorem State.closeSlot_tx_hdr (s : State) : (s.closeSlot).tx.hdr = s.tx.hdr := rfl
@[simp] theorem State.closeSlot_tx_shift (s : State) : (s.closeSlot).tx.shift = s.tx.shift := rfl
@[simp] theorem State.closeSlot_tx_nbits (s : State) : (s.closeSlot).tx.nbits = s.tx.nbits := rfl
@[simp] theorem State.closeSlot_tx_seg (s : State) : (s.closeSlot).tx.seg = .fetch := rfl
@[simp] theorem State.closeSlot_tx_sym (s : State) : (s.closeSlot).tx.sym = s.tx.sym := rfl
@[simp] theorem State.closeSlot_tx_k (s : State) : (s.closeSlot).tx.k = 0 := rfl
@[simp] theorem State.closeSlot_rx (s : State) : (s.closeSlot).rx = s.rx := rfl
@[simp] theorem State.closeSlot_hp (s : State) : (s.closeSlot).hp = s.hp := rfl
@[simp] theorem State.closeSlot_txd (s : State) : (s.closeSlot).txd = s.txd := rfl
@[simp] theorem State.closeSlot_txs (s : State) : (s.closeSlot).txs = s.txs := rfl
@[simp] theorem State.closeSlot_rxs (s : State) : (s.closeSlot).rxs = s.rxs := rfl
@[simp] theorem State.closeSlot_rxd (s : State) : (s.closeSlot).rxd = s.rxd := rfl
@[simp] theorem State.closeSlot_rxb (s : State) : (s.closeSlot).rxb = s.rxb := rfl
@[simp] theorem State.closeSlot_host (s : State) : (s.closeSlot).host = s.host := rfl
@[simp] theorem State.closeSlot_replies (s : State) : (s.closeSlot).replies = s.replies := rfl
@[simp] theorem State.closeSlot_turns (s : State) : (s.closeSlot).turns = s.turns := rfl
@[simp] theorem State.closeSlot_drawn (s : State) : (s.closeSlot).drawn = s.drawn := rfl

/-! ### State.dropBits -/

@[simp] theorem State.dropBits_cfg (s : State) : (s.dropBits).cfg = s.cfg := rfl
@[simp] theorem State.dropBits_startMarker (s : State) : (s.dropBits).startMarker = s.startMarker := rfl
@[simp] theorem State.dropBits_endMarker (s : State) : (s.dropBits).endMarker = s.endMarker := rfl
@[simp] theorem State.dropBits_err (s : State) : (s.dropBits).err = s.err := rfl
@[simp] theorem State.dropBits_errInfo (s : State) : (s.dropBits).errInfo = s.errInfo := rfl
@[simp] theorem State.dropBits_tx (s : State) : (s.dropBits).tx = s.tx := rfl
@[simp] theorem State.dropBits_rx_op (s : State) : (s.dropBits).rx.op = s.rx.op := rfl
@[simp] theorem State.dropBits_rx_busy (s : State) : (s.dropBits).rx.busy = s.rx.busy := rfl
@[simp] theorem State.dropBits_rx_done (s : State) : (s.dropBits).rx.done = s.rx.done := rfl
@[simp] theorem State.dropBits_rx_eos (s : State) : (s.dropBits).rx.eos = s.rx.eos := rfl
@[simp] theorem State.dropBits_rx_pos (s : State) : (s.dropBits).rx.pos = s.rx.pos := rfl
@[simp] theorem State.dropBits_rx_bytes (s : State) : (s.dropBits).rx.bytes = s.rx.bytes := rfl
@[simp] theorem State.dropBits_rx_cfg (s : State) : (s.dropBits).rx.cfg = s.rx.cfg := rfl
@[simp] theorem State.dropBits_rx_k (s : State) : (s.dropBits).rx.k = s.rx.k := rfl
@[simp] theorem State.dropBits_rx_buf (s : State) : (s.dropBits).rx.buf = s.rx.buf := rfl
@[simp] theorem State.dropBits_rx_fail (s : State) : (s.dropBits).rx.fail = s.rx.fail := rfl
@[simp] theorem State.dropBits_rx_dsShift (s : State) : (s.dropBits).rx.dsShift = s.rx.dsShift := rfl
@[simp] theorem State.dropBits_rx_dsCnt (s : State) : (s.dropBits).rx.dsCnt = 0 := rfl
@[simp] theorem State.dropBits_hp (s : State) : (s.dropBits).hp = s.hp := rfl
@[simp] theorem State.dropBits_txd (s : State) : (s.dropBits).txd = s.txd := rfl
@[simp] theorem State.dropBits_txs (s : State) : (s.dropBits).txs = s.txs := rfl
@[simp] theorem State.dropBits_rxs (s : State) : (s.dropBits).rxs = s.rxs := rfl
@[simp] theorem State.dropBits_rxd (s : State) : (s.dropBits).rxd = s.rxd := rfl
@[simp] theorem State.dropBits_rxb (s : State) : (s.dropBits).rxb = s.rxb := rfl
@[simp] theorem State.dropBits_host (s : State) : (s.dropBits).host = s.host := rfl
@[simp] theorem State.dropBits_replies (s : State) : (s.dropBits).replies = s.replies := rfl
@[simp] theorem State.dropBits_turns (s : State) : (s.dropBits).turns = s.turns := rfl
@[simp] theorem State.dropBits_drawn (s : State) : (s.dropBits).drawn = s.drawn := rfl

/-! ### State.clearDeserializer -/

@[simp] theorem State.clearDeserializer_cfg (s : State) : (s.clearDeserializer).cfg = s.cfg := rfl
@[simp] theorem State.clearDeserializer_startMarker (s : State) : (s.clearDeserializer).startMarker = s.startMarker := rfl
@[simp] theorem State.clearDeserializer_endMarker (s : State) : (s.clearDeserializer).endMarker = s.endMarker := rfl
@[simp] theorem State.clearDeserializer_err (s : State) : (s.clearDeserializer).err = s.err := rfl
@[simp] theorem State.clearDeserializer_errInfo (s : State) : (s.clearDeserializer).errInfo = s.errInfo := rfl
@[simp] theorem State.clearDeserializer_tx (s : State) : (s.clearDeserializer).tx = s.tx := rfl
@[simp] theorem State.clearDeserializer_rx_op (s : State) : (s.clearDeserializer).rx.op = s.rx.op := rfl
@[simp] theorem State.clearDeserializer_rx_busy (s : State) : (s.clearDeserializer).rx.busy = s.rx.busy := rfl
@[simp] theorem State.clearDeserializer_rx_done (s : State) : (s.clearDeserializer).rx.done = s.rx.done := rfl
@[simp] theorem State.clearDeserializer_rx_eos (s : State) : (s.clearDeserializer).rx.eos = s.rx.eos := rfl
@[simp] theorem State.clearDeserializer_rx_pos (s : State) : (s.clearDeserializer).rx.pos = s.rx.pos := rfl
@[simp] theorem State.clearDeserializer_rx_bytes (s : State) : (s.clearDeserializer).rx.bytes = s.rx.bytes := rfl
@[simp] theorem State.clearDeserializer_rx_cfg (s : State) : (s.clearDeserializer).rx.cfg = s.rx.cfg := rfl
@[simp] theorem State.clearDeserializer_rx_k (s : State) : (s.clearDeserializer).rx.k = s.rx.k := rfl
@[simp] theorem State.clearDeserializer_rx_buf (s : State) : (s.clearDeserializer).rx.buf = s.rx.buf := rfl
@[simp] theorem State.clearDeserializer_rx_fail (s : State) : (s.clearDeserializer).rx.fail = s.rx.fail := rfl
@[simp] theorem State.clearDeserializer_rx_dsShift (s : State) : (s.clearDeserializer).rx.dsShift = 0#8 := rfl
@[simp] theorem State.clearDeserializer_rx_dsCnt (s : State) : (s.clearDeserializer).rx.dsCnt = 0 := rfl
@[simp] theorem State.clearDeserializer_hp (s : State) : (s.clearDeserializer).hp = s.hp := rfl
@[simp] theorem State.clearDeserializer_txd (s : State) : (s.clearDeserializer).txd = s.txd := rfl
@[simp] theorem State.clearDeserializer_txs (s : State) : (s.clearDeserializer).txs = s.txs := rfl
@[simp] theorem State.clearDeserializer_rxs (s : State) : (s.clearDeserializer).rxs = s.rxs := rfl
@[simp] theorem State.clearDeserializer_rxd (s : State) : (s.clearDeserializer).rxd = s.rxd := rfl
@[simp] theorem State.clearDeserializer_rxb (s : State) : (s.clearDeserializer).rxb = s.rxb := rfl
@[simp] theorem State.clearDeserializer_host (s : State) : (s.clearDeserializer).host = s.host := rfl
@[simp] theorem State.clearDeserializer_replies (s : State) : (s.clearDeserializer).replies = s.replies := rfl
@[simp] theorem State.clearDeserializer_turns (s : State) : (s.clearDeserializer).turns = s.turns := rfl
@[simp] theorem State.clearDeserializer_drawn (s : State) : (s.clearDeserializer).drawn = s.drawn := rfl

/-! ### hpStart -/

@[simp] theorem hpStart_cfg (s : State) : (hpStart s).cfg = s.cfg := rfl
@[simp] theorem hpStart_startMarker (s : State) : (hpStart s).startMarker = s.startMarker := rfl
@[simp] theorem hpStart_endMarker (s : State) : (hpStart s).endMarker = s.endMarker := rfl
@[simp] theorem hpStart_err (s : State) : (hpStart s).err = s.err := rfl
@[simp] theorem hpStart_errInfo (s : State) : (hpStart s).errInfo = s.errInfo := rfl
@[simp] theorem hpStart_tx (s : State) : (hpStart s).tx = s.tx := rfl
@[simp] theorem hpStart_rx_op (s : State) : (hpStart s).rx.op = s.rx.op := rfl
@[simp] theorem hpStart_rx_busy (s : State) : (hpStart s).rx.busy = s.rx.busy := rfl
@[simp] theorem hpStart_rx_done (s : State) : (hpStart s).rx.done = s.rx.done := rfl
@[simp] theorem hpStart_rx_eos (s : State) : (hpStart s).rx.eos = s.rx.eos := rfl
@[simp] theorem hpStart_rx_pos (s : State) : (hpStart s).rx.pos = s.rx.pos := rfl
@[simp] theorem hpStart_rx_bytes (s : State) : (hpStart s).rx.bytes = 0#32 := rfl
@[simp] theorem hpStart_rx_cfg (s : State) : (hpStart s).rx.cfg = s.rx.cfg := rfl
@[simp] theorem hpStart_rx_k (s : State) : (hpStart s).rx.k = s.rx.k := rfl
@[simp] theorem hpStart_rx_buf (s : State) : (hpStart s).rx.buf = s.rx.buf := rfl
@[simp] theorem hpStart_rx_fail (s : State) : (hpStart s).rx.fail = false := rfl
@[simp] theorem hpStart_rx_dsShift (s : State) : (hpStart s).rx.dsShift = s.rx.dsShift := rfl
@[simp] theorem hpStart_rx_dsCnt (s : State) : (hpStart s).rx.dsCnt = s.rx.dsCnt := rfl
@[simp] theorem hpStart_hp_state (s : State) : (hpStart s).hp.state = .len := rfl
@[simp] theorem hpStart_hp_cnt (s : State) : (hpStart s).hp.cnt = 0 := rfl
@[simp] theorem hpStart_hp_len (s : State) : (hpStart s).hp.len = 0#32 := rfl
@[simp] theorem hpStart_hp_total (s : State) : (hpStart s).hp.total = 0 := rfl
@[simp] theorem hpStart_hp_u8 (s : State) : (hpStart s).hp.u8 = .acc := rfl
@[simp] theorem hpStart_hp_matched (s : State) : (hpStart s).hp.matched = 0b1111#4 := rfl
@[simp] theorem hpStart_hp_hdrLen (s : State) : (hpStart s).hp.hdrLen = 0#32 := rfl
@[simp] theorem hpStart_hp_method (s : State) : (hpStart s).hp.method = none := rfl
@[simp] theorem hpStart_txd (s : State) : (hpStart s).txd = s.txd := rfl
@[simp] theorem hpStart_txs (s : State) : (hpStart s).txs = s.txs := rfl
@[simp] theorem hpStart_rxs (s : State) : (hpStart s).rxs = s.rxs := rfl
@[simp] theorem hpStart_rxd (s : State) : (hpStart s).rxd = s.rxd := rfl
@[simp] theorem hpStart_rxb (s : State) : (hpStart s).rxb = s.rxb := rfl
@[simp] theorem hpStart_host (s : State) : (hpStart s).host = s.host := rfl
@[simp] theorem hpStart_replies (s : State) : (hpStart s).replies = s.replies := rfl
@[simp] theorem hpStart_turns (s : State) : (hpStart s).turns = s.turns := rfl
@[simp] theorem hpStart_drawn (s : State) : (hpStart s).drawn = s.drawn := rfl

/-! ### rawStart -/

@[simp] theorem rawStart_cfg (s : State) : (rawStart s).cfg = s.cfg := rfl
@[simp] theorem rawStart_startMarker (s : State) : (rawStart s).startMarker = s.startMarker := rfl
@[simp] theorem rawStart_endMarker (s : State) : (rawStart s).endMarker = s.endMarker := rfl
@[simp] theorem rawStart_err (s : State) : (rawStart s).err = s.err := rfl
@[simp] theorem rawStart_errInfo (s : State) : (rawStart s).errInfo = s.errInfo := rfl
@[simp] theorem rawStart_tx (s : State) : (rawStart s).tx = s.tx := rfl
@[simp] theorem rawStart_rx_op (s : State) : (rawStart s).rx.op = s.rx.op := rfl
@[simp] theorem rawStart_rx_busy (s : State) : (rawStart s).rx.busy = s.rx.busy := rfl
@[simp] theorem rawStart_rx_done (s : State) : (rawStart s).rx.done = s.rx.done := rfl
@[simp] theorem rawStart_rx_eos (s : State) : (rawStart s).rx.eos = s.rx.eos := rfl
@[simp] theorem rawStart_rx_pos (s : State) : (rawStart s).rx.pos = s.rx.pos := rfl
@[simp] theorem rawStart_rx_bytes (s : State) : (rawStart s).rx.bytes = 0#32 := rfl
@[simp] theorem rawStart_rx_cfg (s : State) : (rawStart s).rx.cfg = s.rx.cfg := rfl
@[simp] theorem rawStart_rx_k (s : State) : (rawStart s).rx.k = s.rx.k := rfl
@[simp] theorem rawStart_rx_buf (s : State) : (rawStart s).rx.buf = s.rx.buf := rfl
@[simp] theorem rawStart_rx_fail (s : State) : (rawStart s).rx.fail = s.rx.fail := rfl
@[simp] theorem rawStart_rx_dsShift (s : State) : (rawStart s).rx.dsShift = s.rx.dsShift := rfl
@[simp] theorem rawStart_rx_dsCnt (s : State) : (rawStart s).rx.dsCnt = s.rx.dsCnt := rfl
@[simp] theorem rawStart_hp_state (s : State) : (rawStart s).hp.state = s.hp.state := rfl
@[simp] theorem rawStart_hp_cnt (s : State) : (rawStart s).hp.cnt = s.hp.cnt := rfl
@[simp] theorem rawStart_hp_len (s : State) : (rawStart s).hp.len = s.hp.len := rfl
@[simp] theorem rawStart_hp_total (s : State) : (rawStart s).hp.total = 0 := rfl
@[simp] theorem rawStart_hp_u8 (s : State) : (rawStart s).hp.u8 = s.hp.u8 := rfl
@[simp] theorem rawStart_hp_matched (s : State) : (rawStart s).hp.matched = s.hp.matched := rfl
@[simp] theorem rawStart_hp_hdrLen (s : State) : (rawStart s).hp.hdrLen = s.hp.hdrLen := rfl
@[simp] theorem rawStart_hp_method (s : State) : (rawStart s).hp.method = s.hp.method := rfl
@[simp] theorem rawStart_txd (s : State) : (rawStart s).txd = s.txd := rfl
@[simp] theorem rawStart_txs (s : State) : (rawStart s).txs = s.txs := rfl
@[simp] theorem rawStart_rxs (s : State) : (rawStart s).rxs = s.rxs := rfl
@[simp] theorem rawStart_rxd (s : State) : (rawStart s).rxd = s.rxd := rfl
@[simp] theorem rawStart_rxb (s : State) : (rawStart s).rxb = s.rxb := rfl
@[simp] theorem rawStart_host (s : State) : (rawStart s).host = s.host := rfl
@[simp] theorem rawStart_replies (s : State) : (rawStart s).replies = s.replies := rfl
@[simp] theorem rawStart_turns (s : State) : (rawStart s).turns = s.turns := rfl
@[simp] theorem rawStart_drawn (s : State) : (rawStart s).drawn = s.drawn := rfl

/-! ### countByte -/

@[simp] theorem countByte_cfg (s : State) : (countByte s).cfg = s.cfg := rfl
@[simp] theorem countByte_startMarker (s : State) : (countByte s).startMarker = s.startMarker := rfl
@[simp] theorem countByte_endMarker (s : State) : (countByte s).endMarker = s.endMarker := rfl
@[simp] theorem countByte_err (s : State) : (countByte s).err = s.err := rfl
@[simp] theorem countByte_errInfo (s : State) : (countByte s).errInfo = s.errInfo := rfl
@[simp] theorem countByte_tx (s : State) : (countByte s).tx = s.tx := rfl
@[simp] theorem countByte_rx_op (s : State) : (countByte s).rx.op = s.rx.op := rfl
@[simp] theorem countByte_rx_busy (s : State) : (countByte s).rx.busy = s.rx.busy := rfl
@[simp] theorem countByte_rx_done (s : State) : (countByte s).rx.done = s.rx.done := rfl
@[simp] theorem countByte_rx_eos (s : State) : (countByte s).rx.eos = s.rx.eos := rfl
@[simp] theorem countByte_rx_pos (s : State) : (countByte s).rx.pos = s.rx.pos := rfl
@[simp] theorem countByte_rx_bytes (s : State) : (countByte s).rx.bytes = s.rx.bytes + 1#32 := rfl
@[simp] theorem countByte_rx_cfg (s : State) : (countByte s).rx.cfg = s.rx.cfg := rfl
@[simp] theorem countByte_rx_k (s : State) : (countByte s).rx.k = s.rx.k := rfl
@[simp] theorem countByte_rx_buf (s : State) : (countByte s).rx.buf = s.rx.buf := rfl
@[simp] theorem countByte_rx_fail (s : State) : (countByte s).rx.fail = s.rx.fail := rfl
@[simp] theorem countByte_rx_dsShift (s : State) : (countByte s).rx.dsShift = s.rx.dsShift := rfl
@[simp] theorem countByte_rx_dsCnt (s : State) : (countByte s).rx.dsCnt = s.rx.dsCnt := rfl
@[simp] theorem countByte_hp_state (s : State) : (countByte s).hp.state = s.hp.state := rfl
@[simp] theorem countByte_hp_cnt (s : State) : (countByte s).hp.cnt = s.hp.cnt := rfl
@[simp] theorem countByte_hp_len (s : State) : (countByte s).hp.len = s.hp.len := rfl
@[simp] theorem countByte_hp_total (s : State) : (countByte s).hp.total = s.hp.total + 1 := rfl
@[simp] theorem countByte_hp_u8 (s : State) : (countByte s).hp.u8 = s.hp.u8 := rfl
@[simp] theorem countByte_hp_matched (s : State) : (countByte s).hp.matched = s.hp.matched := rfl
@[simp] theorem countByte_hp_hdrLen (s : State) : (countByte s).hp.hdrLen = s.hp.hdrLen := rfl
@[simp] theorem countByte_hp_method (s : State) : (countByte s).hp.method = s.hp.method := rfl
@[simp] theorem countByte_txd (s : State) : (countByte s).txd = s.txd := rfl
@[simp] theorem countByte_txs (s : State) : (countByte s).txs = s.txs := rfl
@[simp] theorem countByte_rxs (s : State) : (countByte s).rxs = s.rxs := rfl
@[simp] theorem countByte_rxd (s : State) : (countByte s).rxd = s.rxd := rfl
@[simp] theorem countByte_rxb (s : State) : (countByte s).rxb = s.rxb := rfl
@[simp] theorem countByte_host (s : State) : (countByte s).host = s.host := rfl
@[simp] theorem countByte_replies (s : State) : (countByte s).replies = s.replies := rfl
@[simp] theorem countByte_turns (s : State) : (countByte s).turns = s.turns := rfl
@[simp] theorem countByte_drawn (s : State) : (countByte s).drawn = s.drawn := rfl

/-! ### State.resetBlock -/

@[simp] theorem State.resetBlock_cfg (s : State) : (s.resetBlock).cfg = resetCfg := rfl
@[simp] theorem State.resetBlock_startMarker (s : State) : (s.resetBlock).startMarker = Config.defStartMarker := rfl
@[simp] theorem State.resetBlock_endMarker (s : State) : (s.resetBlock).endMarker = Config.defEndMarker := rfl
@[simp] theorem State.resetBlock_err (s : State) : (s.resetBlock).err = .noError := rfl
@[simp] theorem State.resetBlock_errInfo (s : State) : (s.resetBlock).errInfo = 0#32 := rfl
@[simp] theorem State.resetBlock_tx (s : State) : (s.resetBlock).tx = .reset := rfl
@[simp] theorem State.resetBlock_rx (s : State) : (s.resetBlock).rx = .reset := rfl
@[simp] theorem State.resetBlock_hp (s : State) : (s.resetBlock).hp = .reset := rfl
@[simp] theorem State.resetBlock_txd (s : State) : (s.resetBlock).txd = [] := rfl
@[simp] theorem State.resetBlock_txs (s : State) : (s.resetBlock).txs = [] := rfl
@[simp] theorem State.resetBlock_rxs (s : State) : (s.resetBlock).rxs = [] := rfl
@[simp] theorem State.resetBlock_rxd (s : State) : (s.resetBlock).rxd = [] := rfl
@[simp] theorem State.resetBlock_rxb (s : State) : (s.resetBlock).rxb = [] := rfl
@[simp] theorem State.resetBlock_host (s : State) : (s.resetBlock).host = s.host := rfl
@[simp] theorem State.resetBlock_replies (s : State) : (s.resetBlock).replies = s.replies := rfl
@[simp] theorem State.resetBlock_turns (s : State) : (s.resetBlock).turns = s.turns := rfl
@[simp] theorem State.resetBlock_drawn (s : State) : (s.resetBlock).drawn = s.drawn := rfl

/-! ### State.raise -/

/-- The error entry touches `ERR` and `ERRINFO` only (R225). -/
theorem State.raise_eq (c : Cause) (info : Nat) (s : State) :
    s.raise c info = { s with err := (s.raise c info).err, errInfo := (s.raise c info).errInfo } := by
  unfold State.raise
  split <;> rfl

@[simp] theorem State.raise_err (c : Cause) (info : Nat) (s : State) :
    (s.raise c info).err = if s.err = .noError then c else s.err := by
  unfold State.raise
  split <;> simp_all

@[simp] theorem State.raise_errInfo (c : Cause) (info : Nat) (s : State) :
    (s.raise c info).errInfo = if s.err = .noError then BitVec.ofNat 32 info else s.errInfo := by
  unfold State.raise
  split <;> simp_all

@[simp] theorem State.raise_cfg (c : Cause) (info : Nat) (s : State) : (s.raise c info).cfg = s.cfg := by
  rw [State.raise_eq]
@[simp] theorem State.raise_startMarker (c : Cause) (info : Nat) (s : State) : (s.raise c info).startMarker = s.startMarker := by
  rw [State.raise_eq]
@[simp] theorem State.raise_endMarker (c : Cause) (info : Nat) (s : State) : (s.raise c info).endMarker = s.endMarker := by
  rw [State.raise_eq]
@[simp] theorem State.raise_tx (c : Cause) (info : Nat) (s : State) : (s.raise c info).tx = s.tx := by
  rw [State.raise_eq]
@[simp] theorem State.raise_rx (c : Cause) (info : Nat) (s : State) : (s.raise c info).rx = s.rx := by
  rw [State.raise_eq]
@[simp] theorem State.raise_hp (c : Cause) (info : Nat) (s : State) : (s.raise c info).hp = s.hp := by
  rw [State.raise_eq]
@[simp] theorem State.raise_txd (c : Cause) (info : Nat) (s : State) : (s.raise c info).txd = s.txd := by
  rw [State.raise_eq]
@[simp] theorem State.raise_txs (c : Cause) (info : Nat) (s : State) : (s.raise c info).txs = s.txs := by
  rw [State.raise_eq]
@[simp] theorem State.raise_rxs (c : Cause) (info : Nat) (s : State) : (s.raise c info).rxs = s.rxs := by
  rw [State.raise_eq]
@[simp] theorem State.raise_rxd (c : Cause) (info : Nat) (s : State) : (s.raise c info).rxd = s.rxd := by
  rw [State.raise_eq]
@[simp] theorem State.raise_rxb (c : Cause) (info : Nat) (s : State) : (s.raise c info).rxb = s.rxb := by
  rw [State.raise_eq]
@[simp] theorem State.raise_host (c : Cause) (info : Nat) (s : State) : (s.raise c info).host = s.host := by
  rw [State.raise_eq]
@[simp] theorem State.raise_replies (c : Cause) (info : Nat) (s : State) : (s.raise c info).replies = s.replies := by
  rw [State.raise_eq]
@[simp] theorem State.raise_turns (c : Cause) (info : Nat) (s : State) : (s.raise c info).turns = s.turns := by
  rw [State.raise_eq]
@[simp] theorem State.raise_drawn (c : Cause) (info : Nat) (s : State) : (s.raise c info).drawn = s.drawn := by
  rw [State.raise_eq]

end Sys2Proof.Machine
end

