-- ==== Sys2Proof/Laws/Engines.lean ====
section
/-! SUPPORT. What each engine's step can touch, said once: it is the state with that engine's own fields replaced, and how the shared operations answer. -/

namespace Sys2Proof.Machine

/-! ### The issue procedure -/

/-- Everything the issue procedure can do (R200 steps 4 to 7). -/
theorem issueCommand_cases (i : Instr) (accept : State → State) (s : State) :
    (s.err ≠ .noError ∧ issueCommand i accept s = s)
    ∨ (s.err = .noError ∧ s.classBusy i.commandClass = true
        ∧ issueCommand i accept s = s.raise .cmdBusy (encode i).toNat)
    ∨ (s.err = .noError ∧ s.classBusy i.commandClass = false ∧ i.usesCfg = true ∧ cfgchk s.cfg ≠ 0#32
        ∧ issueCommand i accept s = s.raise .cfgInvalid (cfgchk s.cfg).toNat)
    ∨ (s.err = .noError ∧ s.classBusy i.commandClass = false
        ∧ (i.usesCfg = true → cfgchk s.cfg = 0#32) ∧ issueCommand i accept s = accept s) := by
  unfold issueCommand
  by_cases h1 : s.err = .noError
  · by_cases h2 : s.classBusy i.commandClass = true
    · simp [h1, h2]
    · by_cases h3 : i.usesCfg = true ∧ cfgchk s.cfg ≠ 0#32
      · simp [h1, h2, h3]
      · refine .inr (.inr (.inr ⟨h1, by simpa using h2, fun hu => ?_, ?_⟩))
        · by_contra hc
          exact h3 ⟨hu, hc⟩
        · rw [if_neg (by simpa using h1), if_neg h2, if_neg h3]
  · simp [h1]

/-- A command is accepted when no error is recorded, its engine is idle and the configuration is valid if used. -/
theorem issueCommand_accepts {i : Instr} {accept : State → State} {s : State} (he : s.err = .noError)
    (hb : s.classBusy i.commandClass = false) (hc : i.usesCfg = true → cfgchk s.cfg = 0#32) :
    issueCommand i accept s = accept s := by
  obtain ⟨h, -⟩ | ⟨-, h, -⟩ | ⟨-, -, hu, h, -⟩ | ⟨-, -, -, h⟩ := issueCommand_cases i accept s
  · exact absurd he h
  · simp [hb] at h
  · exact absurd (hc hu) h
  · exact h

/-! ### What TX touches -/

theorem TxFrame.refl (s : State) : TxFrame s s := rfl

theorem TxFrame.trans {s t u : State} (h : TxFrame s t) (h' : TxFrame t u) : TxFrame s u := by
  unfold TxFrame at *
  rw [h'] ; rw [h]

theorem completeTx_frame (s : State) : TxFrame s s.completeTx := rfl

theorem pushTxs_frame (x : Item Sample) (s : State) : TxFrame s (s.pushTxs x) := rfl

theorem fetchStep_frame (s : State) : TxFrame s (fetchStep s) := by
  unfold fetchStep
  repeat' split
  all_goals rfl

theorem slotStep_frame (num : Numerics Sample) (s : State) : TxFrame s (slotStep num s) := by
  unfold slotStep
  repeat' split
  all_goals first | rfl | exact fetchStep_frame s

/-- A step of `TX` touches only what is `TX`'s (R78). -/
theorem txStep_frame (num : Numerics Sample) (s : State) : TxFrame s (txStep num s) := by
  unfold txStep toneStep silStep
  repeat' split
  all_goals first | rfl | exact slotStep_frame num s

theorem txRun_frame (num : Numerics Sample) (n : Nat) (s : State) : TxFrame s (txRun num n s) := by
  induction n generalizing s with
  | zero => rfl
  | succ n ih => exact (txStep_frame num s).trans (ih _)

theorem txRun_add (num : Numerics Sample) (m n : Nat) (s : State) :
    txRun num (m + n) s = txRun num n (txRun num m s) := by
  induction m generalizing s with
  | zero => simp [txRun]
  | succ m ih => rw [Nat.succ_add]; exact ih _

/-! ### What RX touches -/

theorem RxFrame.refl (s : State) : RxFrame s s := rfl

theorem RxFrame.trans {s t u : State} (h : RxFrame s t) (h' : RxFrame t u) : RxFrame s u := by
  unfold RxFrame at *
  rw [h'] ; rw [h]

/-- The same, the later part first, so that the state between is read off it. -/
theorem RxFrame.after {s t u : State} (h' : RxFrame t u) (h : RxFrame s t) : RxFrame s u :=
  h.trans h'

theorem RxFrame.complete {s t : State} (h : RxFrame s t) : RxFrame s t.completeRx :=
  h.trans rfl

theorem RxFrame.push {s t : State} (h : RxFrame s t) (x : Item Byte) : RxFrame s (t.pushRxd x) :=
  h.trans rfl

theorem raise_frame (c : Cause) (info : Nat) (s : State) : RxFrame s (s.raise c info) := by
  unfold State.raise
  split <;> rfl

theorem failHeader_frame (c : Cause) (s : State) : RxFrame s (failHeader c s) :=
  RxFrame.trans (t := { s with hp := { s.hp with state := .fail }, rx := { s.rx with fail := true } })
    rfl (raise_frame ..)

theorem nameDone_frame (s : State) : RxFrame s (nameDone s) := by
  unfold nameDone
  repeat' split
  all_goals first | exact failHeader_frame .. | rfl

theorem hpByte_frame (b : Byte) (s : State) : RxFrame s (hpByte b s) := by
  unfold hpByte lenByte nameByte
  dsimp only
  repeat' split
  all_goals first | rfl | exact (nameDone_frame _).after rfl

theorem hpEnd_frame (s : State) : RxFrame s (hpEnd s) := by
  unfold hpEnd
  split
  · exact RxFrame.trans (t := { s with hp := { s.hp with state := .fail } }) rfl (raise_frame ..)
  · rfl

theorem hparseStep_frame (s : State) : RxFrame s (hparseStep s) := by
  unfold hparseStep parseByte
  repeat' split
  · rfl
  · exact RxFrame.complete (RxFrame.push (RxFrame.after (hpEnd_frame _) (by rfl)) _)
  · rfl
  · exact (hpByte_frame ..).after rfl

theorem emitByte_frame (b : Byte) (s : State) : RxFrame s (emitByte b s) := by
  unfold emitByte
  split
  all_goals first | rfl | exact (hpByte_frame ..).after rfl

theorem giveBit_frame (b : Bool) (s : State) : RxFrame s (giveBit emitByte b s) := by
  unfold giveBit
  dsimp only
  split
  · exact (emitByte_frame ..).after rfl
  · rfl

theorem closeRxSlot_frame (num : Numerics Sample) (s : State) : RxFrame s (closeRxSlot num s) := by
  unfold closeRxSlot
  dsimp only
  split
  · exact RxFrame.complete (RxFrame.after (giveBit_frame ..) (by rfl))
  · exact (giveBit_frame ..).after rfl

theorem takeSample_frame (num : Numerics Sample) (x : Sample) (s : State) : RxFrame s (takeSample num x s) := by
  unfold takeSample
  dsimp only
  split
  · exact (closeRxSlot_frame ..).after rfl
  · rfl

theorem endOfSamples_frame (s : State) : RxFrame s (endOfSamples s) := by
  unfold endOfSamples
  split
  all_goals first | rfl | exact RxFrame.complete (RxFrame.push (RxFrame.after (hpEnd_frame _) (by rfl)) _)

theorem sampleStep_frame (num : Numerics Sample) (s : State) : RxFrame s (sampleStep num s) := by
  unfold sampleStep
  repeat' split
  · rfl
  · exact (endOfSamples_frame _).after rfl
  · rfl
  · exact (takeSample_frame ..).after rfl

/-- A step of `RX` touches only what is `RX`'s (R78). -/
theorem rxStep_frame (num : Numerics Sample) (s : State) : RxFrame s (rxStep num s) := by
  unfold rxStep
  split
  all_goals first | rfl | exact sampleStep_frame num s | exact hparseStep_frame s

theorem rxRun_frame (num : Numerics Sample) (n : Nat) (s : State) : RxFrame s (rxRun num n s) := by
  induction n generalizing s with
  | zero => rfl
  | succ n ih => exact (rxStep_frame num s).trans (ih _)

theorem rxRun_add (num : Numerics Sample) (m n : Nat) (s : State) :
    rxRun num (m + n) s = rxRun num n (rxRun num m s) := by
  induction m generalizing s with
  | zero => simp [rxRun]
  | succ m ih => rw [Nat.succ_add]; exact ih _

/-! ### Depths -/

/-- With unbounded streams no step holds (R64). -/
theorem heldOr_unbounded (s s' : State) : heldOr referenceParams.depth s s' = s' := by
  simp [heldOr, fits, roomFor, referenceParams]

end Sys2Proof.Machine
end

