-- ==== Sys2Proof/Laws/Receive.lean ====
section
/-! SUPPORT. What the slot framer does with the samples of a slot and of a buffer, and when a receive command completes. -/

namespace Sys2Proof.Machine

/-! ### One slot -/

theorem rxStep_samples {num : Numerics Sample} {s : State} (h : s.rx.op.usesCfg = true) :
    rxStep num s = sampleStep num s := by
  unfold rxStep
  split <;> simp_all [RxOp.usesCfg]

/-- `RX` in the middle of a slot, or at its start: `taken` are the samples of the slot popped so far. -/
structure State.Framing (s : State) (taken : List Sample) : Prop where
  samples : s.rx.op.usesCfg = true
  alive : s.rx.fail = false
  k : s.rx.k = taken.length
  buf : s.rx.buf.take (min taken.length s.rx.cfg.nTone) = taken.take s.rx.cfg.nTone

/-- The tone region stays the popped samples' first `n_tone` when one more is popped (R169). -/
theorem bufWith_take {s : State} {taken : List Sample} (h : s.Framing taken) (x : Sample) :
    (s.rx.bufWith x).take (min (taken.length + 1) s.rx.cfg.nTone)
      = (taken ++ [x]).take s.rx.cfg.nTone := by
  have hb := h.buf
  unfold RxState.bufWith storeSample
  rw [h.k]
  split
  · rename_i hlt
    rw [min_eq_left (by omega), List.take_of_length_le (l := taken) (by omega)] at hb
    rw [min_eq_left (by omega), hb, List.take_of_length_le (by simp), List.take_of_length_le (by simp; omega)]
  · rename_i hge
    rw [min_eq_right (by omega)] at hb
    rw [min_eq_right (by omega), List.take_append_of_le_length (by omega), hb]

/-- The state after a popped sample that does not fill its slot. -/
def State.tookSample (s : State) (x : Sample) (rest : List (Item Sample)) : State :=
  { s with rxs := rest, rx := { s.rx with buf := s.rx.bufWith x, k := s.rx.k + 1 } }

theorem rxStep_sample {num : Numerics Sample} {s : State} {taken : List Sample} {x : Sample}
    {rest : List (Item Sample)} (h : s.Framing taken) (hx : s.rxs = .data x :: rest) :
    rxStep num s = if s.rx.k + 1 = s.rx.cfg.nSlot then closeRxSlot num (s.tookSample x rest)
      else s.tookSample x rest := by
  rw [rxStep_samples h.samples, sampleStep, hx]
  dsimp only
  rw [if_neg (by simp [h.alive])]
  rfl

theorem tookSample_framing {s : State} {taken : List Sample} {x : Sample} {rest : List (Item Sample)}
    (h : s.Framing taken) : (s.tookSample x rest).Framing (taken ++ [x]) :=
  ⟨h.samples, h.alive, by simp [State.tookSample, h.k], by
    have hb := bufWith_take h x
    simpa [State.tookSample] using hb⟩

/-- The state with part of a slot popped: nothing but `RXS`, `rx_k` and `rx_buf` has changed. -/
def State.mid (s : State) (rest : List (Item Sample)) (k : Nat) (buf : List Sample) : State :=
  { s with rxs := rest, rx := { s.rx with k := k, buf := buf } }

/-- Samples that do not fill the slot are popped and nothing else happens (R169). -/
theorem rxRun_partial (num : Numerics Sample) (xs taken : List Sample) (rest : List (Item Sample)) (s : State)
    (h : s.Framing taken) (hl : taken.length + xs.length < s.rx.cfg.nSlot)
    (hx : s.rxs = xs.map .data ++ rest) :
    ∃ buf, rxRun num xs.length s = s.mid rest (taken.length + xs.length) buf
      ∧ (s.mid rest (taken.length + xs.length) buf).Framing (taken ++ xs) := by
  induction xs generalizing s taken with
  | nil =>
    refine ⟨s.rx.buf, ?_, ?_⟩
    · simp only [List.length_nil, rxRun, State.mid]
      rw [← h.k, show rest = s.rxs by simpa using hx.symm]
      rfl
    · exact ⟨h.samples, h.alive, by simp [State.mid], by simpa [State.mid] using h.buf⟩
  | cons x xs ih =>
    have hs := rxStep_sample (num := num) h hx
    rw [if_neg (by rw [h.k]; simp at hl; omega)] at hs
    obtain ⟨buf, h1, h2⟩ := ih (taken ++ [x]) (s.tookSample x (xs.map .data ++ rest))
      (tookSample_framing h) (by simp [State.tookSample] at hl ⊢; omega) rfl
    have e : (taken ++ [x]).length + xs.length = taken.length + (x :: xs).length := by
      simp; omega
    rw [e] at h1 h2
    refine ⟨buf, ?_, ?_⟩
    · rw [List.length_cons, rxRun, hs]
      exact h1
    · rw [List.append_assoc] at h2
      exact h2

/-- The state in which a whole slot has been popped and counted, its bit about to go to the deserializer. -/
def State.slotPopped (s : State) (rest : List (Item Sample)) (buf : List Sample) : State :=
  { s with rxs := rest, rx := { s.rx with buf := buf, pos := s.rx.pos + 1#32, k := 0 } }

/-- A whole slot is popped, its bit is that of the first `n_tone` samples, it is counted and given to the deserializer, and
`RXSLOT` completes (R169). -/
theorem rxRun_slot (num : Numerics Sample) (xs : List Sample) (rest : List (Item Sample)) (s : State)
    (h : s.Framing []) (hl : xs.length = s.rx.cfg.nSlot) (hpos : 0 < s.rx.cfg.nSlot)
    (hn : s.rx.cfg.nTone ≤ s.rx.cfg.nSlot) (hx : s.rxs = xs.map .data ++ rest) :
    ∃ buf, rxRun num xs.length s =
      let t := giveBit emitByte (s.rx.cfg.classify num (xs.take s.rx.cfg.nTone)) (s.slotPopped rest buf)
      if s.rx.op = .rxslot then t.completeRx else t := by
  obtain ⟨ys, y, rfl⟩ : ∃ ys y, xs = ys ++ [y] := by
    rcases List.eq_nil_or_concat xs with h0 | ⟨ys, y, h0⟩
    · simp [h0] at hl; omega
    · exact ⟨ys, y, by simpa using h0⟩
  have hlen : ys.length + 1 = s.rx.cfg.nSlot := by simpa using hl
  obtain ⟨buf, h1, h2⟩ := rxRun_partial num ys [] (.data y :: rest) s h (by simp; omega)
    (by simpa using hx)
  have hs := rxStep_sample (num := num) h2 (x := y) (rest := rest) rfl
  rw [if_pos (by simpa [State.mid] using hlen)] at hs
  refine ⟨(s.mid (.data y :: rest) (([] : List Sample).length + ys.length) buf).rx.bufWith y, ?_⟩
  have hb := (tookSample_framing (x := y) (rest := rest) h2).buf
  have hm : min (([] : List Sample) ++ ys ++ [y]).length s.rx.cfg.nTone = s.rx.cfg.nTone := by
    simp; omega
  rw [show (([] ++ ys ++ [y] : List Sample)).length = (ys ++ [y]).length by simp] at hm hb
  simp only [State.tookSample, State.mid, hm, List.nil_append] at hb
  rw [List.length_append, List.length_singleton, rxRun_add, h1, rxRun, rxRun, hs]
  simp only [closeRxSlot, State.tookSample, State.mid]
  rw [hb]
  rfl

/-! ### Completion -/

theorem rxStep_idle {num : Numerics Sample} {s : State} (h : s.rx.op = .idle) : rxStep num s = s := by
  simp [rxStep, h]

theorem rxRun_idle (num : Numerics Sample) (n : Nat) {s : State} (h : s.rx.op = .idle) : rxRun num n s = s := by
  induction n with
  | zero => rfl
  | succ n ih => rw [rxRun, rxStep_idle h, ih]

theorem failHeader_engine (c : Cause) (s : State) :
    (failHeader c s).rx = { s.rx with fail := true } := by
  simp [failHeader]

theorem nameDone_engine (s : State) :
    (nameDone s).rx.busy = s.rx.busy ∧ (nameDone s).rx.op = s.rx.op := by
  unfold nameDone
  repeat' split
  all_goals simp [failHeader_engine]

theorem hpByte_engine (b : Byte) (s : State) :
    (hpByte b s).rx.busy = s.rx.busy ∧ (hpByte b s).rx.op = s.rx.op := by
  unfold hpByte lenByte nameByte
  dsimp only
  repeat' split
  all_goals first | exact ⟨(nameDone_engine _).1, (nameDone_engine _).2⟩ | simp

theorem hpEnd_engine (s : State) : (hpEnd s).rx = s.rx := by
  unfold hpEnd
  split <;> simp

theorem emitByte_engine (b : Byte) (s : State) :
    (emitByte b s).rx.busy = s.rx.busy ∧ (emitByte b s).rx.op = s.rx.op := by
  unfold emitByte
  split
  all_goals first | (rw [(hpByte_engine ..).1, (hpByte_engine ..).2]; simp) | simp

theorem giveBit_engine (b : Bool) (s : State) :
    (giveBit emitByte b s).rx.busy = s.rx.busy ∧ (giveBit emitByte b s).rx.op = s.rx.op := by
  unfold giveBit
  dsimp only
  split
  · exact emitByte_engine ..
  · simp

/-- A step of `RX` leaves a busy engine busy or idle (R209). -/
theorem rxStep_busy (num : Numerics Sample) (s : State) (h : s.rx.busy = true) :
    (rxStep num s).rx.busy = true ∨ (rxStep num s).rx.op = .idle := by
  unfold rxStep flushStep sampleStep hparseStep endOfSamples takeSample closeRxSlot parseByte
  dsimp only
  repeat' split
  all_goals first
    | exact .inr rfl
    | exact .inl h
    | (left; rw [(giveBit_engine ..).1]; exact h)
    | (left; rw [(hpByte_engine ..).1]; exact h)

/-- A run that ends idle with `RXDONE` is a completion: `RXBUSY` was 1 until the engine came to rest. -/
theorem RxCompletes.of_run {num : Numerics Sample} {n : Nat} {t u : State} (hr : rxRun num n t = u)
    (hb : t.rx.busy = true) (hi : u.rx.op = .idle) (hu : u.rx.busy = false) (hd : u.rx.done = true) :
    RxCompletes num t u := by
  induction n generalizing t with
  | zero =>
    subst hr
    rw [rxRun] at hu
    simp [hb] at hu
  | succ n ih =>
    rw [rxRun] at hr
    obtain h | h := rxStep_busy num t hb
    · obtain ⟨m, h1, h2, h3⟩ := ih hr h
      refine ⟨m + 1, h1, fun j hj => ?_, h3⟩
      cases j with
      | zero => exact hb
      | succ j => exact h2 j (by omega)
    · rw [rxRun_idle num n h] at hr
      refine ⟨1, hr, fun j hj => ?_, hi, hu, hd⟩
      obtain rfl : j = 0 := by omega
      exact hb

end Sys2Proof.Machine
end

