-- ==== Sys2Proof/Laws/Transmit.lean ====
section
/-! SUPPORT. What the slot sequencer emits: the samples of a segment and of a slot, and the state the engine is left in. -/

namespace Sys2Proof.Machine

/-! ### Rounding -/

theorem rndDiv_mul (p q k : Nat) (hk : 0 < k) : rndDiv (k * p) (k * q) = rndDiv p q := by
  unfold rndDiv
  rw [Nat.mul_div_mul_left _ _ hk, Nat.mul_mod_mul_left]
  have e : 2 * (k * (p % q)) = k * (2 * (p % q)) := by ring
  rw [e]
  simp only [Nat.mul_lt_mul_left hk]

/-- The rational rounding of a quotient is the exact integer one, whatever fraction names it (R15). -/
theorem rnd_div_eq (p q : Nat) (hq : 0 < q) : rnd ((p : Rat) / (q : Rat)) = rndDiv p q := by
  obtain ⟨c, hp, hd⟩ := Rat.exists_eq_mul_div_num_and_eq_mul_div_den (p : ℤ) (d := (q : ℤ))
    (by exact_mod_cast hq.ne')
  simp only [Int.cast_natCast] at hp hd
  have hden : 0 < ((p : Rat) / (q : Rat)).den := Rat.den_pos _
  have hnum : 0 ≤ ((p : Rat) / (q : Rat)).num := Rat.num_nonneg.mpr (by positivity)
  obtain ⟨n, hn⟩ := Int.eq_ofNat_of_zero_le hnum
  have hc : 0 < c := by
    by_contra h
    have : (q : ℤ) ≤ 0 := by rw [hd]; nlinarith
    omega
  obtain ⟨k, rfl⟩ := Int.eq_ofNat_of_zero_le hc.le
  unfold rnd
  rw [hn] at hp ⊢
  have hp' : p = k * n := by exact_mod_cast hp
  have hd' : q = k * ((p : Rat) / (q : Rat)).den := by exact_mod_cast hd
  have h := rndDiv_mul n ((p : Rat) / (q : Rat)).den k (by exact_mod_cast hc)
  rw [← hd', ← hp'] at h
  exact h.symm

/-- The sample count of a duration register is the exact count of R28. -/
theorem segCount_seconds (sr : Nat) (w : Word) :
    segCount sr (seconds w) = rndDiv (sr * w.toNat) unitsPerSecond := by
  unfold segCount
  split
  · rename_i h
    have h0 : w.toNat = 0 := by
      unfold seconds at h
      by_contra hne
      have hpos : (0 : Rat) < (w.toNat : Rat) / (unitsPerSecond : Rat) := by
        have h1 : 0 < w.toNat := Nat.pos_of_ne_zero hne
        have h2 : 0 < unitsPerSecond := by decide
        positivity
      exact absurd h (not_le.mpr hpos)
    simp [h0, rndDiv, unitsPerSecond]
  · rw [← rnd_div_eq _ _ (by decide)]
    congr 1
    unfold seconds
    push_cast
    ring

/-! ### One segment -/

/-- The operations that run the slot sequencer (R142). -/
def TxOp.slots : TxOp → Bool
  | .txbit | .txbyte | .txraw | .txframe => true
  | .idle | .tone | .sil | .txend => false

theorem txStep_slots {num : Numerics Sample} {s : State} (h : s.tx.op.slots = true) :
    txStep num s = slotStep num s := by
  unfold txStep
  split <;> simp_all [TxOp.slots]

/-- `TX` is in a tone segment of `TONE` or of a slot. -/
def State.inTone (s : State) : Prop :=
  s.tx.op = .tone ∨ (s.tx.op.slots = true ∧ s.tx.seg = .tone)

/-- `TX` is in a silence segment of `SIL` or of a slot. -/
def State.inSilence (s : State) : Prop :=
  s.tx.op = .sil ∨ (s.tx.op.slots = true ∧ s.tx.seg = .silence)

theorem txStep_inTone {num : Numerics Sample} {s : State} (h : s.inTone) (hk : s.tx.k < s.tx.cfg.nTone) :
    txStep num s = s.emitTone num := by
  obtain h | ⟨h, hs⟩ := h
  · simp [txStep, h, toneStep, hk]
  · rw [txStep_slots h, slotStep, hs]
    exact if_pos hk

theorem txStep_inSilence {num : Numerics Sample} {s : State} (h : s.inSilence)
    (hk : s.tx.k < s.tx.cfg.nSil) : txStep num s = s.emitZero num := by
  obtain h | ⟨h, hs⟩ := h
  · simp [txStep, h, silStep, hk]
  · rw [txStep_slots h, slotStep, hs]
    exact if_pos hk

/-- The state after samples were pushed and the sample index moved to `k`. -/
def State.emitted (s : State) (xs : List Sample) (k : Nat) : State :=
  { s with txs := s.txs ++ xs.map .data, tx := { s.tx with k := k } }

/-- In a tone segment `m` steps push the next `m` tone samples (R142). -/
theorem txRun_tone (num : Numerics Sample) (m : Nat) (s : State) (h : s.inTone)
    (hk : s.tx.k + m ≤ s.tx.cfg.nTone) :
    txRun num m s = s.emitted
      ((List.range' s.tx.k m).map fun k => num.sinS (s.tx.cfg.phase s.tx.sym k)) (s.tx.k + m) := by
  induction m generalizing s with
  | zero => simp [txRun, State.emitted]
  | succ m ih =>
    rw [txRun, txStep_inTone h (by omega), ih (s.emitTone num) h (by simp; omega)]
    simp [State.emitted, List.range'_succ, State.emitTone, State.pushTxs]
    omega

/-- In a silence segment `m` steps push `m` zero samples (R142). -/
theorem txRun_silence (num : Numerics Sample) (m : Nat) (s : State) (h : s.inSilence)
    (hk : s.tx.k + m ≤ s.tx.cfg.nSil) :
    txRun num m s = s.emitted (List.replicate m num.szero) (s.tx.k + m) := by
  induction m generalizing s with
  | zero => simp [txRun, State.emitted]
  | succ m ih =>
    rw [txRun, txStep_inSilence h (by omega), ih (s.emitZero num) h (by simp; omega)]
    simp [State.emitted, State.emitZero, State.pushTxs, List.replicate_succ]
    omega

/-! ### One slot -/

/-- The samples of a slot on a snapshot. -/
def TxCfg.slotSamples (num : Numerics Sample) (c : TxCfg) (b : Bool) : List Sample :=
  ((List.range c.nTone).map fun k => num.sinS (c.phase b k)) ++ List.replicate c.nSil num.szero

theorem tone_eq_snapshot (num : Numerics Sample) (c : Cfg) (b : Bool) :
    tone num (c.symFreq b) (seconds c.bitDur) c.sampleRate.toNat
      = (List.range c.nTone).map fun k => num.sinS ((TxCfg.of c).phase b k) := by
  unfold tone
  rw [segCount_seconds]
  refine List.map_congr_left fun k _ => ?_
  congr 1
  have hf : (TxCfg.of c).symFreq b = c.symFreq b := rfl
  have hn : (TxCfg.of c).nTone = rndDiv (c.sampleRate.toNat * c.bitDur.toNat) unitsPerSecond := rfl
  have hd : (TxCfg.of c).bd = c.bitDur := rfl
  rw [TxCfg.phase, hf, hn, hd]
  ring

theorem silence_eq_snapshot (num : Numerics Sample) (c : Cfg) :
    silence num (seconds c.silDur) c.sampleRate.toNat = List.replicate c.nSil num.szero := by
  unfold silence
  rw [segCount_seconds]
  rfl

/-- A slot of the function modulate is the slot the sequencer emits on its snapshot (R140, R142). -/
theorem slot_eq_snapshot (num : Numerics Sample) (c : Cfg) (b : Bool) :
    slot num c b = (TxCfg.of c).slotSamples num b := by
  unfold slot
  rw [tone_eq_snapshot, silence_eq_snapshot]
  rfl

/-- From the opening of a slot, `n_tone + n_sil + 2` steps push the slot and close it (R142). -/
theorem txRun_slot (num : Numerics Sample) (s : State) (h : s.tx.op.slots = true) (hs : s.tx.seg = .tone)
    (hk : s.tx.k = 0) :
    txRun num (s.tx.cfg.nTone + 1 + (s.tx.cfg.nSil + 1)) s
      = (s.emitted (s.tx.cfg.slotSamples num s.tx.sym) 0).closeSlot := by
  rw [txRun_add, txRun_add num s.tx.cfg.nTone 1, txRun_tone num s.tx.cfg.nTone s (.inr ⟨h, hs⟩) (by omega)]
  have h1 : ∀ t : State, t.tx.op.slots = true → t.tx.seg = .tone → t.tx.k = t.tx.cfg.nTone →
      txRun num 1 t = t.openSilence := by
    intro t ht hseg hkt
    rw [txRun, txRun, txStep_slots ht, slotStep, hseg]
    exact if_neg (by omega)
  have h2 : ∀ t : State, t.tx.op.slots = true → t.tx.seg = .silence → t.tx.k = t.tx.cfg.nSil →
      txRun num 1 t = t.closeSlot := by
    intro t ht hseg hkt
    rw [txRun, txRun, txStep_slots ht, slotStep, hseg]
    exact if_neg (by omega)
  rw [h1 (s.emitted _ _) (by exact h) (by exact hs) (by simp [State.emitted, hk]), txRun_add,
    txRun_silence num s.tx.cfg.nSil (s.emitted _ _).openSilence (by exact .inr ⟨h, rfl⟩)
      (by simp [State.emitted]),
    h2 (State.emitted _ _ _) (by exact h) (by rfl) (by simp [State.emitted])]
  simp [State.emitted, State.openSilence, State.closeSlot, TxCfg.slotSamples, hk,
    List.range_eq_range', List.map_append]

/-! ### The bits of a byte -/

/-- The bits still in the serializer: the top `n` bits of the shift register, highest first (R134). -/
def shiftBits (sh : Byte) : Nat → List Bool
  | 0 => []
  | n + 1 => sh.getLsbD 7 :: shiftBits (sh <<< 1) n

/-- A loaded byte is serialised most significant bit first (R92, R134). -/
theorem shiftBits_eight (b : Byte) : shiftBits b 8 = byteBits b := by
  simp [shiftBits, byteBits, List.range_succ]

/-- The transmit engine between slots: it fetches, on the snapshot `c`. -/
structure State.Fetching (s : State) (c : TxCfg) : Prop where
  slots : s.tx.op.slots = true
  busy : s.tx.busy = true
  seg : s.tx.seg = .fetch
  k : s.tx.k = 0
  cfg : s.tx.cfg = c

/-- From a fetch with `n` bits in the serializer, `TX` sends their slots and fetches again with none: the operation, the
snapshot and the waiting header bytes are as before, `TXD` and `DONE` too, and `TXPOS` has counted the bits. -/
theorem txRun_bits (num : Numerics Sample) (c : TxCfg) (n : Nat) (s : State) (hf : s.Fetching c)
    (hn : s.tx.nbits = n) :
    ∃ m u, txRun num m s = u ∧ u.Fetching c ∧ u.tx.nbits = 0 ∧ u.tx.op = s.tx.op
      ∧ u.tx.hdr = s.tx.hdr ∧ u.txd = s.txd ∧ u.tx.pos = s.tx.pos + BitVec.ofNat 32 n
      ∧ u.txs = s.txs ++ ((shiftBits s.tx.shift n).flatMap (c.slotSamples num)).map .data := by
  induction n generalizing s with
  | zero =>
    exact ⟨0, s, rfl, hf, hn, rfl, rfl, rfl, by simp, by simp [shiftBits]⟩
  | succ n ih =>
    let t := s.takeBit.openTone s.nextBit
    have ht : txStep num s = t := by
      rw [txStep_slots hf.slots, slotStep, hf.seg]
      exact if_pos (by omega)
    let v := (t.emitted (t.tx.cfg.slotSamples num t.tx.sym) 0).closeSlot
    have hv : txRun num (t.tx.cfg.nTone + 1 + (t.tx.cfg.nSil + 1)) t = v :=
      txRun_slot num t hf.slots rfl rfl
    have hvf : v.Fetching c := ⟨hf.slots, hf.busy, rfl, rfl, hf.cfg⟩
    obtain ⟨m, u, hm, h1, h2, h3, h4, h5, h6, h7⟩ := ih v hvf (by simp [v, t, State.emitted, hn])
    refine ⟨1 + (t.tx.cfg.nTone + 1 + (t.tx.cfg.nSil + 1)) + m, u, ?_, h1, h2, h3, h4, h5, ?_, ?_⟩
    · rw [txRun_add, txRun_add, txRun, txRun, ht, hv, hm]
    · rw [h6]
      simp only [v, t, State.emitted, State.closeSlot_tx_pos, State.openTone_tx_pos, State.takeBit_tx_pos]
      rw [BitVec.add_assoc]
      congr 1
      rw [Nat.add_comm n 1, BitVec.ofNat_add]
    · rw [h7]
      simp [v, t, State.emitted, shiftBits, hf.cfg, State.nextBit]

/-! ### A buffer of bytes -/

/-- The operations that fetch bytes (R148): not `TXBIT` and `TXBYTE`, which complete when their bits are sent. -/
def TxOp.streams : TxOp → Bool
  | .txraw | .txframe => true
  | .idle | .tone | .sil | .txbit | .txbyte | .txend => false

/-- A step that loads a byte, and then the eight slots of that byte. -/
theorem txRun_byte (num : Numerics Sample) (c : TxCfg) (b : Byte) (s t : State) (hf : t.Fetching c)
    (hs : txStep num s = t.loadByte b) :
    ∃ m u, txRun num m s = u ∧ u.Fetching c ∧ u.tx.nbits = 0 ∧ u.tx.op = t.tx.op
      ∧ u.tx.hdr = t.tx.hdr ∧ u.txd = t.txd ∧ u.tx.pos = t.tx.pos + 8#32
      ∧ u.txs = t.txs ++ ((byteBits b).flatMap (c.slotSamples num)).map .data := by
  have hl : (t.loadByte b).Fetching c := ⟨hf.slots, hf.busy, hf.seg, hf.k, hf.cfg⟩
  obtain ⟨m, u, hm, h1, h2, h3, h4, h5, h6, h7⟩ := txRun_bits num c 8 (t.loadByte b) hl rfl
  refine ⟨m + 1, u, ?_, h1, h2, h3, h4, h5, h6, ?_⟩
  · rw [txRun, hs, hm]
  · rw [h7, State.loadByte_tx_shift, shiftBits_eight]
    rfl

theorem txStep_fetch {num : Numerics Sample} {c : TxCfg} {s : State} (hf : s.Fetching c) :
    txStep num s = fetchStep s := by
  rw [txStep_slots hf.slots, slotStep, hf.seg]

theorem not_single_of_streams {op : TxOp} (h : op.streams = true) : ¬(op = .txbit ∨ op = .txbyte) := by
  rintro (rfl | rfl) <;> simp [TxOp.streams] at h

/-- The header bytes waiting in `tx_hdr` are sent first (R148). -/
theorem txRun_header (num : Numerics Sample) (c : TxCfg) (hdr : List Byte) (s : State) (hf : s.Fetching c)
    (hn : s.tx.nbits = 0) (ho : s.tx.op.streams = true) (hh : s.tx.hdr = hdr) :
    ∃ m u, txRun num m s = u ∧ u.Fetching c ∧ u.tx.nbits = 0 ∧ u.tx.op = s.tx.op
      ∧ u.tx.hdr = [] ∧ u.txd = s.txd ∧ u.tx.pos = s.tx.pos + BitVec.ofNat 32 (8 * hdr.length)
      ∧ u.txs = s.txs ++ ((bytesToBits hdr).flatMap (c.slotSamples num)).map .data := by
  induction hdr generalizing s with
  | nil => exact ⟨0, s, rfl, hf, hn, rfl, hh, rfl, by simp, by simp [bytesToBits]⟩
  | cons b rest ih =>
    let t : State := { s with tx := { s.tx with hdr := rest } }
    have hs : txStep num s = t.loadByte b := by
      rw [txStep_fetch hf, fetchStep, if_neg (by omega), if_neg (not_single_of_streams ho), hh]
    obtain ⟨m, u, hm, h1, h2, h3, h4, h5, h6, h7⟩ :=
      txRun_byte num c b s t ⟨hf.slots, hf.busy, hf.seg, hf.k, hf.cfg⟩ hs
    obtain ⟨m', u', hm', g1, g2, g3, g4, g5, g6, g7⟩ := ih u h1 h2 (by rw [h3]; exact ho) h4
    refine ⟨m + m', u', ?_, g1, g2, g3.trans h3, g4, g5.trans h5, ?_, ?_⟩
    · rw [txRun_add, hm, hm']
    · rw [g6, h6, BitVec.add_assoc]
      congr 1
      rw [List.length_cons, Nat.mul_add, Nat.add_comm, BitVec.ofNat_add]
    · rw [g7, h7]
      simp [bytesToBits, t]

/-- The bytes waiting in `TXD` are sent in order (R148). -/
theorem txRun_data (num : Numerics Sample) (c : TxCfg) (data : List Byte) (rest : List (Item Byte)) (s : State)
    (hf : s.Fetching c) (hn : s.tx.nbits = 0) (ho : s.tx.op.streams = true) (hh : s.tx.hdr = [])
    (hd : s.txd = data.map .data ++ rest) :
    ∃ m u, txRun num m s = u ∧ u.Fetching c ∧ u.tx.nbits = 0 ∧ u.tx.op = s.tx.op
      ∧ u.tx.hdr = [] ∧ u.txd = rest ∧ u.tx.pos = s.tx.pos + BitVec.ofNat 32 (8 * data.length)
      ∧ u.txs = s.txs ++ ((bytesToBits data).flatMap (c.slotSamples num)).map .data := by
  induction data generalizing s with
  | nil => exact ⟨0, s, rfl, hf, hn, rfl, hh, by simpa using hd, by simp, by simp [bytesToBits]⟩
  | cons b more ih =>
    let t : State := { s with txd := more.map .data ++ rest }
    have hs : txStep num s = t.loadByte b := by
      rw [txStep_fetch hf, fetchStep, if_neg (by omega), if_neg (not_single_of_streams ho), hh, hd]
      rfl
    obtain ⟨m, u, hm, h1, h2, h3, h4, h5, h6, h7⟩ :=
      txRun_byte num c b s t ⟨hf.slots, hf.busy, hf.seg, hf.k, hf.cfg⟩ hs
    obtain ⟨m', u', hm', g1, g2, g3, g4, g5, g6, g7⟩ :=
      ih u h1 h2 (by rw [h3]; exact ho) (h4.trans hh) h5
    refine ⟨m + m', u', ?_, g1, g2, g3.trans h3, g4, g5, ?_, ?_⟩
    · rw [txRun_add, hm, hm']
    · rw [g6, h6, BitVec.add_assoc]
      congr 1
      rw [List.length_cons, Nat.mul_add, Nat.add_comm, BitVec.ofNat_add]
    · rw [g7, h7]
      simp [bytesToBits, t]

/-- At the `END` of its buffer a streaming command pushes `END` and completes (R148). -/
theorem txStep_atEnd {num : Numerics Sample} {c : TxCfg} {s : State} {rest : List (Item Byte)} (hf : s.Fetching c)
    (hn : s.tx.nbits = 0) (ho : s.tx.op.streams = true) (hh : s.tx.hdr = []) (hd : s.txd = .fin :: rest) :
    txStep num s = (({ s with txd := rest } : State).pushTxs .fin).completeTx := by
  rw [txStep_fetch hf, fetchStep, if_neg (by omega), if_neg (not_single_of_streams ho), hh, hd]

/-- On an empty `TXD` a streaming command holds (R148, R253). -/
theorem txStep_holds {num : Numerics Sample} {c : TxCfg} {s : State} (hf : s.Fetching c)
    (hn : s.tx.nbits = 0) (ho : s.tx.op.streams = true) (hh : s.tx.hdr = []) (hd : s.txd = []) :
    txStep num s = s := by
  rw [txStep_fetch hf, fetchStep, if_neg (by omega), if_neg (not_single_of_streams ho), hh, hd]

/-- The slots of a modulated bit sequence, on the snapshot. -/
theorem modulate_eq_snapshot (num : Numerics Sample) (c : Cfg) (bits : List Bool) :
    modulate num c bits = bits.flatMap ((TxCfg.of c).slotSamples num) := by
  unfold modulate
  congr 1
  funext b
  exact slot_eq_snapshot num c b

/-! ### Completion -/

theorem txStep_idle {num : Numerics Sample} {s : State} (h : s.tx.op = .idle) : txStep num s = s := by
  simp [txStep, h]

theorem txRun_idle (num : Numerics Sample) (n : Nat) {s : State} (h : s.tx.op = .idle) : txRun num n s = s := by
  induction n with
  | zero => rfl
  | succ n ih => rw [txRun, txStep_idle h, ih]

theorem fetchStep_busy (s : State) (h : s.tx.busy = true) :
    (fetchStep s).tx.busy = true ∨ (fetchStep s).tx.op = .idle := by
  unfold fetchStep
  repeat' split
  all_goals simp [h]

/-- A step of `TX` leaves a busy engine busy or idle and done (R149). -/
theorem txStep_busy (num : Numerics Sample) (s : State) (h : s.tx.busy = true) :
    (txStep num s).tx.busy = true ∨ (txStep num s).tx.op = .idle := by
  unfold txStep toneStep silStep slotStep txendStep
  repeat' split
  all_goals first | exact fetchStep_busy s h | simp [h]

/-- A run that ends idle with `TXDONE` is a completion: `TXBUSY` was 1 until the engine came to rest. -/
theorem TxCompletes.of_run {num : Numerics Sample} {n : Nat} {t u : State} (hr : txRun num n t = u)
    (hb : t.tx.busy = true) (hi : u.tx.op = .idle) (hu : u.tx.busy = false) (hd : u.tx.done = true) :
    TxCompletes num t u := by
  induction n generalizing t with
  | zero =>
    subst hr
    rw [txRun] at hu
    simp [hb] at hu
  | succ n ih =>
    rw [txRun] at hr
    obtain h | h := txStep_busy num t hb
    · obtain ⟨m, h1, h2, h3⟩ := ih hr h
      refine ⟨m + 1, h1, fun j hj => ?_, h3⟩
      cases j with
      | zero => exact hb
      | succ j => exact h2 j (by omega)
    · rw [txRun_idle num n h] at hr
      refine ⟨1, hr, fun j hj => ?_, hi, hu, hd⟩
      obtain rfl : j = 0 := by omega
      exact hb

end Sys2Proof.Machine
end

