-- ==== Sys2Proof/Laws/Hold.lean ====
section
/-! SUPPORT. Pushes of the host and steps of an engine: an engine that is not held takes the same step whether more items wait or not, so a run that comes to a hold comes to it with the items pushed later still waiting (R63, R81). -/

namespace Sys2Proof.Machine

variable {d b : List (Item Byte)} {x : List (Item Sample)}

@[simp] theorem State.feed_tx (s : State) : (s.feed d x b).tx = s.tx := rfl
@[simp] theorem State.feed_rx (s : State) : (s.feed d x b).rx = s.rx := rfl
@[simp] theorem State.feed_hp (s : State) : (s.feed d x b).hp = s.hp := rfl
@[simp] theorem State.feed_cfg (s : State) : (s.feed d x b).cfg = s.cfg := rfl
@[simp] theorem State.feed_err (s : State) : (s.feed d x b).err = s.err := rfl
@[simp] theorem State.feed_txd (s : State) : (s.feed d x b).txd = s.txd ++ d := rfl
@[simp] theorem State.feed_rxs (s : State) : (s.feed d x b).rxs = s.rxs ++ x := rfl
@[simp] theorem State.feed_rxb (s : State) : (s.feed d x b).rxb = s.rxb ++ b := rfl

/-- A choice that does not read the streams commutes with a push when its branches do. -/
theorem ite_feed {c : Prop} [Decidable c] {s t s' t' : State} (h : c → s' = s.feed d x b)
    (h' : ¬c → t' = t.feed d x b) : (if c then s' else t') = (if c then s else t).feed d x b := by
  by_cases hc : c
  · rw [if_pos hc, if_pos hc, h hc]
  · rw [if_neg hc, if_neg hc, h' hc]

theorem fetchStep_feed (s : State) :
    fetchStep (s.feed d x b) = (fetchStep s).feed d x b ∨ fetchStep s = s := by
  unfold fetchStep
  rw [State.feed_tx, State.feed_txd]
  by_cases h1 : 0 < s.tx.nbits
  · rw [if_pos h1, if_pos h1]; exact .inl rfl
  · rw [if_neg h1, if_neg h1]
    by_cases h2 : s.tx.op = .txbit ∨ s.tx.op = .txbyte
    · rw [if_pos h2, if_pos h2]; exact .inl rfl
    · rw [if_neg h2, if_neg h2]
      cases s.tx.hdr with
      | cons y rest => exact .inl rfl
      | nil =>
        cases h : s.txd with
        | nil => exact .inr rfl
        | cons y rest => cases y <;> exact .inl rfl

/-- A step of `TX` that is no hold does not depend on what waits behind the items of its input (R63). -/
theorem txStep_feed (num : Numerics Sample) (s : State) :
    txStep num (s.feed d x b) = (txStep num s).feed d x b ∨ txStep num s = s := by
  unfold txStep
  rw [State.feed_tx]
  cases s.tx.op with
  | idle => exact .inl rfl
  | tone => exact .inl (ite_feed (fun _ => rfl) fun _ => rfl)
  | sil => exact .inl (ite_feed (fun _ => rfl) fun _ => rfl)
  | txend => exact .inl rfl
  | txbit | txbyte | txraw | txframe =>
    simp only [slotStep, State.feed_tx]
    cases s.tx.seg with
    | tone => exact .inl (ite_feed (fun _ => rfl) fun _ => rfl)
    | silence => exact .inl (ite_feed (fun _ => rfl) fun _ => rfl)
    | fetch => exact fetchStep_feed s

theorem raise_feed (c : Cause) (info : Nat) (s : State) :
    (s.feed d x b).raise c info = (s.raise c info).feed d x b :=
  ite_feed (fun _ => rfl) fun _ => rfl

theorem failHeader_feed (c : Cause) (s : State) :
    failHeader c (s.feed d x b) = (failHeader c s).feed d x b :=
  raise_feed _ _ { s with hp := { s.hp with state := .fail }, rx := { s.rx with fail := true } }

theorem nameDone_feed (s : State) : nameDone (s.feed d x b) = (nameDone s).feed d x b := by
  refine ite_feed (fun _ => failHeader_feed _ _) fun _ => ?_
  rw [State.feed_hp]
  cases s.hp.recognised with
  | some t => rfl
  | none => exact failHeader_feed _ _

theorem hpByte_feed (v : Byte) (s : State) : hpByte v (s.feed d x b) = (hpByte v s).feed d x b := by
  unfold hpByte
  rw [State.feed_hp]
  cases s.hp.state with
  | len =>
    exact ite_feed (fun _ => ite_feed (fun _ => nameDone_feed { s with hp := _ }) fun _ => rfl) fun _ => rfl
  | name =>
    exact ite_feed (fun _ => nameDone_feed { s with hp := _ }) fun _ => rfl
  | payload | fail | off => rfl

theorem hpEnd_feed (s : State) : hpEnd (s.feed d x b) = (hpEnd s).feed d x b :=
  ite_feed (fun _ => raise_feed _ _ { s with hp := { s.hp with state := .fail } }) fun _ => rfl

theorem emitByte_feed (v : Byte) (s : State) : emitByte v (s.feed d x b) = (emitByte v s).feed d x b := by
  unfold emitByte
  rw [State.feed_rx]
  cases s.rx.op with
  | rxframe => exact hpByte_feed v (countByte s)
  | rxslot | rxraw | idle | rxflush | hparse => rfl

theorem giveBit_feed (v : Bool) (s : State) :
    giveBit emitByte v (s.feed d x b) = (giveBit emitByte v s).feed d x b :=
  ite_feed (fun _ => emitByte_feed _ { s with rx := _ }) fun _ => rfl

theorem closeRxSlot_feed (num : Numerics Sample) (s : State) :
    closeRxSlot num (s.feed d x b) = (closeRxSlot num s).feed d x b := by
  have h := giveBit_feed (d := d) (x := x) (b := b)
    (s.rx.cfg.classify num (s.rx.buf.take s.rx.cfg.nTone))
    { s with rx := { s.rx with pos := s.rx.pos + 1#32, k := 0 } }
  exact ite_feed (fun _ => congrArg State.completeRx h) fun _ => h

theorem takeSample_feed (num : Numerics Sample) (a : Sample) (s : State) :
    takeSample num a (s.feed d x b) = (takeSample num a s).feed d x b :=
  ite_feed (fun _ => closeRxSlot_feed num { s with rx := _ }) fun _ => rfl

theorem endOfSamples_feed (s : State) : endOfSamples (s.feed d x b) = (endOfSamples s).feed d x b := by
  unfold endOfSamples
  rw [State.feed_rx]
  cases s.rx.op with
  | rxframe => exact congrArg (fun t => (t.pushRxd .fin).completeRx) (hpEnd_feed s.dropBits)
  | rxslot | rxraw | idle | rxflush | hparse => rfl

/-- A step of `RX` that is no hold does not depend on what waits behind the items of its input (R63). -/
theorem rxStep_feed (num : Numerics Sample) (s : State) :
    rxStep num (s.feed d x b) = (rxStep num s).feed d x b ∨ rxStep num s = s := by
  unfold rxStep
  rw [State.feed_rx]
  cases s.rx.op with
  | idle | rxflush => exact .inl rfl
  | rxslot | rxraw | rxframe =>
    simp only [sampleStep, State.feed_rxs]
    cases h : s.rxs with
    | nil => exact .inr rfl
    | cons y rest =>
      left
      cases y with
      | fin => exact endOfSamples_feed { s with rxs := rest, rx := _ }
      | data a =>
        exact ite_feed (fun _ => rfl) fun _ => takeSample_feed num a { s with rxs := rest }
  | hparse =>
    simp only [hparseStep, State.feed_rxb]
    cases h : s.rxb with
    | nil => exact .inr rfl
    | cons y rest =>
      left
      cases y with
      | fin =>
        exact congrArg (fun t => (t.pushRxd .fin).completeRx)
          (hpEnd_feed { s with rxb := rest, rx := { s.rx with eos := true } })
      | data v =>
        exact ite_feed (fun _ => rfl) fun _ => hpByte_feed v (countByte { s with rxb := rest })

/-- The issue of a command does not look at the input streams (R200), when its acceptance does not. -/
theorem issueCommand_feed {accept : State → State}
    (h : ∀ s : State, accept (s.feed d x b) = (accept s).feed d x b) (i : Instr) (s : State) :
    issueCommand i accept (s.feed d x b) = (issueCommand i accept s).feed d x b :=
  ite_feed (fun _ => rfl) fun _ =>
    ite_feed (fun _ => raise_feed _ _ _) fun _ => ite_feed (fun _ => raise_feed _ _ _) fun _ => h _

/-- A run of `TX` that does not end comes to the same state with pushed items waiting behind its input, at a step no later. -/
theorem txRun_feed (num : Numerics Sample) (n : Nat) (t : State) (d : List (Item Byte)) (x : List (Item Sample))
    (b : List (Item Byte)) (hb : ∀ m, (txRun num m t).tx.busy = true) :
    ∃ m, txRun num m (t.feed d x b) = (txRun num n t).feed d x b
      ∧ ∀ j ≤ m, (txRun num j (t.feed d x b)).tx.busy = true := by
  induction n generalizing t with
  | zero => exact ⟨0, rfl, fun j hj => by obtain rfl : j = 0 := by omega
                                          exact hb 0⟩
  | succ n ih =>
    obtain ⟨m, h1, h2⟩ := ih (txStep num t) fun m => hb (m + 1)
    obtain h | h := txStep_feed (d := d) (x := x) (b := b) num t
    · refine ⟨m + 1, by rw [txRun, h, h1, txRun], fun j hj => ?_⟩
      cases j with
      | zero => exact hb 0
      | succ j => rw [txRun, h]; exact h2 j (by omega)
    · rw [h] at h1 h2
      exact ⟨m, by rw [h1, txRun, h], h2⟩

/-- As `txRun_feed`, for `RX`. -/
theorem rxRun_feed (num : Numerics Sample) (n : Nat) (t : State) (d : List (Item Byte)) (x : List (Item Sample))
    (b : List (Item Byte)) (hb : ∀ m, (rxRun num m t).rx.busy = true) :
    ∃ m, rxRun num m (t.feed d x b) = (rxRun num n t).feed d x b
      ∧ ∀ j ≤ m, (rxRun num j (t.feed d x b)).rx.busy = true := by
  induction n generalizing t with
  | zero => exact ⟨0, rfl, fun j hj => by obtain rfl : j = 0 := by omega
                                          exact hb 0⟩
  | succ n ih =>
    obtain ⟨m, h1, h2⟩ := ih (rxStep num t) fun m => hb (m + 1)
    obtain h | h := rxStep_feed (d := d) (x := x) (b := b) num t
    · refine ⟨m + 1, by rw [rxRun, h, h1, rxRun], fun j hj => ?_⟩
      cases j with
      | zero => exact hb 0
      | succ j => rw [rxRun, h]; exact h2 j (by omega)
    · rw [h] at h1 h2
      exact ⟨m, by rw [h1, rxRun, h], h2⟩

/-- A hold of `TX` is lifted by a push (R63, R81). -/
theorem TxHolds.resumes {num : Numerics Sample} {t u : State} (h : TxHolds num t u) : TxResumes num t u := by
  obtain ⟨hb, n, hn⟩ := h
  intro d x b
  obtain ⟨m, h1, h2⟩ := txRun_feed num n t d x b hb
  exact ⟨m, by rw [h1, hn n le_rfl], h2⟩

/-- A hold of `RX` is lifted by a push (R63, R81). -/
theorem RxHolds.resumes {num : Numerics Sample} {t u : State} (h : RxHolds num t u) : RxResumes num t u := by
  obtain ⟨hb, n, hn⟩ := h
  intro d x b
  obtain ⟨m, h1, h2⟩ := rxRun_feed num n t d x b hb
  exact ⟨m, by rw [h1, hn n le_rfl], h2⟩

/-- What completes from the start with the pushed items there completes from the hold with them pushed (R81). -/
theorem TxResumes.completes {num : Numerics Sample} {t u v : State} (h : TxResumes num t u) {d : List (Item Byte)}
    {x : List (Item Sample)} {b : List (Item Byte)} (hc : TxCompletes num (t.feed d x b) v) :
    TxCompletes num (u.feed d x b) v := by
  obtain ⟨m, hm, hb⟩ := h d x b
  obtain ⟨n, hn, hlt, hi, hu, hd⟩ := hc
  have hle : m ≤ n := by
    by_contra hlt
    have := hb n (by omega)
    rw [hn, hu] at this
    cases this
  obtain ⟨k, rfl⟩ := Nat.exists_eq_add_of_le hle
  refine TxCompletes.of_run (n := k) ?_ ?_ hi hu hd
  · rw [← hm, ← txRun_add, hn]
  · rw [← hm]; exact hb m le_rfl

/-- As `TxResumes.completes`, for `RX`. -/
theorem RxResumes.completes {num : Numerics Sample} {t u v : State} (h : RxResumes num t u) {d : List (Item Byte)}
    {x : List (Item Sample)} {b : List (Item Byte)} (hc : RxCompletes num (t.feed d x b) v) :
    RxCompletes num (u.feed d x b) v := by
  obtain ⟨m, hm, hb⟩ := h d x b
  obtain ⟨n, hn, hlt, hi, hu, hd⟩ := hc
  have hle : m ≤ n := by
    by_contra hlt
    have := hb n (by omega)
    rw [hn, hu] at this
    cases this
  obtain ⟨k, rfl⟩ := Nat.exists_eq_add_of_le hle
  refine RxCompletes.of_run (n := k) ?_ ?_ hi hu hd
  · rw [← hm, ← rxRun_add, hn]
  · rw [← hm]; exact hb m le_rfl

end Sys2Proof.Machine
end

