-- ==== Sys2Proof/Laws/Numerics.lean ====
section
/-! SUPPORT. The reference instance of `Numerics` over the real numbers is ideal and lawful (R11), and every instance over any type can be given names: the claims about samples can be met, and the state's names leave no instance out. -/

namespace Sys2Proof

open Machine

/-- Ideal arithmetic is lawful (R11). -/
theorem Numerics.Ideal.lawful {S : Type} {num : Numerics S} (h : num.Ideal) : num.Lawful where
  zero := h.zero
  n2 θ := by simp [h.sine, h.epsSin]
  n3 x k := by
    rw [← Bool.not_eq_true, h.compare]
    exact lt_irrefl _
  n4_above x ka kb _ _ hlt := (h.compare x ka kb).mpr (by rw [h.epsMag] at hlt; linarith)
  n4_below x ka kb _ _ hlt := by
    rw [← Bool.not_eq_true, h.compare]
    rw [h.epsMag] at hlt
    linarith
  n5 x ka kb hz := by
    rw [← Bool.not_eq_true, h.compare, magnitude_zero hz, magnitude_zero hz]
    exact lt_irrefl _

namespace Machine

/-- The reference instance is the ideal one (R11). -/
theorem referenceNumerics_ideal : referenceNumerics.Ideal where
  zero := rfl
  sine _ := rfl
  compare _ _ _ := decide_eq_true_iff
  epsSin := rfl
  epsMag _ := rfl

/-- The transform of a region depends on the values of its samples only (R11). -/
theorem magnitude_map {S T : Type} (f : T → S) (sval : S → ℝ) (x : List T) (k : ℕ) :
    magnitude (fun a => sval (f a)) x k = magnitude sval (x.map f) k := by
  simp [magnitude, dft, Function.comp_def]

end Machine

/-- Names of the samples of a lawful instance are a lawful instance. -/
theorem Numerics.Names.lawful {S : Type} {num : Numerics Sample} {value : Sample → S} {inst : Numerics S}
    (h : num.Names value inst) (hl : inst.Lawful) : num.Lawful := by
  have hs : num.sval = fun a => inst.sval (value a) := funext h.sval
  have hm : ∀ x k, magnitude num.sval x k = magnitude inst.sval (x.map value) k := fun x k => by
    rw [hs, magnitude_map value inst.sval]
  constructor
  · rw [h.sval, h.szero, hl.zero]
  · intro θ
    rw [h.sval, h.sinS, h.epsSin]
    exact hl.n2 θ
  · intro x k
    rw [h.binGt, hl.n3]
  · intro x ka kb ha hb hlt
    rw [h.epsMag, hm, hm] at hlt
    rw [h.binGt]
    exact hl.n4_above _ _ _ (by simpa using ha) (by simpa using hb) (by simpa using hlt)
  · intro x ka kb ha hb hlt
    rw [h.epsMag, hm, hm] at hlt
    rw [h.binGt]
    exact hl.n4_below _ _ _ (by simpa using ha) (by simpa using hb) (by simpa using hlt)
  · intro x ka kb hz
    rw [h.binGt]
    exact hl.n5 _ _ _ (by simpa [h.sval] using hz)

/-- Names of the samples of an ideal instance are an ideal instance. -/
theorem Numerics.Names.ideal {S : Type} {num : Numerics Sample} {value : Sample → S} {inst : Numerics S}
    (h : num.Names value inst) (hi : inst.Ideal) : num.Ideal where
  zero := by rw [h.sval, h.szero, hi.zero]
  sine θ := by rw [h.sval, h.sinS, hi.sine]
  compare x ka kb := by
    have hs : num.sval = fun a => inst.sval (value a) := funext h.sval
    rw [h.binGt, hi.compare, hs, magnitude_map value inst.sval, magnitude_map value inst.sval]
  epsSin := by rw [h.epsSin, hi.epsSin]
  epsMag n := by rw [h.epsMag, hi.epsMag]

/-- Every instance of R11, over whatever type of samples, has names: for zero, for every value of `SIN_S`, and for any countable
supply of samples that the host may push. So the names of the state leave out no instance, the reference one among them. -/
theorem Numerics.exists_names {S : Type} (inst : Numerics S) (supply : ℕ → S) :
    ∃ (num : Numerics Sample) (value : Sample → S), num.Names value inst ∧ ∀ n, ∃ a, value a = supply n := by
  let value : Sample → S := fun a =>
    match (Encodable.decode a.code : Option (Option (ℚ ⊕ ℕ))) with
    | some (some (.inl θ)) => inst.sinS θ
    | some (some (.inr n)) => supply n
    | _ => inst.szero
  refine ⟨{ sval := fun a => inst.sval (value a)
            szero := ⟨Encodable.encode (none : Option (ℚ ⊕ ℕ))⟩
            sinS := fun θ => ⟨Encodable.encode (some (Sum.inl θ) : Option (ℚ ⊕ ℕ))⟩
            binGt := fun x ka kb => inst.binGt (x.map value) ka kb
            epsSin := inst.epsSin
            epsMag := inst.epsMag }, value, ⟨fun _ => rfl, ?_, fun θ => ?_, fun _ _ _ => rfl, rfl, fun _ => rfl⟩,
          fun n => ⟨⟨Encodable.encode (some (Sum.inr n) : Option (ℚ ⊕ ℕ))⟩, ?_⟩⟩ <;>
    simp only [value, Encodable.encodek]

/-- The names of a slot name the slot of the instance (R140). -/
theorem Numerics.Names.slot {S : Type} {num : Numerics Sample} {value : Sample → S} {inst : Numerics S}
    (h : num.Names value inst) (c : Cfg) (b : Bool) :
    (Machine.slot num c b).map value = Machine.slot inst c b := by
  simp [Machine.slot, tone, silence, h.szero, h.sinS, Function.comp_def]

/-- The names of a modulated buffer name the modulated buffer of the instance (R140). -/
theorem Numerics.Names.modulate {S : Type} {num : Numerics Sample} {value : Sample → S} {inst : Numerics S}
    (h : num.Names value inst) (c : Cfg) (bits : List Bool) :
    (Machine.modulate num c bits).map value = Machine.modulate inst c bits := by
  simp [Machine.modulate, List.map_flatMap, h.slot]

/-- A buffer of names demodulates to the bits of the buffer it names (R155). -/
theorem Numerics.Names.demodulate {S : Type} {num : Numerics Sample} {value : Sample → S} {inst : Numerics S}
    (h : num.Names value inst) (c : RxCfg) (samples : List Sample) :
    Machine.demodulate num c samples = Machine.demodulate inst c (samples.map value) := by
  simp [Machine.demodulate, RxCfg.classify, RxCfg.region, h.binGt, List.map_take, List.map_drop]

end Sys2Proof
end

