-- ==== Sys2Proof/Laws/Parser.lean ====
section
/-! SUPPORT. What the error entry, the deserializer and the header parser can do, case by case. -/

namespace Sys2Proof.Machine

/-- The error entry records the error or drops it (R225). -/
theorem raise_cases (c : Cause) (info : Nat) (s : State) :
    (s.err = .noError ∧ s.raise c info = { s with err := c, errInfo := BitVec.ofNat 32 info })
      ∨ (s.err ≠ .noError ∧ s.raise c info = s) := by
  unfold State.raise
  split
  · exact .inl ⟨‹_›, rfl⟩
  · exact .inr ⟨‹_›, rfl⟩

/-- The deserializer with a bit shifted in, `n` bits now waiting (R135). -/
def State.shifted (s : State) (b : Bool) (n : Nat) : State :=
  { s with rx := { s.rx with dsShift := shiftIn s.rx.dsShift b, dsCnt := n } }

/-- A bit completes a byte, which is emitted, or it waits (R135). -/
theorem giveBit_cases (emit : Byte → State → State) (b : Bool) (s : State) :
    (s.rx.dsCnt = 7 ∧ giveBit emit b s = emit (shiftIn s.rx.dsShift b) (s.shifted b 0))
      ∨ (s.rx.dsCnt ≠ 7 ∧ giveBit emit b s = s.shifted b (s.rx.dsCnt + 1)) := by
  unfold giveBit
  dsimp only
  split
  · exact .inl ⟨by omega, rfl⟩
  · exact .inr ⟨by omega, rfl⟩

/-- The name is complete: malformed, recognised or unsupported (R184). -/
theorem nameDone_cases (s : State) :
    (s.hp.u8 ≠ .acc ∧ nameDone s = failHeader .invalidMethodName s)
      ∨ (s.hp.u8 = .acc ∧ s.hp.recognised = none ∧ nameDone s = failHeader .unsupportedMethod s)
      ∨ ∃ t, s.hp.u8 = .acc ∧ s.hp.recognised = some t
          ∧ nameDone s = { s with hp := { s.hp with method := some t, state := .payload } } := by
  unfold nameDone
  split
  · exact .inl ⟨‹_›, rfl⟩
  · rename_i hu
    split
    · exact .inr (.inr ⟨_, not_not.mp hu, ‹_›, rfl⟩)
    · exact .inr (.inl ⟨not_not.mp hu, ‹_›, rfl⟩)

/-- The input ends inside the header, or after its outcome is known (R184). -/
theorem hpEnd_cases (s : State) :
    ((s.hp.state = .len ∨ s.hp.state = .name)
        ∧ hpEnd s = ({ s with hp := { s.hp with state := .fail } }).raise .frameTooShort s.hp.total)
      ∨ (s.hp.state ≠ .len ∧ s.hp.state ≠ .name ∧ hpEnd s = s) := by
  unfold hpEnd
  split
  · exact .inl ⟨‹_›, rfl⟩
  · rename_i h
    exact .inr ⟨fun h' => h (.inl h'), fun h' => h (.inr h'), rfl⟩

/-- A byte of the header goes nowhere but into the parser: only in `H_PAYLOAD` does `RXD` receive it (R184, R185). -/
theorem hpByte_rxd (b : Byte) (s : State) :
    (s.hp.state = .payload ∧ hpByte b s = s.pushRxd (.data b))
      ∨ (s.hp.state ≠ .payload ∧ (hpByte b s).rxd = s.rxd) := by
  have hd : ∀ t : State, (nameDone t).rxd = t.rxd := fun t => by
    obtain ⟨-, h⟩ | ⟨-, -, h⟩ | ⟨_, -, -, h⟩ := nameDone_cases t <;> simp [h, failHeader]
  unfold hpByte
  split
  · rename_i h
    refine .inr ⟨by simp [h], ?_⟩
    unfold lenByte
    dsimp only
    repeat' split
    all_goals simp [hd]
  · rename_i h
    refine .inr ⟨by simp [h], ?_⟩
    unfold nameByte
    dsimp only
    split <;> simp [hd]
  · exact .inl ⟨‹_›, rfl⟩
  all_goals exact .inr ⟨by simp [*], rfl⟩

/-- After a failure or outside its commands the parser takes no byte (R184, R189). -/
theorem hpByte_fail (b : Byte) {s : State} (h : s.hp.state = .fail) : hpByte b s = s := by
  simp [hpByte, h]

end Sys2Proof.Machine
end

