-- ==== Sys2Proof/Laws/PerInstr.lean ====
section
/-! SUPPORT. The statement made of every command as syntax, one lemma a constructor: its fields are legal, and its encoding carries
them. -/

namespace Sys2Proof.Laws.Encodes

/-- A command is well formed, its word is legal (R103), and the word's fields are the command's (R100, R101). -/
def Statement (i : Instr) : Prop :=
  i.wellFormed = true
    ∧ legalWord (encode i) = true
    ∧ (encode i).extractLsb' 0 8 = i.opField
    ∧ (encode i).extractLsb' 8 8 = i.operandField
    ∧ (encode i).extractLsb' 16 16 = 0#16

theorem nop : Statement .nop := by unfold Statement; decide

theorem tone (sel : Bool) : Statement (.tone sel) := by unfold Statement; revert sel; decide

theorem sil : Statement .sil := by unfold Statement; decide

theorem txbit (bit : Bool) : Statement (.txbit bit) := by unfold Statement; revert bit; decide

theorem txbyte (byte : Byte) : Statement (.txbyte byte) := by
  obtain ⟨h1, h2, h3⟩ := commandWord_fields 0x04#8 byte
  refine ⟨rfl, ?_, h1, h2, h3⟩
  rw [legalWord, encode, h1, h2, h3]
  rfl

theorem txend : Statement .txend := by unfold Statement; decide

theorem txraw : Statement .txraw := by unfold Statement; decide

theorem txframe (tag : Method) : Statement (.txframe tag) := by unfold Statement; cases tag <;> decide

theorem rxslot : Statement .rxslot := by unfold Statement; decide

theorem rxflush : Statement .rxflush := by unfold Statement; decide

theorem rxraw : Statement .rxraw := by unfold Statement; decide

theorem rxframe : Statement .rxframe := by unfold Statement; decide

theorem hparse : Statement .hparse := by unfold Statement; decide

theorem clrerr : Statement .clrerr := by unfold Statement; decide

theorem reset : Statement .reset := by unfold Statement; decide

end Sys2Proof.Laws.Encodes
end

