-- ==== Sys2Proof/Laws/Step.lean ====
section
/-! SUPPORT. What one step of the machine can be, and what one line of the host can do. -/

namespace Sys2Proof.Machine

/-- Some agent has the next turn (R76). -/
theorem State.exists_turn (s : State) : ∃ a s', s.TurnOf a s' := by
  cases h : s.turns with
  | nil => exact ⟨_, _, .inr ⟨h, rfl, rfl⟩⟩
  | cons a rest => exact ⟨a, _, .inl ⟨rest, h, rfl⟩⟩

/-- A step is the turn of the agent that has it (R12, R76). -/
theorem step_of_turn {s s' : State} {a : Agent} (h : s.TurnOf a s') :
    step s = agentTurn referenceParams a s' := by
  obtain ⟨rest, hl, rfl⟩ | ⟨hl, rfl, rfl⟩ := h <;> simp only [step, stepWith, hl]

/-- What a turn uses up is not the block's: the state it is taken in differs only in `turns` and `drawn`. -/
theorem State.TurnOf.eq {s s' : State} {a : Agent} (h : s.TurnOf a s') :
    s' = { s with turns := s'.turns, drawn := s'.drawn } := by
  obtain ⟨rest, hl, rfl⟩ | ⟨hl, rfl, rfl⟩ := h <;> rfl

/-- A step is a step of `TX` at its turn, a step of `RX` at its turn, an idle turn of the host, or one line of the host
(R12, R76). -/
theorem step_cases {s t : State} (h : step s = .next t) :
    ∃ s',
      (s.TurnOf .tx s' ∧ t = txStep openNumerics s')
        ∨ (s.TurnOf .rx s' ∧ t = rxStep openNumerics s')
        ∨ (s.TurnOf .host s' ∧ s.host = [] ∧ t = s')
        ∨ (s.TurnOf .host s' ∧ ∃ line lines, s.host = line :: lines
          ∧ hostTurn referenceParams.depth line s' { s' with host := lines } = .next t) := by
  obtain ⟨a, s', ht⟩ := s.exists_turn
  rw [step_of_turn ht] at h
  refine ⟨s', ?_⟩
  cases a with
  | tx =>
    rw [agentTurn, txTurn, heldOr_unbounded] at h
    exact .inl ⟨ht, (Host.Outcome.next.inj h).symm⟩
  | rx =>
    rw [agentTurn, rxTurn, heldOr_unbounded] at h
    exact .inr (.inl ⟨ht, (Host.Outcome.next.inj h).symm⟩)
  | host =>
    have hh : s'.host = s.host := by rw [ht.eq]
    rw [agentTurn, hostTurns, hh] at h
    split at h
    · exact .inr (.inr (.inl ⟨ht, ‹_›, (Host.Outcome.next.inj h).symm⟩))
    · exact .inr (.inr (.inr ⟨ht, _, _, ‹_›, h⟩))

/-- Nothing of the engines and of the error registers has changed. -/
def EnginesKept (s t : State) : Prop :=
  t.tx = s.tx ∧ t.rx = s.rx ∧ t.hp = s.hp ∧ t.err = s.err ∧ t.errInfo = s.errInfo

/-- A line of the host issues a command word, resets the block, or leaves the engines and the error registers alone
(R204 to R208). -/
theorem hostTurn_cases {depth : StreamName → Option Nat} {line : HostStep} {held s t : State}
    (hh : EnginesKept s held) (h : hostTurn depth line held s = .next t) :
    (∃ w, line = .write cmdOffset w ∧ issue w s = .next t)
      ∨ (line = .resetInput ∧ t = s.resetBlock)
      ∨ EnginesKept s t := by
  have keep : ∀ {u : State}, EnginesKept s u → (Host.Outcome.next u : Host.Outcome State Fault Refusal) = .next t →
      EnginesKept s t := fun hu e => Host.Outcome.next.inj e ▸ hu
  have self : EnginesKept s s := ⟨rfl, rfl, rfl, rfl, rfl⟩
  cases line with
  | write offset v =>
    rw [hostTurn, hostWrite, atOffset] at h
    split at h
    · cases h
    · split at h
      · cases h
      · split at h
        · rename_i ho
          exact .inl ⟨v, by rw [ho], h⟩
        · refine .inr (.inr (keep ?_ h))
          unfold State.writeAt State.writeReg
          split
          · split <;> exact self
          · exact self
  | read offset =>
    rw [hostTurn, hostRead, atOffset] at h
    split at h
    · cases h
    · split at h
      · cases h
      · exact .inr (.inr (keep (u := s.answer _) self h))
  | resetInput => exact .inr (.inl ⟨rfl, (Host.Outcome.next.inj h).symm⟩)
  | pushTxd x => exact .inr (.inr (keep (by split <;> assumption) h))
  | pushRxs x => exact .inr (.inr (keep (by split <;> assumption) h))
  | pushRxb x => exact .inr (.inr (keep (by split <;> assumption) h))
  | headTxs => exact .inr (.inr (keep (u := s.answer _) self h))
  | headRxd => exact .inr (.inr (keep (u := s.answer _) self h))
  | waitTx => exact .inr (.inr (keep (by unfold waitOn; dsimp only; split <;> exact self) h))
  | waitRx => exact .inr (.inr (keep (by unfold waitOn; dsimp only; split <;> exact self) h))
  | popTxs =>
    rw [hostTurn] at h
    split at h <;> exact .inr (.inr (keep (by assumption) h))
  | popRxd =>
    rw [hostTurn] at h
    split at h <;> exact .inr (.inr (keep (by assumption) h))
  | popAllTxs =>
    rw [hostTurn] at h
    split at h <;> exact .inr (.inr (keep (by assumption) h))
  | popAllRxd =>
    rw [hostTurn] at h
    split at h <;> exact .inr (.inr (keep (by assumption) h))

end Sys2Proof.Machine
end

