-- ==== Sys2Proof/Tests/Slice0.lean ====
section
/-! SUPPORT. Tests on words, values and states taken from spec/, and for each statement with hypotheses a witness that meets them. -/

namespace Sys2Proof.Tests

open Sys2Proof.Machine

/-! ### Command words (30_encoding.md section 7; the words printed in the command rules) -/

theorem test_decode_nop : decode 0x00000000#32 = some .nop := by decide
theorem test_decode_tone : decode 0x00000001#32 = some (.tone false) ∧ decode 0x00000101#32 = some (.tone true) := by
  decide
theorem test_decode_sil : decode 0x00000002#32 = some .sil := by decide
theorem test_decode_txbit :
    decode 0x00000003#32 = some (.txbit false) ∧ decode 0x00000103#32 = some (.txbit true) := by decide
theorem test_decode_txbyte : decode 0x0000A504#32 = some (.txbyte 0xA5#8) := by decide
theorem test_decode_txend : decode 0x00000005#32 = some .txend := by decide
theorem test_decode_txraw : decode 0x00000006#32 = some .txraw := by decide
theorem test_decode_txframe :
    decode 0x00000007#32 = some (.txframe .gzip) ∧ decode 0x00000107#32 = some (.txframe .lzma)
      ∧ decode 0x00000207#32 = some (.txframe .bz2) ∧ decode 0x00000307#32 = some (.txframe .zlib) := by decide
theorem test_decode_rxslot : decode 0x00000008#32 = some .rxslot := by decide
theorem test_decode_rxflush : decode 0x00000009#32 = some .rxflush := by decide
theorem test_decode_rxraw : decode 0x0000000A#32 = some .rxraw := by decide
theorem test_decode_rxframe : decode 0x0000000B#32 = some .rxframe := by decide
theorem test_decode_hparse : decode 0x0000000C#32 = some .hparse := by decide
theorem test_decode_clrerr : decode 0x0000000E#32 = some .clrerr := by decide
theorem test_decode_reset : decode 0x0000000F#32 = some .reset := by decide

/-- A command word is one 32-bit word: the table's numbering is the word's own. -/
theorem test_table_word : decodeTableWord 32 0x00000207 = some (.txframe .bz2) ∧ decodeTableWord 32 0x0D = none := by
  decide

/-! ### Ill-formed words, one for each check (R103; vectors Y1 to Y4) -/

theorem test_illegal_opcode_0D : legalWord 0x0000000D#32 = false ∧ decode 0x0000000D#32 = none := by decide
theorem test_illegal_opcode_10 : legalWord 0x00000010#32 = false ∧ decode 0x00000010#32 = none := by decide
theorem test_illegal_opcode_FF : legalWord 0x000000FF#32 = false ∧ decode 0x000000FF#32 = none := by decide
theorem test_illegal_reserved : legalWord 0x00010000#32 = false ∧ decode 0x00010000#32 = none := by decide
theorem test_illegal_tone_operand : legalWord 0x00000201#32 = false ∧ decode 0x00000201#32 = none := by decide
theorem test_illegal_txbit_operand : legalWord 0x00000203#32 = false ∧ decode 0x00000203#32 = none := by decide
theorem test_illegal_txframe_operand : legalWord 0x00000407#32 = false ∧ decode 0x00000407#32 = none := by decide
theorem test_illegal_nop_operand : legalWord 0x00000100#32 = false ∧ decode 0x00000100#32 = none := by decide
theorem test_illegal_reset_operand : legalWord 0x0000010F#32 = false ∧ decode 0x0000010F#32 = none := by decide

/-- The check refuses fields that make no legal word, field by field. -/
theorem test_ill_formed_fields :
    legalFields 0x0D#8 0#8 0#16 = false ∧ legalFields 0x01#8 2#8 0#16 = false
      ∧ legalFields 0x04#8 0xFF#8 1#16 = false ∧ legalFields 0x04#8 0xFF#8 0#16 = true := by decide

/-! ### Rounding and derived values (section 2.1 of 95_test_vectors.md) -/

theorem test_K0 :
    rndDiv 5 2 = 2 ∧ rndDiv 7 2 = 4 ∧ rndDiv 12 5 = 2 ∧ rndDiv 24 5 = 5 ∧ rndDiv 1 2 = 0 ∧ rndDiv 3 2 = 2
      ∧ rndDiv 0 1 = 0 ∧ rndDiv 49 100 = 0 := by decide

/-- CFG8. -/
def cfg8 : Cfg := ⟨8#32, 2#32, 1#32, 1000000000#32, 500000000#32⟩
/-- The configuration of K3. -/
def cfgK3 : Cfg := ⟨44100#32, 2200#32, 1200#32, 10000000#32, 5000000#32⟩
/-- The configuration of K6. -/
def cfgK6 : Cfg := ⟨4000000000#32, 2#32, 1#32, 4000000000#32, 4000000000#32⟩

theorem test_K1 :
    cfg8.nTone = 8 ∧ cfg8.nSil = 4 ∧ cfg8.nSlot = 12 ∧ cfg8.kHigh = 2 ∧ cfg8.kLow = 1
      ∧ cfgchk cfg8 = 0#32 ∧ cfgwarn cfg8 = 0#32 := by decide
theorem test_K3 :
    cfgK3.nTone = 441 ∧ cfgK3.nSil = 220 ∧ cfgK3.nSlot = 662 ∧ cfgK3.kHigh = 22 ∧ cfgK3.kLow = 12
      ∧ cfgwarn cfgK3 = 2#32 := by decide
theorem test_K5 :
    cfgchk ⟨0#32, 2#32, 1#32, 1#32, 1#32⟩ = 0x41#32 ∧ cfgchk ⟨8#32, 2#32, 2#32, 1000000000#32, 1#32⟩ = 0x08#32
      ∧ cfgchk ⟨8#32, 2#32, 1#32, 0#32, 1#32⟩ = 0x50#32
      ∧ cfgchk ⟨0#32, 0#32, 0#32, 0#32, 0#32⟩ = 0x7F#32 := by decide
theorem test_K6 :
    cfgchk cfgK6 = 0x80#32 ∧ saturate cfgK6.nTone = 0xFFFFFFFF#32 ∧ saturate cfgK6.nSlot = 0xFFFFFFFF#32 := by
  decide
theorem test_K7 :
    cfgwarn ⟨10#32, 3#32, 1#32, 240000000#32, 240000000#32⟩ = 3#32 := by decide
theorem test_K8 : cfgwarn ⟨8000#32, 1200#32, 900#32, 1000000#32, 1000000#32⟩ = 9#32 := by decide
theorem test_K9 : cfgwarn ⟨8#32, 4#32, 1#32, 1000000000#32, 500000000#32⟩ = 4#32 := by decide
theorem test_K11 :
    kbin 500 48 48000 = 0 ∧ kbin 1499 48 48000 = 1 ∧ kbin 1500 48 48000 = 1 ∧ kbin 1501 48 48000 = 2
      ∧ kbin 24000 48 48000 = 24 ∧ kbin 30000 48 48000 = 24 ∧ kbin 3 7 8 = 3 ∧ kbin 4 7 8 = 3
      ∧ kbin 0 8 8 = 0 := by decide

/-! ### The functions of the source (sections 2.2 to 2.6) -/

/-- An arithmetic whose samples name the phase they were made from. -/
def tiny : Numerics Sample where
  sval _ := 0
  szero := ⟨0⟩
  sinS q := ⟨1 + q.num.toNat * 1000 + q.den⟩
  binGt x ka kb := ka ≠ kb && x.any (· ≠ ⟨0⟩)
  epsSin := 1
  epsMag _ := 0

/-- T4: the spacing is `d / N`, not `1 / sr`. -/
theorem test_T4 : tone tiny 3 (1 / 4) 10 = [tiny.sinS 0, tiny.sinS (3 / 8)] := by decide +kernel
theorem test_T3 : silence tiny (seconds cfg8.silDur) 8 = List.replicate 4 tiny.szero := by decide +kernel
theorem test_B1 : bytesToBits [0xA5#8] = [true, false, true, false, false, true, false, true] := by decide
theorem test_B5 :
    bitsToBytes [true, false, true, false, false, true, false, true, true, true, true, true] = [0xA5#8] := by decide
theorem test_B6 : bitsToBytes [] = [] ∧ bitsToBytes [true, true, true] = [] := by decide
theorem test_X6 :
    demodulate tiny (RxCfg.of cfg8) (List.replicate 30 ⟨0⟩) = [false, false] := by decide
theorem test_H21 :
    header .gzip = [0x00#8, 0x00#8, 0x00#8, 0x04#8, 0x67#8, 0x7A#8, 0x69#8, 0x70#8]
      ∧ header .lzma = [0x00#8, 0x00#8, 0x00#8, 0x04#8, 0x6C#8, 0x7A#8, 0x6D#8, 0x61#8]
      ∧ header .bz2 = [0x00#8, 0x00#8, 0x00#8, 0x03#8, 0x62#8, 0x7A#8, 0x32#8]
      ∧ header .zlib = [0x00#8, 0x00#8, 0x00#8, 0x04#8, 0x7A#8, 0x6C#8, 0x69#8, 0x62#8] := by decide
theorem test_H3 : parseFrame [0#8, 0#8, 0#8, 0#8] = .err .unsupportedMethod 0 := by decide
theorem test_H7 :
    parseFrame [0#8, 0#8, 0#8, 3#8, 0x62#8, 0x7A#8, 0x32#8, 0x42#8] = .ok .bz2 [0x42#8] := by decide
theorem test_H14 : utf8Ok [0xF0#8, 0x90#8, 0x80#8, 0x80#8] = true ∧ utf8Ok [0xC3#8, 0xA9#8] = true := by decide
theorem test_H17_H18 : utf8Ok [0xED#8, 0xA0#8, 0x80#8] = false ∧ utf8Ok [0xC0#8, 0x80#8] = false := by decide
theorem test_H19 : parseFrame [0#8, 0#8, 0#8, 2#8, 0xC3#8] = .err .frameTooShort 5 := by decide

/-! ### One command, one step -/

/-- The block after reset with CFG8 written. -/
def ready : State := { State.reset with cfg := cfg8 }

/-- The block with equal frequencies: `CFGCHK = 8`. -/
def badCfg : State := { State.reset with cfg := { cfg8 with freqHigh := 1#32 } }

/-- The state after a command is written to `CMD`. -/
def issued (i : Instr) (s : State) : State :=
  match exec i s with
  | .next t => t
  | _ => s

theorem test_nop : issued .nop ready = ready := rfl
/-- T1: the first sample is `SIN_S(0)`. -/
theorem test_tone_sample :
    (txStep tiny (issued (.tone true) ready)).txs = [.data (tiny.sinS 0)] := by decide +kernel
theorem test_tone_phase :
    (issued (.tone true) ready).tx.cfg.phase true 1 = 1 / 4
      ∧ (issued (.tone false) ready).tx.cfg.phase false 1 = 1 / 8 := by decide +kernel
theorem test_sil_sample : (txStep tiny (issued .sil ready)).txs = [.data tiny.szero] := by decide
theorem test_txbit_busy : (issued (.txbit true) ready).status = 1#32 := by decide
/-- R142: the slot closes after its silence and is counted. -/
theorem test_txbit_slot_closes :
    (txStep tiny { ready with tx := { (issued (.txbit true) ready).tx with seg := .silence, k := 4 } }).tx.pos
      = 1#32 := by decide
/-- Bit 7 is sent first. -/
theorem test_txbyte_first_bit :
    (txStep tiny (issued (.txbyte 0xA5#8) ready)).tx.sym = true
      ∧ (txStep tiny (issued (.txbyte 0xA5#8) ready)).tx.nbits = 7
      ∧ (txStep tiny (issued (.txbyte 0xA5#8) ready)).tx.shift = 0x4A#8 := by decide
/-- Y6: `TXEND` uses no configuration. -/
theorem test_txend :
    (txStep tiny (issued .txend badCfg)).txs = [.fin] ∧ (txStep tiny (issued .txend badCfg)).status = 4#32 := by
  decide
/-- M4: an empty buffer. -/
theorem test_txraw_empty :
    (txStep tiny (issued .txraw { ready with txd := [.fin] })).txs = [.fin]
      ∧ (txStep tiny (issued .txraw { ready with txd := [.fin] })).status = 4#32 := by decide
theorem test_txraw_holds : txStep tiny (issued .txraw ready) = issued .txraw ready := rfl
theorem test_txframe_header :
    (issued (.txframe .bz2) ready).tx.hdr = header .bz2
      ∧ (txStep tiny (issued (.txframe .bz2) ready)).tx.hdr = (header .bz2).tail := by decide
/-- X1: the slot's last sample gives the bit. -/
theorem test_rxslot_bit :
    (rxStep tiny { issued .rxslot { ready with rxs := [.data ⟨0⟩] } with
        rx := { (issued .rxslot ready).rx with k := 11, buf := List.replicate 8 ⟨7⟩ } }).status
      = 0x00010008#32 := by decide
/-- X14: `END` before a whole slot. -/
theorem test_rxslot_end :
    (rxStep tiny (issued .rxslot { ready with rxs := [.fin], rx := { ready.rx with dsCnt := 2 } })).status
      = 0x00020028#32 := by decide
/-- B7. -/
theorem test_rxflush :
    (rxStep tiny (issued .rxflush { badCfg with rx := { badCfg.rx with dsCnt := 4 } })).status = 0x00000008#32
      ∧ (rxStep tiny (issued .rxflush { badCfg with rx := { badCfg.rx with dsCnt := 4 } })).rxd = [.fin] := by
  decide
/-- X4. -/
theorem test_rxraw_empty :
    (rxStep tiny (issued .rxraw { ready with rxs := [.fin] })).rxd = [.fin]
      ∧ (rxStep tiny (issued .rxraw { ready with rxs := [.fin] })).status = 0x28#32 := by decide
/-- P4: the input ends in `H_LEN`. -/
theorem test_rxframe_short :
    (rxStep tiny (issued .rxframe { ready with rxs := [.fin] })).status = 0x00000438#32
      ∧ (rxStep tiny (issued .rxframe { ready with rxs := [.fin] })).errWord = 1#32 := by decide
/-- H19: an input that ends inside a malformed name is too short. -/
theorem test_hparse_order :
    (rxStep tiny { issued .hparse { ready with rxb := [.fin] } with
        hp := { (issued .hparse ready).hp with state := .name, cnt := 1, len := 2#32, total := 5, u8 := .bad } }).errInfo
      = 5#32 := by decide
/-- H22: the last name byte raises, and counting stops. -/
theorem test_hparse_unsupported :
    (rxStep tiny { issued .hparse { ready with rxb := [.data 0x50#8] } with
        hp := { (issued .hparse ready).hp with state := .name, cnt := 3, len := 4#32, total := 7, matched := 0#4 } }).err
      = .unsupportedMethod := by decide
/-- Y11. -/
theorem test_clrerr :
    (issued .clrerr { ready with err := .frameTooShort, hp := { ready.hp with state := .fail } }).status
      = 0x400#32 := by decide
/-- Y14. -/
theorem test_reset :
    (issued .reset { ready with err := .cmdBusy, txs := [.fin] }).txs = []
      ∧ (issued .reset { ready with err := .cmdBusy, txs := [.fin] }).status = 0#32 := by decide

/-! ### Issue and registers (section 2.7) -/

theorem test_Y1 : issue 0x0000000D#32 ready = .next { ready with err := .illegalCmd, errInfo := 0x0D#32 } := rfl
theorem test_Y5 :
    (issued (.txbit true) badCfg).errWord = 5#32 ∧ (issued (.txbit true) badCfg).errInfo = 8#32 := by decide
theorem test_Y7 :
    (issued (.txbit true) (issued .txraw ready)).status = 0x11#32
      ∧ (issued (.txbit true) (issued .txraw ready)).errInfo = 0x103#32 := by decide
theorem test_Y8 : (issued .rxflush (issued .txraw ready)).status = 3#32 := by decide
theorem test_Y9 :
    issued (.txbit true) { ready with err := .frameTooShort } = { ready with err := .frameTooShort } := rfl
theorem test_Y12 :
    ready.readAt 0x04 = 0#32 ∧ ready.readAt 0x5C = 0#32 ∧ ready.readAt 0x00 = 0x54324131#32 := by decide
theorem test_Y13 : (ready.writeAt 0x28 0xFFFFAA55#32).markersWord = 0x0000AA55#32 := by decide
/-- R109: the pattern "10101010" is 0xAA. -/
theorem test_marker_pattern :
    markerPattern [true, false, true, false, true, false, true, false] = 0xAA#8 := by decide
/-- The last mapped offset (R43). -/
theorem test_register_map_end : regAt 0x58 = some .rxbytes ∧ regAt 0x5C = none ∧ registerMap.length = 23 := by decide

/-- The next step after `withFetchWord` issues the word, from reset too. -/
theorem test_fetch_word :
    step (State.reset.withFetchWord 32 0x00000005) = exec .txend State.reset := rfl

/-! ### Witnesses: a state and operands that meet every hypothesis of a statement -/

/-- Both engines in the middle of a command, `TX`'s turn next and the host about to clear errors. -/
def running : State :=
  { ready with
    tx := { TxState.reset with op := .txbit, busy := true, cfg := TxCfg.of cfg8, seg := .tone, k := 3 }
    rx := { RxState.reset with op := .rxraw, busy := true, cfg := RxCfg.of cfg8, k := 5,
                               buf := List.replicate 5 ⟨0⟩ }
    turns := [.tx], host := [.write 0x04 0x0E#32] }

theorem running_inv : running.Inv where
  tx := by
    constructor <;> try simp [running, TxState.reset, TxOp.usesCfg]
    · exact ⟨cfg8, by decide, rfl⟩
    · decide
  rx := by
    constructor <;> try simp [running, RxState.reset, RxOp.usesCfg]
    · exact ⟨cfg8, by decide, rfl⟩
    · decide
  parser := by
    constructor <;> simp [running, ready, RxState.reset, RxOp.usesParser, State.reset, Parser.reset]
  error := by constructor <;> simp [running, ready, State.reset]

theorem witness_IllegalWordsRaiseIllegalCmd :
    decode 0x0000000D#32 = none ∧ ready.err = .noError
      ∧ (issued (.txbit true) badCfg).err ≠ .noError ∧ decode 0x000000FF#32 = none := by decide
theorem witness_StepIssuesTheDecodedCommand :
    (∃ s : State, s.turns = [.host] ∧ s.host = [.write 0x04 0x0000A504#32]
        ∧ decode 0x0000A504#32 = some (.txbyte 0xA5#8) ∧ (Instr.txbyte 0xA5#8).wellFormed = true)
      ∧ ∃ s : State, s.turns = [.host] ∧ s.host = [.write 0x04 0x00010000#32] ∧ decode 0x00010000#32 = none :=
  ⟨⟨{ ready with turns := [.host], host := [.write 0x04 0x0000A504#32] }, rfl, rfl, by decide, by decide⟩,
    ⟨{ ready with turns := [.host], host := [.write 0x04 0x00010000#32] }, rfl, rfl, by decide⟩⟩
theorem witness_TurnsBelongToOneAgent :
    (∃ s : State, s.turns = [.tx]) ∧ (∃ s : State, s.turns = [.rx])
      ∧ (∃ s : State, s.turns = [.host] ∧ s.host = []) ∧ (∃ s : State, s.turns = [])
      ∧ ∃ s : State, s.turns = [.host] ∧ s.host = [.read 0x08] :=
  ⟨⟨{ ready with turns := [.tx] }, rfl⟩, ⟨{ ready with turns := [.rx] }, rfl⟩,
    ⟨{ ready with turns := [.host] }, rfl, rfl⟩, ⟨ready, rfl⟩,
    ⟨{ ready with turns := [.host], host := [.read 0x08] }, rfl, rfl⟩⟩
/-- The words with the `OP` of `NOP`, `CLRERR` and `RESET` and another bit set: lowest and highest such bit. -/
theorem witness_words_of_the_system_commands :
    (0x00000100#32 : Word).extractLsb' 0 8 = 0x00#8 ∧ (0x00000100#32 : Word) ≠ 0#32
      ∧ (0x8000000E#32 : Word).extractLsb' 0 8 = 0x0E#8 ∧ (0x8000000E#32 : Word) ≠ 0x0000000E#32
      ∧ (0x0000010F#32 : Word).extractLsb' 0 8 = 0x0F#8 ∧ (0x0000010F#32 : Word) ≠ 0x0000000F#32 := by decide
theorem witness_BusyEngineRaisesCmdBusy :
    running.err = .noError ∧ running.classBusy (Instr.tone true).commandClass = true
      ∧ running.classBusy Instr.hparse.commandClass = true := by decide
theorem witness_InvalidConfigurationIsRefused :
    (Instr.txbit true).usesCfg = true ∧ badCfg.err = .noError
      ∧ badCfg.classBusy (Instr.txbit true).commandClass = false ∧ cfgchk badCfg.cfg ≠ 0#32 := by decide
/-- A refusal, an acceptance of either class, and the error gate. -/
theorem witness_IssueHasNoPartialEffect :
    (Instr.txbit true).commandClass ≠ .sys ∧ Instr.hparse.commandClass ≠ .sys
      ∧ exec (.txbit true) badCfg = .next (issued (.txbit true) badCfg)
      ∧ exec (.txbit true) ready = .next (issued (.txbit true) ready)
      ∧ exec .hparse ready = .next (issued .hparse ready)
      ∧ (issued (.txbit true) badCfg).err ≠ .noError :=
  ⟨by decide, by decide, rfl, rfl, rfl, by decide⟩
theorem witness_FirstErrorSticks :
    ready.err = .noError ∧ (issued (.txbit true) badCfg).err ≠ .noError ∧ Cause.cmdBusy ≠ .noError := by decide
/-- A step that keeps the error and one that clears it. -/
theorem witness_ErrorsLeaveOnlyByClearing :
    (∃ t, step { running with err := .cmdBusy } = .next t)
      ∧ (∃ t, step { running with err := .cmdBusy, turns := [.host] } = .next t ∧ t.err = .noError)
      ∧ { running with err := .cmdBusy }.err ≠ .noError :=
  ⟨⟨_, rfl⟩, ⟨_, rfl, rfl⟩, by decide⟩
/-- A completion of either engine, and a reset. -/
theorem witness_BusyEndsOnlyByCompletionOrReset :
    (∃ t, step { issued .txend ready with turns := [.tx] } = .next t ∧ (issued .txend ready).tx.busy = true
        ∧ t.tx.busy = false)
      ∧ (∃ t, step { issued .rxflush ready with turns := [.rx] } = .next t ∧ (issued .rxflush ready).rx.busy = true
        ∧ t.rx.busy = false)
      ∧ ∃ t, step { running with turns := [.host], host := [.resetInput] } = .next t ∧ running.tx.busy = true
        ∧ t.tx.busy = false :=
  ⟨⟨_, rfl, rfl, rfl⟩, ⟨_, rfl, rfl, rfl⟩, ⟨_, rfl, rfl, rfl⟩⟩
/-- `ToneEmitsOneToneSegment`, `SilEmitsOneSilenceSegment`, `TxbitModulatesOneBit`, `TxbyteModulatesEightBits`. -/
theorem witness_single_shot_transmit :
    ready.err = .noError ∧ ready.tx.busy = false ∧ cfgchk ready.cfg = 0#32 := by decide
/-- `TXEND` and `RXFLUSH` do not ask for a valid configuration. -/
theorem witness_TxendClosesTheBuffer_RxflushDropsThePartialByte :
    badCfg.err = .noError ∧ badCfg.tx.busy = false ∧ badCfg.rx.busy = false ∧ cfgchk badCfg.cfg ≠ 0#32 := by decide
/-- The block ready, with these bytes and tokens in `TXD`. -/
def withTxd (items : List (Item Byte)) : State := { ready with txd := items }
/-- An empty buffer, and a buffer of one byte with an item after it; `TxframeModulatesHeaderAndPayload` has the same
hypotheses. -/
theorem witness_TxrawModulatesTheBuffer :
    (withTxd [.fin]).err = .noError ∧ (withTxd [.fin]).tx.busy = false ∧ cfgchk (withTxd [.fin]).cfg = 0#32
      ∧ (withTxd [.fin]).txd = buffer [] ++ []
      ∧ (withTxd [.data 0x42#8, .fin, .data 1#8]).txd = buffer [0x42#8] ++ [.data 1#8] := by decide
/-- The block ready, with these samples and tokens in `RXS` and `n` bits waiting. -/
def withRxs (items : List (Item Sample)) (n : Nat) : State :=
  { ready with rxs := items, rx := { ready.rx with dsCnt := n } }
/-- A whole slot of 12 samples, with the deserializer empty and with seven bits waiting. -/
theorem witness_RxslotClassifiesOneSlot :
    let samples := List.replicate 12 (⟨0⟩ : Sample)
    ∀ n ∈ [0, 7], (withRxs (samples.map .data) n).err = .noError
      ∧ (withRxs (samples.map .data) n).rx.busy = false ∧ cfgchk (withRxs (samples.map .data) n).cfg = 0#32
      ∧ (withRxs (samples.map .data) n).rx.dsCnt ≤ 7
      ∧ samples.length = (withRxs (samples.map .data) n).cfg.nSlot
      ∧ (withRxs (samples.map .data) n).rxs = samples.map .data ++ [] := by decide
/-- No sample and eleven samples before the `END`. -/
theorem witness_RxslotAtTheEndProducesNoBit :
    ∀ m ∈ [0, 11], let samples := List.replicate m (⟨0⟩ : Sample)
      (withRxs (buffer samples) 3).err = .noError ∧ (withRxs (buffer samples) 3).rx.busy = false
      ∧ cfgchk (withRxs (buffer samples) 3).cfg = 0#32
      ∧ samples.length < (withRxs (buffer samples) 3).cfg.nSlot
      ∧ (withRxs (buffer samples) 3).rxs = buffer samples ++ [] := by decide
/-- Also the hypotheses of `RxframeParsesTheRecoveredBytes`. -/
theorem witness_RxrawDemodulatesTheBuffer :
    (withRxs [.data ⟨5⟩, .fin, .fin] 0).err = .noError ∧ (withRxs [.data ⟨5⟩, .fin, .fin] 0).rx.busy = false
      ∧ cfgchk (withRxs [.data ⟨5⟩, .fin, .fin] 0).cfg = 0#32
      ∧ (withRxs [.data ⟨5⟩, .fin, .fin] 0).rxs = buffer [(⟨5⟩ : Sample)] ++ [.fin] := by decide
theorem witness_HparseParsesTheBytes :
    ({ badCfg with rxb := [.data 0#8, .fin] } : State).err = .noError
      ∧ ({ badCfg with rxb := [.data 0#8, .fin] } : State).rx.busy = false
      ∧ ({ badCfg with rxb := [.data 0#8, .fin] } : State).rxb = buffer [0#8] ++ [] := by decide
/-- No item and one item, without an `END`, in each input stream; then the rest of a slot of 12, or fewer, pushed in the hold. -/
theorem witness_CommandsWithoutEndHold :
    (withTxd []).err = .noError ∧ (withTxd []).tx.busy = false ∧ cfgchk (withTxd []).cfg = 0#32
      ∧ (withTxd []).txd = ([] : List Byte).map .data
      ∧ (withTxd [.data 0x42#8]).txd = [0x42#8].map .data
      ∧ (withRxs [] 3).err = .noError ∧ (withRxs [] 3).rx.busy = false ∧ cfgchk (withRxs [] 3).cfg = 0#32
      ∧ (withRxs [] 3).rxs = ([] : List Sample).map .data
      ∧ (withRxs [.data ⟨5⟩] 3).rxs = [(⟨5⟩ : Sample)].map .data
      ∧ ([⟨5⟩] : List Sample).length < (withRxs [.data ⟨5⟩] 3).cfg.nSlot
      ∧ ([⟨5⟩] ++ List.replicate 11 ⟨0⟩ : List Sample).length = (withRxs [.data ⟨5⟩] 3).cfg.nSlot
      ∧ ([⟨5⟩] ++ List.replicate 10 ⟨0⟩ : List Sample).length < (withRxs [.data ⟨5⟩] 3).cfg.nSlot
      ∧ (withRxs [.data ⟨5⟩] 3).rx.dsCnt ≤ 7 ∧ Instr.rxslot ≠ .reset
      ∧ ({ badCfg with rxb := [.data 0#8] } : State).err = .noError
      ∧ ({ badCfg with rxb := [.data 0#8] } : State).rx.busy = false
      ∧ ({ badCfg with rxb := [.data 0#8] } : State).rxb = [0#8].map .data := by decide
/-- In the middle of a header, and in the payload. -/
theorem witness_NoPayloadBeforeTheHeaderIsAccepted :
    (issued .rxframe ready).rx.op.usesParser = true ∧ (issued .hparse ready).rx.op.usesParser = true
      ∧ { (issued .hparse ready).hp with state := .payload }.state = .payload := by decide
/-- A step that keeps the results, one that accepts `HPARSE`, and a reset. -/
theorem witness_HeaderResultsChangeOnlyByParsing :
    running.rx.op.usesParser = false ∧ (∃ t, step running = .next t)
      ∧ ({ ready with turns := [.host], host := [.write 0x04 0x0C#32] } : State).rx.op.usesParser = false
      ∧ (∃ t, step { ready with turns := [.host], host := [.write 0x04 0x0C#32] } = .next t ∧ t.hp.hdrLen = 0#32)
      ∧ ∃ t, step { running with turns := [.host], host := [.resetInput] } = .next t ∧ t.hp.method = none :=
  ⟨rfl, ⟨_, rfl⟩, rfl, ⟨_, rfl, by decide⟩, ⟨_, rfl, rfl⟩⟩
/-- A quotient with a tie below it, one with a tie above it, and a denominator above 0. -/
theorem witness_RndIsNearestTiesToEven :
    0 < 2 ∧ 2 * 5 = 2 * (rndDiv 5 2 * 2) + 2 ∧ 2 * (rndDiv 7 2 * 2) = 2 * 7 + 2 := by decide
/-- A bin inside the axis with one below it, the ends of the axis, and a bin that 32 bits hold. -/
theorem witness_BinsAreTheLeastNearest :
    0 < 48 ∧ 0 < 48000 ∧ 24 ≤ 48 / 2 ∧ 0 < kbin 1501 48 48000
      ∧ kbin ready.cfg.freqHigh.toNat ready.cfg.nTone ready.cfg.sampleRate.toNat < 2 ^ 32
      ∧ kbin ready.cfg.freqLow.toNat ready.cfg.nTone ready.cfg.sampleRate.toNat < 2 ^ 32 := by decide
theorem witness_SegmentCounts :
    (0 : Rat) < 1 / 4 ∧ (0 : Rat) ≤ 0 ∧ (-1 : Rat) ≤ 0 ∧ Instr.rxslot.usesCfg = true
      ∧ ({ ready with cfg := { cfg8 with bitDur := 0#32 } } : State).err = .noError
      ∧ ({ ready with cfg := { cfg8 with bitDur := 0#32 } } : State).classBusy Instr.rxslot.commandClass = false
      ∧ ({ ready with cfg := { cfg8 with bitDur := 0#32 } } : State).cfg.bitDur = 0#32
      ∧ ({ ready with cfg := { cfg8 with silDur := 0#32 } } : State).cfg.silDur = 0#32 := by decide +kernel
theorem witness_BytesToBitsIsMostSignificantFirst :
    [0xA5#8, 0x3C#8][0]? = some 0xA5#8 ∧ [0xA5#8, 0x3C#8][1]? = some 0x3C#8 ∧ 0 < 8 ∧ 7 < 8 := by decide
theorem witness_BitsToBytesPacksWholeGroups : (bitsToBytes (List.replicate 17 true))[1]? = some 0xFF#8 := by decide
theorem witness_BitCodecRoundTrip : (List.replicate 12 true).length = 12 := by decide
theorem witness_ModulatedBufferShape : 0 < segCount 8 (1 / 8) ∧ segCount 8 (1 / 8) = 1 := by decide +kernel
/-- A buffer below one slot, one with a whole tone region after its last slot. -/
theorem witness_TrailingSamplesAreDropped :
    0 < cfg8.nSlot ∧ (List.replicate 11 (⟨0⟩ : Sample)).length < cfg8.nSlot
      ∧ (List.replicate 20 (⟨0⟩ : Sample)).length % cfg8.nSlot = cfg8.nTone := by decide
theorem witness_StatusFields : ready.rx.dsCnt ≤ 7 ∧ { ready.rx with dsCnt := 7 }.dsCnt ≤ 7 := by decide
/-- Bins that 32 bits hold; every register is read, so there is no other hypothesis. -/
theorem witness_ReadsHaveNoSideEffect : ready.cfg.kHigh < 2 ^ 32 ∧ ready.cfg.kLow < 2 ^ 32 := by decide
/-- Configurations whose slot is one longer and one shorter than its parts, and one with a count that 32 bits cannot hold. -/
theorem witness_SampleCountsOfTheConfiguration :
    cfgchk cfgK3 = 0#32 ∧ cfgK3.nSlot = cfgK3.nTone + cfgK3.nSil + 1
      ∧ cfgchk ⟨10#32, 3#32, 1#32, 260000000#32, 260000000#32⟩ = 0#32
      ∧ (⟨10#32, 3#32, 1#32, 260000000#32, 260000000#32⟩ : Cfg).nTone = 3
      ∧ (⟨10#32, 3#32, 1#32, 260000000#32, 260000000#32⟩ : Cfg).nSil = 3
      ∧ (⟨10#32, 3#32, 1#32, 260000000#32, 260000000#32⟩ : Cfg).nSlot = 5
      ∧ 2 ^ 32 ≤ cfgK6.nTone := by decide
/-- The first and the last mapped, the first and the last reserved offset. -/
theorem witness_WritesStoreOrAreIgnored :
    0x00 < 0x5C ∧ 0x00 % 4 = 0 ∧ 0x00 ∉ [0x04, 0x14, 0x18, 0x1C, 0x20, 0x24, 0x28]
      ∧ 0x58 < 0x5C ∧ 0x58 % 4 = 0 ∧ 0x58 ∉ [0x04, 0x14, 0x18, 0x1C, 0x20, 0x24, 0x28]
      ∧ 0x5C ≤ 0x5C ∧ 0x5C < 0x100 ∧ 0x5C % 4 = 0 ∧ 0x5C ≤ 0xFC ∧ 0xFC < 0x100 ∧ 0xFC % 4 = 0 := by decide
theorem witness_UndefinedAccessesStop :
    1 < 0x100 ∧ 1 % 4 ≠ 0 ∧ 0xFF < 0x100 ∧ 0xFF % 4 ≠ 0 ∧ 0x100 ≤ 0x100 := by decide
theorem witness_StreamsAreFirstInFirstOut :
    { ready with txs := [.fin] }.txs = [.fin] ∧ { ready with rxd := [.data 1#8, .fin] }.rxd = [.data 1#8, .fin]
      ∧ ready.txs = [] ∧ ready.rxd = []
      ∧ { ready with txs := [.data ⟨5⟩, .fin] }.txs = [.data ⟨5⟩, .fin] := by decide
/-- Every stream one item deep. -/
def shallow : Params where
  num := tiny
  depth _ := some 1
/-- A turn of either engine whose push finds a full stream, and pushes of the host to full streams and to empty ones. -/
theorem witness_FiniteDepthOnlyAddsHolds :
    let s : State := { issued .rxflush (issued .txend { ready with txs := [.fin], rxd := [.fin] }) with
      txd := [.fin], rxs := [.fin], rxb := [.fin] }
    shallow.depth .txs = some 1 ∧ 1 ≤ s.txs.length ∧ s.txs.length < (txStep shallow.num s).txs.length
      ∧ shallow.depth .rxd = some 1 ∧ 1 ≤ s.rxd.length ∧ s.rxd.length < (rxStep shallow.num s).rxd.length
      ∧ shallow.depth .txd = some 1 ∧ 1 ≤ s.txd.length ∧ ready.txd.length < 1
      ∧ shallow.depth .rxs = some 1 ∧ 1 ≤ s.rxs.length ∧ ready.rxs.length < 1
      ∧ shallow.depth .rxb = some 1 ∧ 1 ≤ s.rxb.length ∧ ready.rxb.length < 1 := by decide
/-- R63, R146: an item pushed to the stream of a held engine is popped by its next step. -/
theorem test_push_lifts_the_hold :
    (txStep tiny ((issued .txraw ready).feed [.data 0xA5#8] [] [])).tx.shift = 0xA5#8
      ∧ (txStep tiny ((issued .txraw ready).feed [.data 0xA5#8] [] [])).txd = [] := by decide
theorem witness_ConfigurationWritesDoNotReachRunningCommands :
    Reg.bitDur ≠ .cmd ∧ Reg.markers ≠ .cmd ∧ Instr.txraw ≠ .reset := by decide
theorem witness_StepKeepsTheInvariant : running.Inv ∧ ∃ t, step running = .next t :=
  ⟨running_inv, _, rfl⟩
theorem witness_SampleIndicesNeverWrap :
    running.Inv ∧ running.tx.op.usesCfg = true ∧ running.rx.op.usesCfg = true :=
  ⟨running_inv, rfl, rfl⟩
/-- A region of zeros under the machine's arithmetic and under the reference one, and equal bins. -/
theorem witness_SilenceIsClassifiedZero :
    (∀ a ∈ [openNumerics.szero], openNumerics.sval a = 0)
      ∧ referenceNumerics.Lawful ∧ (∀ a ∈ [referenceNumerics.szero], referenceNumerics.sval a = 0)
      ∧ (RxCfg.of ⟨8000#32, 1200#32, 900#32, 1000000#32, 1000000#32⟩).kHigh
        = (RxCfg.of ⟨8000#32, 1200#32, 900#32, 1000000#32, 1000000#32⟩).kLow :=
  ⟨by simp [openNumerics_lawful.zero], referenceNumerics_ideal.lawful, by simp [referenceNumerics_ideal.zero],
    by decide⟩
/-- Two regions of real samples, one the other times -2. -/
theorem witness_ScalingLeavesTheBit :
    referenceNumerics.Ideal ∧ (-2 : ℝ) ≠ 0
      ∧ [(-2 : ℝ), 4].map referenceNumerics.sval = [(1 : ℝ), -2].map (fun a => -2 * referenceNumerics.sval a) :=
  ⟨referenceNumerics_ideal, by norm_num, by norm_num [referenceNumerics]⟩
theorem witness_GeneratedSamplesAreInRange :
    referenceNumerics.Lawful ∧ referenceNumerics.szero ∈ modulate referenceNumerics cfg8 [true] := by
  refine ⟨referenceNumerics_ideal.lawful, ?_⟩
  have h : segCount cfg8.sampleRate.toNat (seconds cfg8.silDur) = 4 := by decide +kernel
  simp [modulate, slot, silence, h]
/-- CFG8 meets the condition of the round trip, with the reference arithmetic. -/
theorem witness_IdealRoundTrip :
    referenceNumerics.Ideal ∧ cfgchk cfg8 = 0#32 ∧ RoundTrips cfg8 :=
  ⟨referenceNumerics_ideal, by decide,
    ⟨by decide, by decide, by decide, by decide, by decide, by decide, by decide, by decide, by decide⟩⟩

end Sys2Proof.Tests
end

/-! PROOF. `rnd` rounds to the nearest integer, a tie to the even one (R9). -/

namespace Sys2Proof.Machine

/-- The two ways `rndDiv` rounds: down from the lower half, up from the upper half, and in the middle to the even side. -/
theorem rndDiv_down_or_up (p q : Nat) :
    (rndDiv p q = p / q ∧ 2 * (p % q) ≤ q ∧ (2 * (p % q) = q → p / q % 2 = 0))
    ∨ (rndDiv p q = p / q + 1 ∧ q ≤ 2 * (p % q) ∧ (2 * (p % q) = q → p / q % 2 = 1)) := by
  unfold rndDiv
  split_ifs with hlow hhigh heven
  · exact .inl ⟨rfl, by omega, by omega⟩
  · exact .inr ⟨rfl, by omega, by omega⟩
  · exact .inl ⟨rfl, by omega, fun _ => heven⟩
  · exact .inr ⟨rfl, by omega, by omega⟩

/-- `rndDiv p q` is within half a unit of `p / q`, on both sides, and even at a distance of exactly one half. -/
theorem rndDiv_nearest_even (p q : Nat) (hq : 0 < q) :
    2 * (rndDiv p q * q) ≤ 2 * p + q ∧ 2 * p ≤ 2 * (rndDiv p q * q) + q
    ∧ (2 * (rndDiv p q * q) = 2 * p + q ∨ 2 * p = 2 * (rndDiv p q * q) + q → rndDiv p q % 2 = 0) := by
  have hdiv : p / q * q + p % q = p := Nat.div_add_mod' p q
  have hmod : p % q < q := Nat.mod_lt p hq
  obtain ⟨hr, hhalf, htie⟩ | ⟨hr, hhalf, htie⟩ := rndDiv_down_or_up p q
  · rw [hr]
    omega
  · have hup : rndDiv p q * q = p / q * q + q := by rw [hr, Nat.succ_mul]
    rw [hup, hr]
    omega

/-- Settles O32: an integer quotient rounds down or up by its remainder, and a rational rounds as any fraction that names it. -/
theorem rndIsNearestTiesToEven : Obligations.RndIsNearestTiesToEven :=
  ⟨rndDiv_nearest_even, rnd_div_eq,
    mod_cast rnd_div_eq 5 2 (by decide), mod_cast rnd_div_eq 7 2 (by decide),
    mod_cast rnd_div_eq 12 5 (by decide), mod_cast rnd_div_eq 24 5 (by decide)⟩

end Sys2Proof.Machine

/-! PROOF. A word of flags holds each flag at its own place: `CFGCHK` and `CFGWARN` (R31, R32). -/

namespace Sys2Proof.Machine

@[simp] theorem flagBit_getElem (n : Nat) (b : Bool) {i : Nat} (hi : i < 32) :
    (flagBit n b)[i] = (b && decide (i = n)) := by
  cases b
  case false => simp [flagBit]
  case true =>
    rw [flagBit, if_pos rfl, BitVec.getElem_shiftLeft]
    by_cases hn : i = n
    · simp [hn]
    · have hone : n ≤ i → i - n ≠ 0 := by omega
      simpa [hn] using hone

/-- A flag sets no bit of a field above its own place. -/
@[simp] theorem flagBit_extractLsb'_above {n lo : Nat} (h : n < lo) (len : Nat) (b : Bool) :
    (flagBit n b).extractLsb' lo len = 0#len := by
  ext i hi
  rw [BitVec.getElem_extractLsb', BitVec.getElem_zero]
  by_cases hin : lo + i < 32
  · rw [BitVec.getLsbD_eq_getElem hin, flagBit_getElem, decide_eq_false (by omega), Bool.and_false]
  · exact BitVec.getLsbD_of_ge _ _ (by omega)

/-- Settles O45: bit `i` of a word of flags is the one flag placed at `i`, and a field above all of them holds none. -/
theorem configurationChecksReadTheLiveConfiguration : Obligations.ConfigurationChecksReadTheLiveConfiguration := by
  intro s
  have hunits : 10 ^ 9 = unitsPerSecond := rfl
  rw [hunits]
  simp [State.readReg, cfgchk, cfgwarn, flagBit_getElem, BitVec.extractLsb'_or, flagBit_extractLsb'_above]

end Sys2Proof.Machine

/-! PROOF. Rounding keeps the order and is off by at most one on a sum; the sample counts of a configuration (R28). -/

namespace Sys2Proof.Machine

/-- Rounding is monotone: two neighbours out of order would both be ties, and both even. -/
theorem rndDiv_le_rndDiv {p p' q : Nat} (hq : 0 < q) (h : p ≤ p') : rndDiv p q ≤ rndDiv p' q := by
  by_contra! hlt
  obtain ⟨hlow, -, heven⟩ := rndDiv_nearest_even p q hq
  obtain ⟨-, hhigh, heven'⟩ := rndDiv_nearest_even p' q hq
  have hstep : rndDiv p' q * q + q ≤ rndDiv p q * q :=
    Nat.succ_mul .. ▸ Nat.mul_le_mul_right q hlt
  have hnext : rndDiv p q = rndDiv p' q + 1 :=
    Nat.eq_of_mul_eq_mul_right hq (by rw [Nat.succ_mul]; omega)
  omega

/-- Two integers that lie at most one and a half units apart lie at most one unit apart. -/
theorem le_add_one_of_mul_le {a b q : Nat} (hq : 0 < q) (h : 2 * (a * q) ≤ 2 * (b * q) + 3 * q) : a ≤ b + 1 := by
  by_contra! hlt
  have hmul : (b + 1 + 1) * q ≤ a * q := Nat.mul_le_mul_right q hlt
  rw [Nat.succ_mul, Nat.succ_mul] at hmul
  omega

/-- Each of the three roundings loses at most half a unit. -/
theorem rndDiv_add_within_one (p p' q : Nat) (hq : 0 < q) :
    rndDiv (p + p') q ≤ rndDiv p q + rndDiv p' q + 1
    ∧ rndDiv p q + rndDiv p' q ≤ rndDiv (p + p') q + 1 := by
  obtain ⟨hlow, hhigh, -⟩ := rndDiv_nearest_even p q hq
  obtain ⟨hlow', hhigh', -⟩ := rndDiv_nearest_even p' q hq
  obtain ⟨hlowSum, hhighSum, -⟩ := rndDiv_nearest_even (p + p') q hq
  have hparts : (rndDiv p q + rndDiv p' q) * q = rndDiv p q * q + rndDiv p' q * q := Nat.add_mul ..
  exact ⟨le_add_one_of_mul_le hq (by omega), le_add_one_of_mul_le hq (by omega)⟩

theorem nTone_le_nSlot (c : Cfg) : c.nTone ≤ c.nSlot :=
  rndDiv_le_rndDiv (by decide) (Nat.mul_le_mul_left _ (Nat.le_add_right _ _))

theorem nSil_le_nSlot (c : Cfg) : c.nSil ≤ c.nSlot :=
  rndDiv_le_rndDiv (by decide) (Nat.mul_le_mul_left _ (Nat.le_add_left _ _))

theorem nSlot_within_one (c : Cfg) :
    c.nSlot ≤ c.nTone + c.nSil + 1 ∧ c.nTone + c.nSil ≤ c.nSlot + 1 := by
  unfold Cfg.nSlot
  rw [Nat.mul_add]
  exact rndDiv_add_within_one _ _ _ (by decide)

/-- A count of a rate and a duration is the rounding of their rational product in units of 10^-9 (R28). -/
theorem rnd_mul_div_units (sr d : Nat) : rnd ((sr : Rat) * (d : Rat) / 10 ^ 9) = rndDiv (sr * d) unitsPerSecond := by
  rw [← rnd_div_eq _ _ (by decide)]
  norm_num [unitsPerSecond]

@[simp] theorem saturate_toNat (n : Nat) : (saturate n).toNat = min n (2 ^ 32 - 1) := by
  rw [saturate, BitVec.toNat_ofNat, Nat.mod_eq_of_lt (by omega)]

/-- A slot that 32 bits cannot hold fails the check `OVF` (R31). -/
theorem cfgchk_ne_zero_of_nSlot {c : Cfg} (h : 2 ^ 32 ≤ c.nSlot) : cfgchk c ≠ 0#32 := by
  have hovf : (cfgchk c).getLsbD 7 = true := by
    simpa [cfgchk, flagBit_getElem] using h
  intro h0
  simp [h0] at hovf

/-- Settles O33: the order and the difference of the counts are rules of `rndDiv`; a count that 32 bits cannot hold makes the
slot one that 32 bits cannot hold. The first configuration loses a sample in its parts, the second in its slot. -/
theorem sampleCountsOfTheConfiguration : Obligations.SampleCountsOfTheConfiguration := by
  refine ⟨fun c => ⟨?_, ?_, ?_, nTone_le_nSlot c, nSil_le_nSlot c, (nSlot_within_one c).1, (nSlot_within_one c).2, ?_⟩,
    ⟨⟨44100#32, 2200#32, 1200#32, 10000000#32, 5000000#32⟩, by decide, by decide⟩,
    ⟨⟨10#32, 3#32, 1#32, 260000000#32, 260000000#32⟩, by decide, by decide⟩,
    fun s => ⟨saturate_toNat _, saturate_toNat _, saturate_toNat _⟩⟩
  · exact (rnd_mul_div_units _ _).symm
  · exact (rnd_mul_div_units _ _).symm
  · exact mod_cast (rnd_mul_div_units _ _).symm
  · intro h
    have htone := nTone_le_nSlot c
    have hsil := nSil_le_nSlot c
    exact cfgchk_ne_zero_of_nSlot (by omega)

end Sys2Proof.Machine

/-! PROOF. `kbin` is the least nearest bin of the axis, by both of its definitions (R29). -/

namespace Sys2Proof.Machine

/-- Of two bins, the lower is at least as near exactly when twice the tone's place on the axis is not beyond their sum. -/
theorem binDistance_le_iff {f n sr k k' : Nat} (hsr : 0 < sr) (h : k < k') :
    binDistance f n sr k ≤ binDistance f n sr k' ↔ 2 * f * n ≤ (k + k') * sr := by
  have hlt : k * sr < k' * sr := Nat.mul_lt_mul_of_pos_right h hsr
  have hsum : (k + k') * sr = k * sr + k' * sr := Nat.add_mul ..
  have htwice : 2 * f * n = 2 * (f * n) := Nat.mul_assoc ..
  unfold binDistance
  omega

/-- `kbin` by what lies at or above it: the last bin of the axis and beyond, and every bin whose upper half-way point the
tone does not pass. -/
theorem kbin_le_iff {f n sr : Nat} (hn : 0 < n) (hsr : 0 < sr) (k : Nat) :
    kbin f n sr ≤ k ↔ n / 2 ≤ k ∨ 2 * f * n ≤ (2 * k + 1) * sr := by
  have hne : ¬(n = 0 ∨ sr = 0) := by omega
  have hexp : (2 * k + 1) * sr = k * (2 * sr) + sr := by ring
  have hceil : (2 * f * n - sr + (2 * sr - 1)) / (2 * sr) ≤ k ↔ 2 * f * n ≤ (2 * k + 1) * sr := by
    rw [← Nat.lt_succ_iff, Nat.div_lt_iff_lt_mul (by omega), Nat.succ_mul k, hexp]
    omega
  rw [kbin, if_neg hne, min_le_iff, hceil]

theorem kbin_le_half (f n sr : Nat) : kbin f n sr ≤ n / 2 := by
  unfold kbin
  split
  · exact Nat.zero_le _
  · exact min_le_left _ _

theorem binDistance_kbin_le {f n sr k : Nat} (hn : 0 < n) (hsr : 0 < sr) (hk : k ≤ n / 2)
    (h : kbin f n sr < k) : binDistance f n sr (kbin f n sr) ≤ binDistance f n sr k := by
  rw [binDistance_le_iff hsr h]
  have hhalf : 2 * f * n ≤ (2 * kbin f n sr + 1) * sr :=
    ((kbin_le_iff hn hsr _).mp le_rfl).resolve_left (by omega)
  exact hhalf.trans (Nat.mul_le_mul_right sr (by omega))

theorem binDistance_kbin_lt {f n sr k : Nat} (hn : 0 < n) (hsr : 0 < sr) (h : k < kbin f n sr) :
    binDistance f n sr (kbin f n sr) < binDistance f n sr k := by
  rw [← not_le, binDistance_le_iff hsr h]
  intro hle
  have hpass : ¬ kbin f n sr ≤ kbin f n sr - 1 := by omega
  rw [kbin_le_iff hn hsr] at hpass
  exact hpass (.inr (hle.trans (Nat.mul_le_mul_right sr (by omega))))

/-- The closed formula of R29 over the rationals: both sides lie below the same bins. -/
theorem kbin_eq_ceil {f n sr : Nat} (hn : 0 < n) (hsr : 0 < sr) :
    kbin f n sr = min (n / 2) ⌈(f : Rat) * (n : Rat) / (sr : Rat) - 1 / 2⌉₊ := by
  refine eq_of_forall_ge_iff fun k => ?_
  have hpos : (0 : Rat) < sr := mod_cast hsr
  rw [kbin_le_iff hn hsr, min_le_iff, Nat.ceil_le, sub_le_iff_le_add, div_le_iff₀ hpos]
  refine or_congr Iff.rfl ?_
  rw [← Nat.cast_le (α := Rat)]
  push_cast
  constructor <;> intro h <;> linarith

theorem binWord_toNat {k : Nat} (h : k < 2 ^ 32) : (binWord k).toNat = k := by
  rw [binWord, if_pos h, BitVec.toNat_ofNat, Nat.mod_eq_of_lt h]

/-- Settles O34: a bin above `kbin` is no nearer and a bin below it is farther, whichever side of the tone they stand on. -/
theorem binsAreTheLeastNearest : Obligations.BinsAreTheLeastNearest := by
  refine ⟨fun f n sr hn hsr => ⟨kbin_le_half f n sr, fun k hk => ?_, fun k => binDistance_kbin_lt hn hsr⟩,
    fun f n sr hn hsr => ?_, fun f n sr h => if_pos h, fun s => binWord_toNat, fun s => binWord_toNat⟩
  · obtain hlt | rfl | hgt := lt_trichotomy k (kbin f n sr)
    · exact (binDistance_kbin_lt hn hsr hlt).le
    · exact le_rfl
    · exact binDistance_kbin_le hn hsr hk hgt
  · rw [kbin_eq_ceil hn hsr, Nat.cast_min, ← Int.ceil_toNat, Int.ofNat_toNat, max_comm]

end Sys2Proof.Machine

/-! PROOF. The UTF-8 automaton accepts what the table describes: a state stands for the ranges still to come (R110). -/

namespace Sys2Proof.Machine

/-- What is left of the row in progress in a state of the automaton. No byte lies in the range left in `bad`. -/
def U8State.rest : U8State → List (Byte × Byte)
  | .acc => []
  | .u1 => [(0x80#8, 0xBF#8)]
  | .u2 => [(0x80#8, 0xBF#8), (0x80#8, 0xBF#8)]
  | .u3 => [(0x80#8, 0xBF#8), (0x80#8, 0xBF#8), (0x80#8, 0xBF#8)]
  | .e0 => [(0xA0#8, 0xBF#8), (0x80#8, 0xBF#8)]
  | .ed => [(0x80#8, 0x9F#8), (0x80#8, 0xBF#8)]
  | .f0 => [(0x90#8, 0xBF#8), (0x80#8, 0xBF#8), (0x80#8, 0xBF#8)]
  | .f4 => [(0x80#8, 0x8F#8), (0x80#8, 0xBF#8), (0x80#8, 0xBF#8)]
  | .bad => [(0xFF#8, 0x00#8)]

theorem U8State.rest_eq_nil_iff (u : U8State) : u.rest = [] ↔ u = .acc := by
  cases u <;> simp [U8State.rest]

theorem fitsRow_nil_iff (row : List (Byte × Byte)) : fitsRow row [] = true ↔ row = [] := by
  cases row <;> simp [fitsRow]

theorem fitsRow_rest_bad (q : List Byte) : fitsRow U8State.bad.rest q = false := by
  have hempty : ∀ b : Byte, inRange 0xFF#8 0x00#8 b = false := by decide
  cases q <;> simp [U8State.rest, fitsRow, hempty]

/-- Inside a sequence, a step takes the byte off the front of what is left, or leaves nothing that can follow. -/
theorem fitsRow_rest_cons {u : U8State} (hu : u ≠ .acc) (b : Byte) (q : List Byte) :
    fitsRow u.rest (b :: q) = fitsRow (u8Step u b).rest q := by
  have hstep : ∀ {lo hi : Byte} {row : List (Byte × Byte)} (v : U8State), v.rest = row →
      fitsRow ((lo, hi) :: row) (b :: q) = fitsRow (if inRange lo hi b then v else .bad).rest q := by
    rintro lo hi row v rfl
    cases h : inRange lo hi b <;> simp [fitsRow, h, fitsRow_rest_bad]
  cases u with
  | acc => exact absurd rfl hu
  | bad => rw [u8Step, fitsRow_rest_bad, fitsRow_rest_bad]
  | u1 => exact hstep .acc rfl
  | u2 | e0 | ed => exact hstep .u1 rfl
  | u3 | f0 | f4 => exact hstep .u2 rfl

/-- What is left of a row after a first byte. -/
def rowAfter (b : Byte) : List (Byte × Byte) → Option (List (Byte × Byte))
  | [] => none
  | (lo, hi) :: row => if inRange lo hi b then some row else none

theorem fitsRow_cons_iff (row : List (Byte × Byte)) (b : Byte) (q : List Byte) :
    fitsRow row (b :: q) = true ↔ ∃ row', rowAfter b row = some row' ∧ fitsRow row' q = true := by
  cases row with
  | nil => simp [fitsRow, rowAfter]
  | cons range row =>
    obtain ⟨lo, hi⟩ := range
    cases h : inRange lo hi b <;> simp [fitsRow, rowAfter, h]

/-- The first ranges of the table are disjoint: a byte starts the one row its state stands for, or none. -/
theorem rowsAfter_eq : ∀ b : Byte, utf8Rows.filterMap (rowAfter b)
    = if u8Step .acc b = .bad then [] else [(u8Step .acc b).rest] := by
  decide

theorem exists_row_fits_cons_iff (b : Byte) (q : List Byte) :
    (∃ row ∈ utf8Rows, fitsRow row (b :: q) = true) ↔ fitsRow (u8Step .acc b).rest q = true := by
  calc (∃ row ∈ utf8Rows, fitsRow row (b :: q) = true)
      ↔ ∃ row' ∈ utf8Rows.filterMap (rowAfter b), fitsRow row' q = true := by
        simp only [fitsRow_cons_iff, List.mem_filterMap]
        grind
    _ ↔ fitsRow (u8Step .acc b).rest q = true := by
        rw [rowsAfter_eq]
        by_cases h : u8Step .acc b = .bad
        · simp [h, fitsRow_rest_bad]
        · simp [h]

theorem utf8WellFormed_nil : Utf8WellFormed [] :=
  ⟨[], rfl, by simp⟩

theorem utf8WellFormed_cons_iff (b : Byte) (bytes : List Byte) :
    Utf8WellFormed (b :: bytes) ↔ ∃ q tail, bytes = q ++ tail
      ∧ (∃ row ∈ utf8Rows, fitsRow row (b :: q) = true) ∧ Utf8WellFormed tail := by
  constructor
  · rintro ⟨seqs, hbytes, hfit⟩
    cases seqs with
    | nil => simp at hbytes
    | cons q seqs =>
      obtain ⟨hq, hseqs⟩ := List.forall_mem_cons.mp hfit
      cases q with
      | nil =>
        have hnonempty : ∀ row ∈ utf8Rows, fitsRow row [] = false := by decide
        obtain ⟨row, hrow, hnil⟩ := hq
        simp [hnonempty row hrow] at hnil
      | cons b' q =>
        obtain ⟨rfl, rfl⟩ := List.cons.inj hbytes
        exact ⟨q, seqs.flatten, rfl, hq, seqs, rfl, hseqs⟩
  · rintro ⟨q, _, rfl, hq, seqs, rfl, hseqs⟩
    exact ⟨(b :: q) :: seqs, rfl, List.forall_mem_cons.mpr ⟨hq, hseqs⟩⟩

/-- From the state `u` the bytes finish the row in progress and go on with whole rows. -/
def U8State.Completes (u : U8State) (bytes : List Byte) : Prop :=
  ∃ q tail, bytes = q ++ tail ∧ fitsRow u.rest q = true ∧ Utf8WellFormed tail

theorem completes_acc_iff (bytes : List Byte) : U8State.acc.Completes bytes ↔ Utf8WellFormed bytes := by
  constructor
  · rintro ⟨q, tail, rfl, hq, htail⟩
    cases q with
    | nil => exact htail
    | cons b q => simp [U8State.rest, fitsRow] at hq
  · exact fun h => ⟨[], bytes, rfl, rfl, h⟩

theorem completes_nil_iff (u : U8State) : u.Completes [] ↔ u = .acc := by
  constructor
  · rintro ⟨q, tail, hnil, hq, -⟩
    obtain ⟨rfl, -⟩ := List.append_eq_nil_iff.mp hnil.symm
    exact (U8State.rest_eq_nil_iff u).mp ((fitsRow_nil_iff _).mp hq)
  · rintro rfl
    exact (completes_acc_iff []).mpr utf8WellFormed_nil

theorem completes_cons_iff (u : U8State) (b : Byte) (bytes : List Byte) :
    u.Completes (b :: bytes) ↔ (u8Step u b).Completes bytes := by
  by_cases hu : u = .acc
  · rw [hu, completes_acc_iff, utf8WellFormed_cons_iff, U8State.Completes]
    simp only [exists_row_fits_cons_iff]
  · constructor
    · rintro ⟨q, tail, hbytes, hq, htail⟩
      cases q with
      | nil => exact absurd ((U8State.rest_eq_nil_iff u).mp ((fitsRow_nil_iff _).mp hq)) hu
      | cons b' q =>
        obtain ⟨rfl, rfl⟩ := List.cons.inj hbytes
        exact ⟨q, tail, rfl, fitsRow_rest_cons hu b q ▸ hq, htail⟩
    · rintro ⟨q, tail, rfl, hq, htail⟩
      exact ⟨b :: q, tail, rfl, fitsRow_rest_cons hu b q ▸ hq, htail⟩

/-- The automaton ends in `acc` exactly when the bytes complete the state it started in. -/
theorem foldl_u8Step_eq_acc_iff (bytes : List Byte) (u : U8State) :
    bytes.foldl u8Step u = .acc ↔ u.Completes bytes := by
  induction bytes generalizing u with
  | nil => exact (completes_nil_iff u).symm
  | cons b bytes ih => rw [List.foldl_cons, ih, completes_cons_iff]

/-- Settles O41: accepting is completing the state `acc`, and that is being a concatenation of rows. -/
theorem utf8CheckerMatchesTheTable : Obligations.Utf8CheckerMatchesTheTable := by
  intro bytes
  rw [utf8Ok, decide_eq_true_iff, foldl_u8Step_eq_acc_iff, completes_acc_iff]

end Sys2Proof.Machine

/-! PROOF. The decoder refuses exactly the words that R103 calls illegal: a row of R111 tests the three fields of R100. -/

namespace Sys2Proof.Machine

/-- Two words are equal when their fields are (R100). -/
theorem word_eq_iff_fields (w v : Word) :
    w = v ↔ w.extractLsb' 0 8 = v.extractLsb' 0 8 ∧ w.extractLsb' 8 8 = v.extractLsb' 8 8
      ∧ w.extractLsb' 16 16 = v.extractLsb' 16 16 := by
  constructor
  · rintro rfl
    exact ⟨rfl, rfl, rfl⟩
  · rintro ⟨hop, ha, hres⟩
    have hw := w.isLt
    have hv := v.isLt
    simp only [← BitVec.toNat_inj, BitVec.extractLsb'_toNat, Nat.shiftRight_eq_div_pow] at *
    omega

/-- The mask of a row of R111: all of `OP`, the bits given of `A`, all of the reserved bits. -/
def rowMask (operandBits : Byte) : Word :=
  0xFFFF#16 ++ operandBits ++ 0xFF#8

theorem rowMask_fields (m : Byte) :
    (rowMask m).extractLsb' 0 8 = BitVec.allOnes 8 ∧ (rowMask m).extractLsb' 8 8 = m
      ∧ (rowMask m).extractLsb' 16 16 = BitVec.allOnes 16 := by
  unfold rowMask
  refine ⟨BitVec.extractLsb'_append_eq_right, ?_, ?_⟩
  · rw [BitVec.extractLsb'_append_eq_of_le (by decide)]
    exact BitVec.extractLsb'_append_eq_right
  · rw [BitVec.extractLsb'_append_eq_of_le (by decide), BitVec.extractLsb'_append_eq_of_le (by decide)]
    rfl

/-- A word selects a row when its `OP` is the row's, its `A` is 0 under the row's mask and its reserved bits are 0. -/
theorem selects_rowMask_iff (w : Word) (m op : Byte) :
    selects w (rowMask m) (commandWord op 0#8) = true
      ↔ w.extractLsb' 0 8 = op ∧ w.extractLsb' 8 8 &&& m = 0#8 ∧ w.extractLsb' 16 16 = 0#16 := by
  obtain ⟨hop, ha, hres⟩ := commandWord_fields op 0#8
  obtain ⟨hopMask, haMask, hresMask⟩ := rowMask_fields m
  rw [selects, beq_iff_eq, word_eq_iff_fields, hop, ha, hres]
  simp only [BitVec.extractLsb'_and, hopMask, haMask, hresMask, BitVec.and_allOnes]

/-- The bits of `A` that R101 says are 0 for an `OP`. -/
def zeroOperandBits (op : Byte) : Byte :=
  if op = 0x01#8 ∨ op = 0x03#8 then 0xFE#8
  else if op = 0x04#8 then 0x00#8
  else if op = 0x07#8 then 0xFC#8
  else 0xFF#8

/-- The table of R111: the mask and the match of each row, in order. -/
def opcodeTable : List (Word × Word) :=
  [ (0xFFFFFFFF#32, 0x00000000#32), (0xFFFFFEFF#32, 0x00000001#32), (0xFFFFFFFF#32, 0x00000002#32),
    (0xFFFFFEFF#32, 0x00000003#32), (0xFFFF00FF#32, 0x00000004#32), (0xFFFFFFFF#32, 0x00000005#32),
    (0xFFFFFFFF#32, 0x00000006#32), (0xFFFFFCFF#32, 0x00000007#32), (0xFFFFFFFF#32, 0x00000008#32),
    (0xFFFFFFFF#32, 0x00000009#32), (0xFFFFFFFF#32, 0x0000000A#32), (0xFFFFFFFF#32, 0x0000000B#32),
    (0xFFFFFFFF#32, 0x0000000C#32), (0xFFFFFFFF#32, 0x0000000E#32), (0xFFFFFFFF#32, 0x0000000F#32) ]

/-- The decoder refuses a word when no row of the table is selected. -/
theorem decode_eq_none_iff_selects (w : Word) :
    decode w = none ↔ ∀ row ∈ opcodeTable, ¬ selects w row.1 row.2 = true := by
  simp only [decode, opcodeTable, ite_eq_iff, reduceCtorEq, and_false, false_or, and_true, List.forall_mem_cons,
    List.not_mem_nil, false_imp_iff, implies_true]

/-- The `OP` codes of R101. -/
def opCodes : List Byte :=
  [0x00#8, 0x01#8, 0x02#8, 0x03#8, 0x04#8, 0x05#8, 0x06#8, 0x07#8, 0x08#8, 0x09#8, 0x0A#8, 0x0B#8, 0x0C#8, 0x0E#8,
    0x0F#8]

theorem mem_opCodes_iff : ∀ op : Byte, op ∈ opCodes ↔ legalOp op = true := by
  decide

/-- A row of the table per `OP`: it tests `OP`, the bits of `A` that are 0 for it, and the reserved bits. -/
theorem opcodeTable_eq : opcodeTable = opCodes.map fun op => (rowMask (zeroOperandBits op), commandWord op 0#8) := by
  decide

theorem legalOperand_iff (op a : Byte) : legalOperand op a = true ↔ a &&& zeroOperandBits op = 0#8 := by
  have hbit : ∀ a : Byte, a.toNat < 2 ↔ a &&& 0xFE#8 = 0#8 := by decide
  have htag : ∀ a : Byte, a.toNat < 4 ↔ a &&& 0xFC#8 = 0#8 := by decide
  have hall : a &&& 0xFF#8 = a := BitVec.and_allOnes
  unfold legalOperand zeroOperandBits
  split_ifs <;> simp [hbit, htag, hall]

/-- The legality check, written from the prose, and the decoder, written from the masks, agree (R103, R111). -/
theorem legalWord_iff_decode (w : Word) : legalWord w = true ↔ decode w ≠ none := by
  rw [ne_eq, decode_eq_none_iff_selects, opcodeTable_eq, List.forall_mem_map]
  simp only [selects_rowMask_iff, legalWord, legalFields, Bool.and_eq_true, decide_eq_true_iff, legalOperand_iff,
    ← mem_opCodes_iff, not_forall, not_not, exists_prop]
  constructor
  · rintro ⟨⟨hop, ha⟩, hres⟩
    exact ⟨_, hop, rfl, ha, hres⟩
  · rintro ⟨_, hop, rfl, ha, hres⟩
    exact ⟨⟨hop, ha⟩, hres⟩

theorem not_legalOp_iff (op : Byte) : ¬ legalOp op = true ↔ op = 0x0D#8 ∨ 0x10 ≤ op.toNat := by
  rw [legalOp, Bool.and_eq_true, decide_eq_true_iff, bne_iff_ne, ne_eq, not_and_or, not_not, not_lt, or_comm]

/-- The operand bits that R103 looks at, read from the whole word. -/
theorem not_legalOperand_iff (w : Word) (op : Byte) :
    ¬ legalOperand op (w.extractLsb' 8 8) = true ↔
      ((op = 0x01#8 ∨ op = 0x03#8) ∧ w.extractLsb' 9 7 ≠ 0#7)
      ∨ (op = 0x07#8 ∧ w.extractLsb' 10 6 ≠ 0#6)
      ∨ (op ∉ [0x01#8, 0x03#8, 0x04#8, 0x07#8] ∧ w.extractLsb' 8 8 ≠ 0#8) := by
  have hbit : (w.extractLsb' 8 8).toNat < 2 ↔ w.extractLsb' 9 7 = 0#7 := by
    simp only [← BitVec.toNat_inj, BitVec.extractLsb'_toNat, Nat.shiftRight_eq_div_pow, BitVec.toNat_ofNat]
    omega
  have htag : (w.extractLsb' 8 8).toNat < 4 ↔ w.extractLsb' 10 6 = 0#6 := by
    simp only [← BitVec.toNat_inj, BitVec.extractLsb'_toNat, Nat.shiftRight_eq_div_pow, BitVec.toNat_ofNat]
    omega
  unfold legalOperand
  split_ifs with h13 h4 h7
  · rw [decide_eq_true_iff, hbit]
    obtain rfl | rfl := h13 <;> simp
  · simp [h4]
  · rw [decide_eq_true_iff, htag]
    simp [h7]
  · rw [not_or] at h13
    simp [h13, h4, h7]

/-- Which words are illegal (R103). -/
theorem decode_eq_none_iff (w : Word) : decode w = none ↔
    (w.extractLsb' 0 8 = 0x0D#8 ∨ 0x10 ≤ (w.extractLsb' 0 8).toNat
      ∨ w.extractLsb' 16 16 ≠ 0#16
      ∨ ((w.extractLsb' 0 8 = 0x01#8 ∨ w.extractLsb' 0 8 = 0x03#8) ∧ w.extractLsb' 9 7 ≠ 0#7)
      ∨ (w.extractLsb' 0 8 = 0x07#8 ∧ w.extractLsb' 10 6 ≠ 0#6)
      ∨ (w.extractLsb' 0 8 ∉ [0x01#8, 0x03#8, 0x04#8, 0x07#8] ∧ w.extractLsb' 8 8 ≠ 0#8)) := by
  rw [← not_legalOperand_iff, ← or_assoc, ← not_legalOp_iff, ← not_iff_not, ← ne_eq, ← legalWord_iff_decode]
  simp only [legalWord, legalFields, Bool.and_eq_true, decide_eq_true_iff]
  tauto

end Sys2Proof.Machine

/-! PROOF. What the issue of a word does: an illegal one raises `ILLEGAL_CMD` (R103, R221), and only `NOP` never does anything. -/

namespace Sys2Proof.Machine

theorem decode_zero : decode 0#32 = some .nop := by
  decide

theorem issue_of_decode_none {w : Word} (h : decode w = none) (s : State) :
    issue w s = .next (s.raise .illegalCmd w.toNat) := by
  simp only [issue, h]

theorem issue_of_decode_some {w : Word} {i : Instr} (h : decode w = some i) (s : State) : issue w s = exec i s := by
  simp only [issue, h]

/-- `NOP` has one word. -/
theorem decode_eq_nop_iff (w : Word) : decode w = some .nop ↔ w = 0#32 := by
  simp only [decode, ite_eq_iff, Option.some.injEq, reduceCtorEq, and_false, and_true, or_false]
  have hall : 0xFFFFFFFF#32 = BitVec.allOnes 32 := rfl
  rw [selects, beq_iff_eq, hall, BitVec.and_allOnes]

/-- Every command but the system commands goes through the issue procedure (R200 steps 4 to 7). -/
theorem exec_eq_issueCommand {i : Instr} (hi : i.commandClass ≠ .sys) :
    ∃ accept, ∀ s, exec i s = .next (issueCommand i accept s) := by
  cases i with
  | nop | clrerr | reset => exact absurd rfl hi
  | _ => exact ⟨_, fun _ => rfl⟩

/-- A state after reset but for a recorded error, with both engines busy. -/
def busyState (c : Cause) : State :=
  { State.reset with err := c, tx := { TxState.reset with busy := true }, rx := { RxState.reset with busy := true } }

/-- A command of a busy engine is refused with an error, which is a change (R222). -/
theorem issueCommand_busyState {i : Instr} (hi : i.commandClass ≠ .sys) (accept : State → State) :
    (issueCommand i accept (busyState .noError)).err = .cmdBusy := by
  have hbusy : (busyState .noError).classBusy i.commandClass = true := by
    cases h : i.commandClass with
    | sys => exact absurd h hi
    | tx | rx => rfl
  have herr : (busyState .noError).err = .noError := rfl
  obtain ⟨h, -⟩ | ⟨-, -, h⟩ | ⟨-, h, -⟩ | ⟨-, h, -⟩ := issueCommand_cases i accept (busyState .noError)
  · exact absurd herr h
  · rw [h, State.raise_err, if_pos herr]
  · simp [hbusy] at h
  · simp [hbusy] at h

/-- Each command but `NOP` changes some state. -/
theorem exists_exec_ne {i : Instr} (hi : i ≠ .nop) : ∃ s, exec i s ≠ .next s := by
  by_cases hsys : i.commandClass = .sys
  · cases i with
    | nop => exact absurd rfl hi
    | clrerr =>
      refine ⟨busyState .illegalCmd, fun h => ?_⟩
      have herr : Cause.noError = Cause.illegalCmd := congrArg State.err (Host.Outcome.next.inj h)
      cases herr
    | reset =>
      refine ⟨busyState .noError, fun h => ?_⟩
      have hbusy : false = true := congrArg (·.tx.busy) (Host.Outcome.next.inj h)
      cases hbusy
    | _ => cases hsys
  · obtain ⟨accept, haccept⟩ := exec_eq_issueCommand hsys
    refine ⟨busyState .noError, fun h => ?_⟩
    rw [haccept] at h
    have herr := issueCommand_busyState hsys accept
    rw [Host.Outcome.next.inj h] at herr
    cases herr

/-- The word of `NOP` is the only one that changes no state: an illegal one raises an error. -/
theorem issue_changes_nothing_iff (w : Word) : (∀ s : State, issue w s = .next s) ↔ w = 0#32 := by
  constructor
  · intro hsame
    cases hw : decode w with
    | none =>
      have h := hsame (busyState .noError)
      rw [issue_of_decode_none hw] at h
      have herr : Cause.illegalCmd = Cause.noError := congrArg State.err (Host.Outcome.next.inj h)
      cases herr
    | some i =>
      by_cases hi : i = .nop
      · exact (decode_eq_nop_iff w).mp (hi ▸ hw)
      · obtain ⟨s, hs⟩ := exists_exec_ne hi
        exact absurd (issue_of_decode_some hw s ▸ hsame s) hs
  · rintro rfl s
    rw [issue_of_decode_some decode_zero]
    rfl

/-- Settles O3: the rows of the decoder read the fields that R103 names; `raise` records the first error and drops a later one. -/
theorem illegalWordsRaiseIllegalCmd : Obligations.IllegalWordsRaiseIllegalCmd := by
  refine ⟨decode_eq_none_iff, legalWord_iff_decode, fun w s hw herr => ?_, fun w s hw herr => ?_,
    issue_changes_nothing_iff⟩
  · rw [issue_of_decode_none hw, State.raise, if_pos herr, BitVec.ofNat_toNat, BitVec.setWidth_eq]
  · rw [issue_of_decode_none hw, State.raise, if_neg herr]

end Sys2Proof.Machine

/-! PROOF. The sample count of a segment (R120), and the refusal at issue of a configuration with a zero duration (R220). -/

namespace Sys2Proof.Machine

theorem segCount_of_pos (sr : Nat) {d : Rat} (h : 0 < d) : segCount sr d = rnd ((sr : Rat) * d) :=
  if_neg h.not_ge

theorem segCount_of_nonpos (sr : Nat) {d : Rat} (h : d ≤ 0) : segCount sr d = 0 :=
  if_pos h

@[simp] theorem tone_length {S : Type} (num : Numerics S) (f : Nat) (d : Rat) (sr : Nat) :
    (tone num f d sr).length = segCount sr d := by
  rw [tone, List.length_map, List.length_range]

@[simp] theorem silence_length {S : Type} (num : Numerics S) (d : Rat) (sr : Nat) :
    (silence num d sr).length = segCount sr d :=
  List.length_replicate

theorem seconds_nonneg (w : Word) : 0 ≤ seconds w :=
  div_nonneg (Nat.cast_nonneg _) (Nat.cast_nonneg _)

/-- A zero duration fails the check `BD0` or `SD0` (R31). -/
theorem cfgchk_ne_zero_of_zero_duration {c : Cfg} (h : c.bitDur = 0#32 ∨ c.silDur = 0#32) : cfgchk c ≠ 0#32 := by
  intro h0
  obtain hbitDur | hsilDur := h
  · have hset : (cfgchk c).getLsbD 4 = true := by
      simpa [cfgchk, flagBit_getElem] using hbitDur
    simp [h0] at hset
  · have hset : (cfgchk c).getLsbD 5 = true := by
      simpa [cfgchk, flagBit_getElem] using hsilDur
    simp [h0] at hset

theorem commandClass_ne_sys_of_usesCfg {i : Instr} (h : i.usesCfg = true) : i.commandClass ≠ .sys := by
  cases i with
  | nop | clrerr | reset => cases h
  | _ => exact CommandClass.noConfusion

/-- The issue procedure refuses an invalid configuration when it gets as far as its check (R200 step 6). -/
theorem issueCommand_cfgInvalid {i : Instr} {s : State} (accept : State → State) (hu : i.usesCfg = true)
    (he : s.err = .noError) (hb : s.classBusy i.commandClass = false) (hc : cfgchk s.cfg ≠ 0#32) :
    issueCommand i accept s = { s with err := .cfgInvalid, errInfo := cfgchk s.cfg } := by
  obtain ⟨h, -⟩ | ⟨-, h, -⟩ | ⟨-, -, -, -, h⟩ | ⟨-, -, h, -⟩ := issueCommand_cases i accept s
  · exact absurd he h
  · simp [hb] at h
  · rw [h, State.raise, if_pos he, BitVec.ofNat_toNat, BitVec.setWidth_eq]
  · exact absurd (h hu) hc

/-- An invalid configuration is refused to every command that uses it, and nothing but the error changes (R220). -/
theorem exec_cfgInvalid {i : Instr} {s : State} (hu : i.usesCfg = true) (he : s.err = .noError)
    (hb : s.classBusy i.commandClass = false) (hc : cfgchk s.cfg ≠ 0#32) :
    exec i s = .next { s with err := .cfgInvalid, errInfo := cfgchk s.cfg } := by
  obtain ⟨accept, haccept⟩ := exec_eq_issueCommand (commandClass_ne_sys_of_usesCfg hu)
  rw [haccept, issueCommand_cfgInvalid accept hu he hb hc]

/-- Settles O35: the counts of a configuration's two durations are the exact ones of R28, and a zero duration fails a check
of the configuration. -/
theorem segmentCounts : Obligations.SegmentCounts :=
  ⟨fun sr _ => segCount_of_pos sr, fun sr _ => segCount_of_nonpos sr,
    fun _ num f sr d => ⟨tone_length num f d sr, silence_length num d sr⟩,
    fun c => ⟨segCount_seconds _ c.bitDur, segCount_seconds _ c.silDur⟩, seconds_nonneg,
    fun _ _ hu he hb hzero => exec_cfgInvalid hu he hb (cfgchk_ne_zero_of_zero_duration hzero)⟩

end Sys2Proof.Machine

/-! PROOF. The bit codec: bytes to bits (R130), whole groups of eight back to bytes (R131), and the round trip (R133). -/

namespace Sys2Proof.Machine

@[simp] theorem byteBits_length (b : Byte) : (byteBits b).length = 8 := rfl

theorem byteBits_getElem? (b : Byte) {j : Nat} (hj : j < 8) :
    (byteBits b)[j]? = some ((b >>> (7 - j)).getLsbD 0) := by
  simp [byteBits, hj]

@[simp] theorem bytesToBits_nil : bytesToBits [] = [] := rfl

@[simp] theorem bytesToBits_cons (b : Byte) (data : List Byte) :
    bytesToBits (b :: data) = byteBits b ++ bytesToBits data := rfl

theorem bytesToBits_length (data : List Byte) : (bytesToBits data).length = 8 * data.length := by
  induction data with
  | nil => rfl
  | cons b data ih =>
    rw [bytesToBits_cons, List.length_append, byteBits_length, ih, List.length_cons]
    omega

theorem bytesToBits_getElem? {data : List Byte} {i j : Nat} {b : Byte} (hb : data[i]? = some b) (hj : j < 8) :
    (bytesToBits data)[8 * i + j]? = some ((b >>> (7 - j)).getLsbD 0) := by
  induction data generalizing i with
  | nil => cases hb
  | cons c data ih =>
    rw [bytesToBits_cons]
    cases i with
    | zero =>
      cases hb
      rw [Nat.mul_zero, Nat.zero_add, List.getElem?_append_left hj, byteBits_getElem? b hj]
    | succ i =>
      have hskip : 8 * (i + 1) + j - 8 = 8 * i + j := by omega
      rw [List.getElem?_append_right (by rw [byteBits_length]; omega), byteBits_length, hskip]
      exact ih hb

/-- Settles O36: byte `i` owns the eight bits from `8·i`, by induction on the bytes. -/
theorem bytesToBitsIsMostSignificantFirst : Obligations.BytesToBitsIsMostSignificantFirst :=
  ⟨bytesToBits_length, fun _ _ _ _ => bytesToBits_getElem?, bytesToBits_nil⟩

/-- The shift drops bit 7 and appends the entering bit at bit 0 (R135). -/
theorem shiftIn_eq_concat (sh : Byte) (b : Bool) : shiftIn sh b = (sh.concat b).setWidth 8 := by
  ext i hi
  cases i with
  | zero => cases b <;> simp [shiftIn, BitVec.getElem_concat]
  | succ i => cases b <;> simp [shiftIn, BitVec.getLsbD_eq_getElem (Nat.lt_of_succ_lt hi)]

/-- While bit 7 is free nothing is dropped: the register doubles and the entering bit is added. -/
theorem shiftIn_toNat {sh : Byte} (b : Bool) (h : sh.toNat < 128) :
    (shiftIn sh b).toNat = 2 * sh.toNat + b.toNat := by
  have hb : b.toNat ≤ 1 := b.toNat_le
  rw [shiftIn_eq_concat, BitVec.toNat_setWidth, BitVec.toNat_concat, Nat.mod_eq_of_lt (by omega), Nat.mul_comm]

/-- Bits that fit above the register's value shift it up and add their weighted sum, the first bit heaviest. -/
theorem foldl_shiftIn_toNat (bits : List Bool) (sh : Byte) (hfit : (sh.toNat + 1) * 2 ^ bits.length ≤ 256) :
    (bits.foldl shiftIn sh).toNat = sh.toNat * 2 ^ bits.length
      + ∑ j ∈ Finset.range bits.length, (bits.getD j false).toNat * 2 ^ (bits.length - 1 - j) := by
  induction bits generalizing sh with
  | nil => simp
  | cons b bits ih =>
    have hpos : 0 < 2 ^ bits.length := Nat.two_pow_pos _
    rw [List.length_cons, pow_succ] at hfit
    have hsh : (shiftIn sh b).toNat = 2 * sh.toNat + b.toNat := shiftIn_toNat b (by nlinarith)
    have hrest : ((shiftIn sh b).toNat + 1) * 2 ^ bits.length ≤ 256 := by
      have hb : b.toNat ≤ 1 := b.toNat_le
      rw [hsh]
      nlinarith
    rw [List.foldl_cons, ih _ hrest, hsh, List.length_cons, Finset.sum_range_succ', pow_succ]
    have hweight (j : Nat) : bits.length - 1 - j = bits.length - (j + 1) := by omega
    simp only [List.getD_cons_succ, List.getD_cons_zero, Nat.add_sub_cancel, Nat.sub_zero, hweight]
    ring

/-- Eight shifts carry each bit of a byte back to its own place: the deserializer undoes the serializer's order (R130, R135). -/
theorem foldl_shiftIn_byteBits (b : Byte) : (byteBits b).foldl shiftIn 0#8 = b := by
  ext i hi
  interval_cases i <;> simp [byteBits, List.range_succ, shiftIn_eq_concat, BitVec.getElem_concat]

@[simp] theorem bitsToBytes_nil : bitsToBytes [] = [] := rfl

/-- A leading group of eight is packed on its own, whatever follows it (R131). -/
theorem bitsToBytes_append_of_length_eq {g : List Bool} (hg : g.length = 8) (rest : List Bool) :
    bitsToBytes (g ++ rest) = g.foldl shiftIn 0#8 :: bitsToBytes rest :=
  match g, hg with
  | [_, _, _, _, _, _, _, _], _ => rfl

theorem bitsToBytes_of_length_lt {bits : List Bool} (h : bits.length < 8) : bitsToBytes bits = [] := by
  unfold bitsToBytes
  split
  · simp only [List.length_cons] at h
    omega
  · rfl

/-- Bits are cut into groups of eight from the front until fewer than eight are left (R131). -/
theorem groups_induction {P : List Bool → Prop} (short : ∀ bits, bits.length < 8 → P bits)
    (group : ∀ g rest : List Bool, g.length = 8 → P rest → P (g ++ rest)) (bits : List Bool) : P bits :=
  if h : bits.length < 8 then short bits h
  else by
    rw [← List.take_append_drop 8 bits]
    exact group _ _ (List.length_take_of_le (not_lt.mp h)) (groups_induction short group _)
termination_by bits.length
decreasing_by
  rw [List.length_drop]
  omega

theorem bitsToBytes_length (bits : List Bool) : (bitsToBytes bits).length = bits.length / 8 := by
  induction bits using groups_induction with
  | short bits h => rw [bitsToBytes_of_length_lt h, Nat.div_eq_of_lt h, List.length_nil]
  | group g rest hg ih =>
    rw [bitsToBytes_append_of_length_eq hg, List.length_cons, ih, List.length_append, hg]
    omega

theorem bitsToBytes_getElem?_toNat {bits : List Bool} {i : Nat} {b : Byte} (hb : (bitsToBytes bits)[i]? = some b) :
    b.toNat = ∑ j ∈ Finset.range 8, (bits.getD (8 * i + j) false).toNat * 2 ^ (7 - j) := by
  induction bits using groups_induction generalizing i with
  | short bits h =>
    rw [bitsToBytes_of_length_lt h] at hb
    cases hb
  | group g rest hg ih =>
    rw [bitsToBytes_append_of_length_eq hg] at hb
    cases i with
    | zero =>
      cases hb
      rw [foldl_shiftIn_toNat g 0#8 (by rw [hg]; decide), hg, BitVec.toNat_zero, Nat.zero_mul, Nat.zero_add]
      refine Finset.sum_congr rfl fun j hj => ?_
      rw [Nat.mul_zero, Nat.zero_add, List.getD_append _ _ _ _ (by rw [hg]; exact Finset.mem_range.mp hj)]
    | succ i =>
      rw [ih hb]
      refine Finset.sum_congr rfl fun j _ => ?_
      have hskip : 8 * (i + 1) + j - 8 = 8 * i + j := by omega
      rw [List.getD_append_right _ _ _ _ (by omega), hg, hskip]

theorem bitsToBytes_take_groups (bits : List Bool) :
    bitsToBytes (bits.take (8 * (bits.length / 8))) = bitsToBytes bits := by
  induction bits using groups_induction with
  | short bits h => rw [Nat.div_eq_of_lt h, Nat.mul_zero, List.take_zero, bitsToBytes_nil,
      bitsToBytes_of_length_lt h]
  | group g rest hg ih =>
    have hwhole : 8 * ((g ++ rest).length / 8) = g.length + 8 * (rest.length / 8) := by
      rw [List.length_append, hg]
      omega
    rw [hwhole, List.take_length_add_append, bitsToBytes_append_of_length_eq hg, ih,
      bitsToBytes_append_of_length_eq hg]

/-- Settles O37: each group of eight becomes the byte with its weighted sum, by induction on the whole groups. -/
theorem bitsToBytesPacksWholeGroups : Obligations.BitsToBytesPacksWholeGroups :=
  ⟨bitsToBytes_length, fun _ _ _ => bitsToBytes_getElem?_toNat, bitsToBytes_take_groups, bitsToBytes_nil⟩

theorem bitsToBytes_bytesToBits (data : List Byte) : bitsToBytes (bytesToBits data) = data := by
  induction data with
  | nil => exact bitsToBytes_nil
  | cons b data ih =>
    rw [bytesToBits_cons, bitsToBytes_append_of_length_eq (byteBits_length b), foldl_shiftIn_byteBits, ih]

/-- Settles O38: a byte's own bits pack into it again, and the lengths are those of R130 and R131. -/
theorem bitCodecRoundTrip : Obligations.BitCodecRoundTrip :=
  ⟨bitsToBytes_bytesToBits, fun data => by rw [bytesToBits_length, Nat.mul_mod_right],
    fun bits h => by rw [bitsToBytes_length, h]⟩

end Sys2Proof.Machine

/-! PROOF. The demodulator looks at whole slots only: what it drops and how many bits it gives (R157). -/

namespace Sys2Proof.Machine

@[simp] theorem demodulate_length {S : Type} (num : Numerics S) (c : RxCfg) (samples : List S) :
    (demodulate num c samples).length = samples.length / c.nSlot := by
  rw [demodulate, List.length_map, List.length_range]

/-- A cut at or after the end of slot `j` leaves its tone region as it was. -/
theorem region_take {S : Type} {c : RxCfg} (hregion : c.nTone ≤ c.nSlot) (samples : List S) {j n : Nat}
    (hslot : (j + 1) * c.nSlot ≤ n) : c.region (samples.take n) j = c.region samples j := by
  have hfits : c.nTone ≤ n - j * c.nSlot := by
    rw [Nat.succ_mul] at hslot
    omega
  rw [RxCfg.region, RxCfg.region, List.drop_take, List.take_take, Nat.min_eq_left hfits]

/-- A buffer cut at the end of its last whole slot has the same slots, each with the same tone region. -/
theorem demodulate_take_whole_slots {S : Type} (num : Numerics S) {c : RxCfg} (hregion : c.nTone ≤ c.nSlot)
    (hpos : 0 < c.nSlot) (samples : List S) :
    demodulate num c (samples.take (samples.length / c.nSlot * c.nSlot)) = demodulate num c samples := by
  have hcount : (samples.take (samples.length / c.nSlot * c.nSlot)).length / c.nSlot
      = samples.length / c.nSlot := by
    rw [List.length_take_of_le (Nat.div_mul_le_self ..), Nat.mul_div_cancel _ hpos]
  rw [demodulate, demodulate, hcount]
  refine List.map_congr_left fun j hj => ?_
  rw [region_take hregion samples (Nat.mul_le_mul_right _ (List.mem_range.mp hj))]

theorem demodulate_of_length_lt {S : Type} (num : Numerics S) (c : RxCfg) {samples : List S}
    (h : samples.length < c.nSlot) : demodulate num c samples = [] :=
  List.length_eq_zero_iff.mp (by rw [demodulate_length, Nat.div_eq_of_lt h])

/-- Settles O40: every tone region lies in its own slot (`n_tone ≤ n_slot`), so none reaches past the last whole slot. -/
theorem trailingSamplesAreDropped : Obligations.TrailingSamplesAreDropped :=
  fun _ num c samples hpos =>
    ⟨demodulate_take_whole_slots num (nTone_le_nSlot c) hpos samples, demodulate_length ..,
      demodulate_of_length_lt num (RxCfg.of c)⟩

end Sys2Proof.Machine

/-! PROOF. The header of a method: the big-endian length of its name, then the name (R175). -/

namespace Sys2Proof.Machine

/-- The low byte of a word, by mask as R175 writes it and by truncation as the model does. -/
theorem setWidth_and_byteMask (v : Word) : (v &&& 0xFF#32).setWidth 8 = v.setWidth 8 := by
  have hmask : (0xFF#32).setWidth 8 = BitVec.allOnes 8 := by decide
  rw [BitVec.setWidth_and, hmask, BitVec.and_allOnes]

theorem be32_eq_masked (v : Word) : be32 v = [((v >>> 24) &&& 0xFF#32).setWidth 8,
    ((v >>> 16) &&& 0xFF#32).setWidth 8, ((v >>> 8) &&& 0xFF#32).setWidth 8, (v &&& 0xFF#32).setWidth 8] := by
  simp only [setWidth_and_byteMask, be32]

@[simp] theorem be32_length (v : Word) : (be32 v).length = 4 := rfl

theorem header_eq (t : Method) : header t = be32 (BitVec.ofNat 32 t.name.length) ++ t.name := rfl

@[simp] theorem header_length (t : Method) : (header t).length = 4 + t.name.length := by
  rw [header_eq, List.length_append, be32_length]

/-- A length below 256 stands in the last byte of its field. -/
theorem be32_ofNat_of_lt {n : Nat} (h : n < 256) :
    be32 (BitVec.ofNat 32 n) = [0x00#8, 0x00#8, 0x00#8, BitVec.ofNat 8 n] := by
  have hlow : (BitVec.ofNat 32 n).setWidth 8 = BitVec.ofNat 8 n := BitVec.setWidth_ofNat_of_le (by decide) n
  have hhigh {k : Nat} (hk : 8 ≤ k) : BitVec.ofNat 32 n >>> k = 0#32 := by
    have hpow : 2 ^ 8 ≤ 2 ^ k := Nat.pow_le_pow_right (by decide) hk
    apply BitVec.eq_of_toNat_eq
    rw [BitVec.toNat_ushiftRight, BitVec.toNat_ofNat, Nat.mod_eq_of_lt (by omega), Nat.shiftRight_eq_div_pow,
      Nat.div_eq_of_lt (by omega), BitVec.toNat_zero]
  rw [be32, hhigh (by decide), hhigh (by decide), hhigh (by decide), hlow, BitVec.setWidth_zero]

theorem name_length_le_four (t : Method) : t.name.length ≤ 4 := by
  cases t <;> decide

/-- Every method's name is short, so its header is three zero bytes, the length and the name. -/
theorem header_eq_bytes (t : Method) :
    header t = [0x00#8, 0x00#8, 0x00#8, BitVec.ofNat 8 t.name.length] ++ t.name := by
  rw [header_eq, be32_ofNat_of_lt (Nat.lt_of_le_of_lt (name_length_le_four t) (by decide))]

/-- Settles O42: masking a byte and truncating to it agree, and a name's length fits the last byte of its field. -/
theorem headerBytes : Obligations.HeaderBytes :=
  ⟨header_eq, be32_eq_masked,
    header_eq_bytes .gzip, header_eq_bytes .lzma, header_eq_bytes .bz2, header_eq_bytes .zlib,
    header_length .gzip, header_length .lzma, header_length .zlib, header_length .bz2⟩

end Sys2Proof.Machine

/-! PROOF. The system commands `NOP` and `CLRERR` (R201, R202): one word each, and what they do in every state. -/

namespace Sys2Proof.Machine

/-- An `OP` without operand has one legal word: any other bit set makes the word illegal (R103). -/
theorem decode_eq_none_of_ne_commandWord {w : Word} {op : Byte} (hzero : op ∉ [0x01#8, 0x03#8, 0x04#8, 0x07#8])
    (hop : w.extractLsb' 0 8 = op) (hw : w ≠ commandWord op 0#8) : decode w = none := by
  obtain ⟨hop', ha', hres'⟩ := commandWord_fields op 0#8
  rw [decode_eq_none_iff, hop]
  by_cases hres : w.extractLsb' 16 16 = 0#16
  · have ha : w.extractLsb' 8 8 ≠ 0#8 := fun ha =>
      hw ((word_eq_iff_fields _ _).mpr ⟨hop.trans hop'.symm, ha.trans ha'.symm, hres.trans hres'.symm⟩)
    exact .inr (.inr (.inr (.inr (.inr ⟨hzero, ha⟩))))
  · exact .inr (.inr (.inl hres))

theorem exec_nop (s : State) : exec .nop s = .next s := rfl

theorem exec_clrerr (s : State) : exec .clrerr s = .next s.clearError := rfl

theorem encode_nop : encode .nop = 0x00000000#32 := rfl

theorem encode_clrerr : encode .clrerr = 0x0000000E#32 := rfl

/-- Settles O6: `NOP` has no operand, so a word with its `OP` that is not its own is illegal. -/
theorem nopDoesNothing : Obligations.NopDoesNothing :=
  ⟨exec_nop, encode_nop, fun w s hop hw =>
    issue_of_decode_none (decode_eq_none_of_ne_commandWord (by decide) hop hw) s⟩

/-- Settles O7: `CLRERR` is the clearing of the error, after which none is pending; it has no operand. -/
theorem clrerrClearsOnlyTheError : Obligations.ClrerrClearsOnlyTheError := by
  refine ⟨exec_clrerr, fun s t h => ?_, encode_clrerr, fun w s hop hw =>
    issue_of_decode_none (decode_eq_none_of_ne_commandWord (by decide) hop hw) s⟩
  have ht : s.clearError = t := Host.Outcome.next.inj (exec_clrerr s ▸ h)
  rw [← ht, State.errf, State.clearError_err]
  rfl

end Sys2Proof.Machine

/-! PROOF. The register window: a register's place in it, and what a read and a write do there (R43, R204, R205, R207). -/

namespace Sys2Proof.Machine

/-- The offset of a register: its place in the map, in steps of 4 (R43). -/
def Reg.offset (r : Reg) : Nat :=
  4 * registerMap.idxOf r

theorem mem_registerMap (r : Reg) : r ∈ registerMap := by
  cases r <;> decide

theorem registerMap_nodup : registerMap.Nodup := by
  decide

theorem Reg.offset_aligned (r : Reg) : r.offset % 4 = 0 :=
  Nat.mul_mod_right ..

/-- The map ends at 0x5C. -/
theorem Reg.offset_lt (r : Reg) : r.offset < 0x5C :=
  Nat.mul_lt_mul_of_pos_left (List.idxOf_lt_length_of_mem (mem_registerMap r)) (by decide)

@[simp] theorem regAt_offset (r : Reg) : regAt r.offset = some r := by
  rw [regAt, Reg.offset, Nat.mul_div_cancel_left _ (by decide)]
  exact List.getElem?_idxOf (mem_registerMap r)

/-- Every aligned offset below the end of the map is that of a register. -/
theorem exists_reg_offset {offset : Nat} (hlt : offset < 0x5C) (haligned : offset % 4 = 0) :
    ∃ r : Reg, r.offset = offset := by
  have hindex : offset / 4 < registerMap.length := Nat.div_lt_of_lt_mul hlt
  refine ⟨registerMap[offset / 4], ?_⟩
  rw [Reg.offset, registerMap_nodup.idxOf_getElem, Nat.mul_div_cancel' (Nat.dvd_of_mod_eq_zero haligned)]

/-- The offsets above the map are reserved (R207). -/
theorem regAt_reserved {offset : Nat} (h : 0x5C ≤ offset) : regAt offset = none :=
  List.getElem?_eq_none ((Nat.le_div_iff_mul_le (by decide)).mpr h)

theorem atOffset_window {offset : Nat} (hlt : offset < 0x100) (haligned : offset % 4 = 0)
    (k : Host.Outcome State Fault Refusal) : atOffset offset k = k := by
  rw [atOffset, if_neg (Nat.not_le.mpr hlt), if_neg (not_not.mpr haligned)]

theorem atOffset_reg (r : Reg) (k : Host.Outcome State Fault Refusal) : atOffset r.offset k = k :=
  atOffset_window (r.offset_lt.trans (by decide)) r.offset_aligned k

/-- A read of a register answers its value and changes nothing (R204). -/
theorem answers_readReg (s : State) (r : Reg) : s.Answers r.offset (s.readReg r) := by
  rw [State.Answers, hostRead, atOffset_reg, State.readAt, regAt_offset]
  rfl

theorem answers_of_readReg_eq {s : State} {r : Reg} {v : Word} (h : s.readReg r = v) : s.Answers r.offset v :=
  h ▸ answers_readReg s r

theorem hostRead_reserved {offset : Nat} (hlow : 0x5C ≤ offset) (hlt : offset < 0x100) (haligned : offset % 4 = 0)
    (s : State) : hostRead offset s = .next { s with replies := s.replies ++ [.word 0#32] } := by
  rw [hostRead, atOffset_window hlt haligned, State.readAt, regAt_reserved hlow]
  rfl

theorem hostWrite_cmd (v : Word) (s : State) : hostWrite cmdOffset v s = issue v s := by
  rw [hostWrite, atOffset_window (by decide) (by decide), if_pos rfl]

/-- A write of a register other than `CMD` (R205). -/
theorem hostWrite_reg {r : Reg} (hr : r.offset ≠ cmdOffset) (v : Word) (s : State) :
    hostWrite r.offset v s = .next (s.writeReg v r) := by
  rw [hostWrite, atOffset_reg, if_neg hr, State.writeAt, regAt_offset]

/-- A write of a read-only register is ignored; the offsets listed are those of `CMD` and of the read-write registers (R205). -/
theorem hostWrite_readOnly {r : Reg} (hr : r.offset ∉ [0x04, 0x14, 0x18, 0x1C, 0x20, 0x24, 0x28]) (v : Word)
    (s : State) : hostWrite r.offset v s = .next s := by
  have hcmd : r.offset ≠ cmdOffset := fun h => hr (h ▸ List.mem_cons_self)
  rw [hostWrite_reg hcmd]
  cases r with
  | sampleRate | freqHigh | freqLow | bitDur | silDur | markers => exact absurd (by decide) hr
  | _ => rfl

theorem hostWrite_reserved {offset : Nat} (hlow : 0x5C ≤ offset) (hlt : offset < 0x100) (haligned : offset % 4 = 0)
    (v : Word) (s : State) : hostWrite offset v s = .next s := by
  have hcmd : offset ≠ cmdOffset := by
    unfold cmdOffset
    omega
  rw [hostWrite, atOffset_window hlt haligned, if_neg hcmd, State.writeAt, regAt_reserved hlow]

/-- `MARKERS` stores the low half of the word written and shows it with zeros above (R27, R205). -/
theorem readReg_writeReg_markers (s : State) (v : Word) :
    (s.writeReg v .markers).readReg .markers = v &&& 0x0000FFFF#32 := by
  have hread : (s.writeReg v .markers).readReg .markers = commandWord (v.extractLsb' 0 8) (v.extractLsb' 8 8) := rfl
  obtain ⟨hlow, hmid, hhigh⟩ := commandWord_fields (v.extractLsb' 0 8) (v.extractLsb' 8 8)
  have hlowMask : (0x0000FFFF#32).extractLsb' 0 8 = BitVec.allOnes 8 := rfl
  have hmidMask : (0x0000FFFF#32).extractLsb' 8 8 = BitVec.allOnes 8 := rfl
  have hhighMask : (0x0000FFFF#32).extractLsb' 16 16 = 0#16 := rfl
  rw [hread, word_eq_iff_fields, hlow, hmid, hhigh]
  simp only [BitVec.extractLsb'_and, hlowMask, hmidMask, hhighMask, BitVec.and_allOnes, BitVec.and_zero, and_self]

/-- Settles O46: each offset is that of a register, and a read answers its value. -/
theorem readsHaveNoSideEffect : Obligations.ReadsHaveNoSideEffect := by
  intro s
  have herr : s.readReg .err = s.err.code.setWidth 32 := rfl
  have hmethod : s.readReg .method = s.methodWord := rfl
  refine ⟨answers_readReg s .id, answers_readReg s .cmd, answers_readReg s .status, ?_,
    answers_readReg s .errinfo, answers_readReg s .sampleRate, answers_readReg s .freqHigh,
    answers_readReg s .freqLow, answers_readReg s .bitDur, answers_readReg s .silDur, answers_readReg s .markers,
    answers_readReg s .nTone, answers_readReg s .nSil, answers_readReg s .nSlot,
    ⟨_, answers_readReg s .kHigh, binWord_toNat⟩, ⟨_, answers_readReg s .kLow, binWord_toNat⟩,
    answers_readReg s .cfgchk, answers_readReg s .cfgwarn, answers_readReg s .hdrLen, ?_,
    answers_readReg s .txpos, answers_readReg s .rxpos, answers_readReg s .rxbytes⟩
  · refine answers_of_readReg_eq (r := .err) ?_
    rw [herr]
    cases s.err <;> rfl
  · refine answers_of_readReg_eq (r := .method) ?_
    rw [hmethod, State.methodWord]
    rcases s.hp.method with _ | tag
    · rfl
    · cases tag <;> rfl

/-- Settles O47: an aligned offset is that of a register or reserved, and only six registers besides `CMD` store a write. -/
theorem writesStoreOrAreIgnored : Obligations.WritesStoreOrAreIgnored := by
  intro s v
  refine ⟨hostWrite_reg (r := .sampleRate) (by decide) v s, hostWrite_reg (r := .freqHigh) (by decide) v s,
    hostWrite_reg (r := .freqLow) (by decide) v s, hostWrite_reg (r := .bitDur) (by decide) v s,
    hostWrite_reg (r := .silDur) (by decide) v s,
    ⟨_, hostWrite_reg (r := .markers) (by decide) v s, rfl, readReg_writeReg_markers s v⟩, hostWrite_cmd v s,
    fun offset hlt haligned hreadOnly => ?_,
    fun offset hlow hlt haligned => ⟨hostWrite_reserved hlow hlt haligned v s, hostRead_reserved hlow hlt haligned s⟩⟩
  obtain ⟨r, rfl⟩ := exists_reg_offset hlt haligned
  exact hostWrite_readOnly hreadOnly v s

end Sys2Proof.Machine

/-! PROOF. The error entry (R225) and the two refusals of a legal command at issue: the engine is busy (R222), the live
configuration fails a check (R220). -/

namespace Sys2Proof.Machine

/-- With no error recorded, the error entry records its own. -/
theorem State.raise_of_noError {s : State} (h : s.err = .noError) (c : Cause) (info : Nat) :
    s.raise c info = { s with err := c, errInfo := BitVec.ofNat 32 info } :=
  if_pos h

/-- A recorded error makes the error entry drop the later one. -/
theorem State.raise_of_error {s : State} (h : s.err ≠ .noError) (c : Cause) (info : Nat) : s.raise c info = s :=
  if_neg h

/-- A word given to the error entry is recorded as it is: it fits `ERRINFO`. -/
theorem State.raise_word_of_noError {s : State} (h : s.err = .noError) (c : Cause) (w : Word) :
    s.raise c w.toNat = { s with err := c, errInfo := w } := by
  rw [State.raise_of_noError h, BitVec.ofNat_toNat, BitVec.setWidth_eq]

theorem State.errf_iff (s : State) : s.errf = true ↔ s.err ≠ .noError :=
  decide_eq_true_iff

/-- After the error entry `ERRF` is 1: the error recorded is the one raised or one recorded before (R35). -/
theorem State.raise_errf {c : Cause} (hc : c ≠ .noError) (info : Nat) (s : State) : (s.raise c info).errf = true := by
  rw [State.errf_iff, State.raise_err]
  split
  · exact hc
  · assumption

/-- Settles O13: the two branches of the error entry, and either leaves an error recorded. -/
theorem firstErrorSticks : Obligations.FirstErrorSticks :=
  fun c info s => ⟨fun h => State.raise_of_noError h c info, fun h => State.raise_of_error h c info,
    fun hc => State.raise_errf hc info s⟩

/-- A system command uses no engine, so none is busy for it (R200 step 5). -/
theorem commandClass_ne_sys_of_classBusy {i : Instr} {s : State} (h : s.classBusy i.commandClass = true) :
    i.commandClass ≠ .sys := by
  intro hsys
  rw [hsys] at h
  cases h

/-- The issue procedure refuses a command of a busy engine with the command's word (R200 step 5). -/
theorem issueCommand_cmdBusy {i : Instr} {s : State} (accept : State → State) (he : s.err = .noError)
    (hb : s.classBusy i.commandClass = true) :
    issueCommand i accept s = { s with err := .cmdBusy, errInfo := encode i } := by
  obtain ⟨h, -⟩ | ⟨-, -, h⟩ | ⟨-, h, -⟩ | ⟨-, h, -⟩ := issueCommand_cases i accept s
  · exact absurd he h
  · rw [h, State.raise_word_of_noError he]
  · simp [hb] at h
  · simp [hb] at h

/-- Settles O10: a command with a busy engine goes through the issue procedure, which stops at that engine. -/
theorem busyEngineRaisesCmdBusy : Obligations.BusyEngineRaisesCmdBusy := by
  intro i s he hb
  obtain ⟨accept, haccept⟩ := exec_eq_issueCommand (commandClass_ne_sys_of_classBusy hb)
  rw [haccept, issueCommand_cmdBusy accept he hb]

/-- Tones 1 Hz apart for 10 ms: the resolution invariant (R32, R246) asks for 100 Hz, and no check of R31 asks for it. -/
def unresolvedCfg : Cfg :=
  { sampleRate := 44100#32, freqHigh := 2200#32, freqLow := 2199#32, bitDur := 10000000#32, silDur := 5000000#32 }

theorem cfgchk_unresolvedCfg : cfgchk unresolvedCfg = 0#32 := by
  decide

theorem freqGap_mul_bitDur_unresolvedCfg : freqGap unresolvedCfg * unresolvedCfg.bitDur.toNat < unitsPerSecond := by
  decide

/-- Settles O11: the issue procedure stops at its check of the configuration; `unresolvedCfg` passes that check. -/
theorem invalidConfigurationIsRefused : Obligations.InvalidConfigurationIsRefused :=
  ⟨fun _ _ => exec_cfgInvalid, unresolvedCfg, cfgchk_unresolvedCfg, freqGap_mul_bitDur_unresolvedCfg⟩

end Sys2Proof.Machine

/-! PROOF. Decoding and encoding are inverse: a row of R111 fixes the fields of the one command it stands for (R100, R101). -/

namespace Sys2Proof.Machine

/-- Every command is well formed and its word carries its fields. -/
theorem encodes (i : Instr) : Laws.Encodes.Statement i := by
  cases i with
  | nop => exact Laws.Encodes.nop
  | tone sel => exact Laws.Encodes.tone sel
  | sil => exact Laws.Encodes.sil
  | txbit bit => exact Laws.Encodes.txbit bit
  | txbyte byte => exact Laws.Encodes.txbyte byte
  | txend => exact Laws.Encodes.txend
  | txraw => exact Laws.Encodes.txraw
  | txframe tag => exact Laws.Encodes.txframe tag
  | rxslot => exact Laws.Encodes.rxslot
  | rxflush => exact Laws.Encodes.rxflush
  | rxraw => exact Laws.Encodes.rxraw
  | rxframe => exact Laws.Encodes.rxframe
  | hparse => exact Laws.Encodes.hparse
  | clrerr => exact Laws.Encodes.clrerr
  | reset => exact Laws.Encodes.reset

/-- A word is a command's word when its three fields are the command's. -/
theorem encode_eq_iff_fields (i : Instr) (w : Word) : encode i = w ↔
    w.extractLsb' 0 8 = i.opField ∧ w.extractLsb' 8 8 = i.operandField ∧ w.extractLsb' 16 16 = 0#16 := by
  obtain ⟨-, -, hop, ha, hres⟩ := encodes i
  rw [word_eq_iff_fields, hop, ha, hres, eq_comm, @eq_comm _ i.operandField, @eq_comm _ 0#16]

/-- The word of a row without operand is the row's match. -/
theorem selects_allOnes_iff (w m : Word) : selects w 0xFFFFFFFF#32 m = true ↔ w = m := by
  have hall : 0xFFFFFFFF#32 = BitVec.allOnes 32 := rfl
  rw [selects, beq_iff_eq, hall, BitVec.and_allOnes]

/-- An operand of one bit is read from bit 8 of the word. -/
theorem bitOperand_of_word {w : Word} (h : w.extractLsb' 8 8 &&& 0xFE#8 = 0#8) :
    w.extractLsb' 8 8 = if w.getLsbD 8 then 1#8 else 0#8 := by
  have hbit : w.getLsbD 8 = (w.extractLsb' 8 8).getLsbD 0 := by simp
  have hbyte : ∀ a : Byte, a &&& 0xFE#8 = 0#8 → a = if a.getLsbD 0 then 1#8 else 0#8 := by decide
  rw [hbit]
  exact hbyte _ h

/-- A tag is read from bits 9:8 of the word. -/
theorem tagOperand_of_word {w : Word} (h : w.extractLsb' 8 8 &&& 0xFC#8 = 0#8) :
    w.extractLsb' 8 8 = BitVec.ofNat 8 (Method.ofTag (w.extractLsb' 8 2)).number := by
  have htag : w.extractLsb' 8 2 = (w.extractLsb' 8 8).extractLsb' 0 2 := by
    ext i hi
    simp
    omega
  have hbyte : ∀ a : Byte, a &&& 0xFC#8 = 0#8 → a = BitVec.ofNat 8 (Method.ofTag (a.extractLsb' 0 2)).number := by
    decide
  rw [htag]
  exact hbyte _ h

/-- A row without operand is its command's word. -/
theorem encode_of_selects_allOnes {w m : Word} {i : Instr} (hm : encode i = m)
    (h : selects w 0xFFFFFFFF#32 m = true) : encode i = w :=
  hm.trans ((selects_allOnes_iff w m).mp h).symm

/-- A row with operand fixes the fields that its command has, when it reads the operand out of the masked `A`. -/
theorem encode_of_selects_rowMask {w mask m : Word} {i : Instr} (op b : Byte) (hmask : rowMask b = mask)
    (hm : commandWord op 0#8 = m) (hi : i.opField = op)
    (operand : w.extractLsb' 8 8 &&& b = 0#8 → w.extractLsb' 8 8 = i.operandField)
    (h : selects w mask m = true) : encode i = w := by
  rw [← hmask, ← hm] at h
  obtain ⟨hop, ha, hres⟩ := (selects_rowMask_iff w b op).mp h
  exact (encode_eq_iff_fields i w).mpr ⟨hop.trans hi.symm, operand ha, hres⟩

/-- One row of the decoder: selected it gives its command, else the rows after it decide. -/
theorem encode_of_row {c : Prop} [Decidable c] {w : Word} {i j : Instr} {later : Option Instr}
    (h : (if c then some j else later) = some i) (row : c → encode j = w) (rest : later = some i → encode i = w) :
    encode i = w := by
  split at h
  · exact Option.some.inj h ▸ row ‹c›
  · exact rest h

theorem encode_of_decode {w : Word} {i : Instr} (h : decode w = some i) : encode i = w :=
  encode_of_row h (encode_of_selects_allOnes rfl) fun h =>
  encode_of_row h (encode_of_selects_rowMask 0x01#8 0xFE#8 rfl rfl rfl bitOperand_of_word) fun h =>
  encode_of_row h (encode_of_selects_allOnes rfl) fun h =>
  encode_of_row h (encode_of_selects_rowMask 0x03#8 0xFE#8 rfl rfl rfl bitOperand_of_word) fun h =>
  encode_of_row h (encode_of_selects_rowMask 0x04#8 0x00#8 rfl rfl rfl (fun _ => rfl)) fun h =>
  encode_of_row h (encode_of_selects_allOnes rfl) fun h =>
  encode_of_row h (encode_of_selects_allOnes rfl) fun h =>
  encode_of_row h (encode_of_selects_rowMask 0x07#8 0xFC#8 rfl rfl rfl tagOperand_of_word) fun h =>
  encode_of_row h (encode_of_selects_allOnes rfl) fun h =>
  encode_of_row h (encode_of_selects_allOnes rfl) fun h =>
  encode_of_row h (encode_of_selects_allOnes rfl) fun h =>
  encode_of_row h (encode_of_selects_allOnes rfl) fun h =>
  encode_of_row h (encode_of_selects_allOnes rfl) fun h =>
  encode_of_row h (encode_of_selects_allOnes rfl) fun h =>
  encode_of_row h (encode_of_selects_allOnes rfl) fun h => nomatch h

theorem decode_encode (i : Instr) : decode (encode i) = some i := by
  have htxbyte : ∀ byte : Byte, decode (encode (.txbyte byte)) = some (.txbyte byte) := by decide
  cases i with
  | tone sel => cases sel <;> decide
  | txbit bit => cases bit <;> decide
  | txbyte byte => exact htxbyte byte
  | txframe tag => cases tag <;> decide
  | _ => decide

/-- Settles O2: each row of the decoder fixes the three fields of its command, and each command's word selects its row. -/
theorem decodeInvertsEncode : Obligations.DecodeInvertsEncode :=
  fun _ i => ⟨encode_of_decode, fun h => h ▸ decode_encode i⟩

end Sys2Proof.Machine

/-! PROOF. What the issue of a word can do, and what one step of the machine can do: said once, for the statements about
steps (R200, R201 to R208, R240). -/

namespace Sys2Proof.Machine

/-! ### The issue of a command -/

/-- What the issue of a command does when nothing refuses it (R200 step 7, and what the command's own rule adds). -/
def acceptance (i : Instr) (s : State) : State :=
  match i with
  | .nop | .clrerr | .reset => s
  | .tone sel => (s.acceptTx .tone).openTone sel
  | .sil => (s.acceptTx .sil).openSilence
  | .txbit bit => (s.acceptTx .txbit).openTone bit
  | .txbyte byte => (s.acceptTx .txbyte).loadByte byte
  | .txend => s.acceptTx .txend
  | .txraw => s.acceptTx .txraw
  | .txframe tag => { s with tx := { (s.acceptTx .txframe).tx with hdr := header tag } }
  | .rxslot => s.acceptRx .rxslot
  | .rxflush => s.acceptRx .rxflush
  | .rxraw => rawStart (s.acceptRx .rxraw).clearDeserializer
  | .rxframe => hpStart (s.acceptRx .rxframe).clearDeserializer
  | .hparse => hpStart (s.acceptRx .hparse)

/-- Every command of an engine goes through the issue procedure with its acceptance. -/
theorem exec_eq_acceptance {i : Instr} (hi : i.commandClass ≠ .sys) (s : State) :
    exec i s = .next (issueCommand i (acceptance i) s) := by
  cases i with
  | nop | clrerr | reset => exact absurd rfl hi
  | _ => rfl

/-- Nothing refuses the command: no error is recorded, its engine is idle, and the configuration is valid if it is used
(R200 steps 4 to 6). -/
structure State.Accepts (s : State) (i : Instr) : Prop where
  engine : i.commandClass ≠ .sys
  noError : s.err = .noError
  idle : s.classBusy i.commandClass = false
  valid : i.usesCfg = true → cfgchk s.cfg = 0#32

theorem exec_of_accepts {i : Instr} {s : State} (h : s.Accepts i) : exec i s = .next (acceptance i s) := by
  rw [exec_eq_acceptance h.engine, issueCommand_accepts h.noError h.idle h.valid]

/-- A cause that some rule raises: an error, and not the one reserved for software (R215, R219). -/
def Cause.Raised (c : Cause) : Prop :=
  c ≠ .noError ∧ c ≠ .decompressionFailed

/-- Everything a command can do at its issue. -/
theorem exec_cases {i : Instr} {s t : State} (h : exec i s = .next t) :
    (i = .reset ∧ t = s.resetBlock) ∨ (i = .clrerr ∧ t = s.clearError) ∨ t = s
      ∨ (∃ c info, Cause.Raised c ∧ t = s.raise c info) ∨ (s.Accepts i ∧ t = acceptance i s) := by
  by_cases hi : i.commandClass = .sys
  · cases i with
    | nop => exact .inr (.inr (.inl (Host.Outcome.next.inj h).symm))
    | clrerr => exact .inr (.inl ⟨rfl, (Host.Outcome.next.inj h).symm⟩)
    | reset => exact .inl ⟨rfl, (Host.Outcome.next.inj h).symm⟩
    | _ => cases hi
  · rw [exec_eq_acceptance hi] at h
    obtain rfl := Host.Outcome.next.inj h
    obtain ⟨-, hs⟩ | ⟨-, -, hs⟩ | ⟨-, -, -, -, hs⟩ | ⟨herr, hidle, hvalid, hs⟩ := issueCommand_cases i (acceptance i) s
    · exact .inr (.inr (.inl hs))
    · exact .inr (.inr (.inr (.inl ⟨_, _, ⟨Cause.noConfusion, Cause.noConfusion⟩, hs⟩)))
    · exact .inr (.inr (.inr (.inl ⟨_, _, ⟨Cause.noConfusion, Cause.noConfusion⟩, hs⟩)))
    · exact .inr (.inr (.inr (.inr ⟨⟨hi, herr, hidle, hvalid⟩, hs⟩)))

/-- Everything a word written to `CMD` can do. -/
theorem issue_cases {w : Word} {s t : State} (h : issue w s = .next t) :
    (w = 0x0000000F#32 ∧ t = s.resetBlock) ∨ (w = 0x0000000E#32 ∧ t = s.clearError) ∨ t = s
      ∨ (∃ c info, Cause.Raised c ∧ t = s.raise c info) ∨ ∃ i, w = encode i ∧ s.Accepts i ∧ t = acceptance i s := by
  cases hw : decode w with
  | none =>
    rw [issue_of_decode_none hw] at h
    exact .inr (.inr (.inr (.inl ⟨_, _, ⟨Cause.noConfusion, Cause.noConfusion⟩, (Host.Outcome.next.inj h).symm⟩)))
  | some i =>
    have hi : encode i = w := encode_of_decode hw
    rw [issue_of_decode_some hw] at h
    obtain ⟨rfl, ht⟩ | ⟨rfl, ht⟩ | ht | ht | ht := exec_cases h
    · exact .inl ⟨hi.symm, ht⟩
    · exact .inr (.inl ⟨hi.symm, ht⟩)
    · exact .inr (.inr (.inl ht))
    · exact .inr (.inr (.inr (.inl ht)))
    · exact .inr (.inr (.inr (.inr ⟨i, hi.symm, ht⟩)))

/-! ### The host's line -/

/-- The host has the next turn and takes the line `line` from its script, in the state `v`. -/
def State.HostTakes (s : State) (line : HostStep) (v : State) : Prop :=
  ∃ s' lines, s.TurnOf .host s' ∧ s.host = line :: lines ∧ v = { s' with host := lines }

theorem State.HostTakes.hostNext {s v : State} {line : HostStep} (h : s.HostTakes line v) : s.HostNext line :=
  let ⟨s', lines, hturn, hline, _⟩ := h
  ⟨⟨s', hturn⟩, lines, hline⟩

/-- Taking a line touches nothing of the block. -/
theorem State.HostTakes.eq {s v : State} {line : HostStep} (h : s.HostTakes line v) :
    v = { s with host := v.host, turns := v.turns, drawn := v.drawn } := by
  obtain ⟨s', lines, hturn, -, rfl⟩ := h
  rw [hturn.eq]

theorem State.HostTakes.kept {s v : State} {line : HostStep} (h : s.HostTakes line v) : EnginesKept s v := by
  rw [h.eq]
  exact ⟨rfl, rfl, rfl, rfl, rfl⟩

theorem State.TurnOf.kept {s s' : State} {a : Agent} (h : s.TurnOf a s') : EnginesKept s s' := by
  rw [h.eq]
  exact ⟨rfl, rfl, rfl, rfl, rfl⟩

theorem EnginesKept.trans {s t u : State} (h : EnginesKept s t) (h' : EnginesKept t u) : EnginesKept s u := by
  obtain ⟨htx, hrx, hhp, herr, hinfo⟩ := h
  obtain ⟨htx', hrx', hhp', herr', hinfo'⟩ := h'
  exact ⟨htx'.trans htx, hrx'.trans hrx, hhp'.trans hhp, herr'.trans herr, hinfo'.trans hinfo⟩

/-- Everything one step can do (R12, R76): a step of an engine at its turn, or a line of the host that leaves the engines and
the error registers alone, resets the block, clears the error, raises one, or has a command accepted. -/
theorem step_effect {s t : State} (h : step s = .next t) :
    (∃ s', s.TurnOf .tx s' ∧ t = txStep openNumerics s')
    ∨ (∃ s', s.TurnOf .rx s' ∧ t = rxStep openNumerics s')
    ∨ EnginesKept s t
    ∨ ∃ line v, s.HostTakes line v ∧
      ((line = .write 0x04 0x0000000F#32 ∨ line = .resetInput) ∧ t = v.resetBlock
      ∨ line = .write 0x04 0x0000000E#32 ∧ t = v.clearError
      ∨ (∃ c info, Cause.Raised c ∧ t = v.raise c info)
      ∨ ∃ i, line = .write 0x04 (encode i) ∧ v.Accepts i ∧ t = acceptance i v) := by
  obtain ⟨s', ⟨hturn, ht⟩ | ⟨hturn, ht⟩ | ⟨hturn, -, rfl⟩ | ⟨hturn, line, lines, hline, ht⟩⟩ := step_cases h
  · exact .inl ⟨s', hturn, ht⟩
  · exact .inr (.inl ⟨s', hturn, ht⟩)
  · exact .inr (.inr (.inl hturn.kept))
  · have htakes : s.HostTakes line { s' with host := lines } := ⟨s', lines, hturn, hline, rfl⟩
    have hheld : EnginesKept { s' with host := lines } s' := ⟨rfl, rfl, rfl, rfl, rfl⟩
    obtain ⟨w, rfl, hw⟩ | ⟨rfl, rfl⟩ | hkept := hostTurn_cases hheld ht
    · obtain ⟨rfl, hreset⟩ | ⟨rfl, hclear⟩ | rfl | hraise | ⟨i, rfl, haccept⟩ := issue_cases hw
      · exact .inr (.inr (.inr ⟨_, _, htakes, .inl ⟨.inl rfl, hreset⟩⟩))
      · exact .inr (.inr (.inr ⟨_, _, htakes, .inr (.inl ⟨rfl, hclear⟩)⟩))
      · exact .inr (.inr (.inl htakes.kept))
      · exact .inr (.inr (.inr ⟨_, _, htakes, .inr (.inr (.inl hraise))⟩))
      · exact .inr (.inr (.inr ⟨_, _, htakes, .inr (.inr (.inr ⟨i, rfl, haccept⟩))⟩))
    · exact .inr (.inr (.inr ⟨_, _, htakes, .inl ⟨.inr rfl, rfl⟩⟩))
    · exact .inr (.inr (.inl (htakes.kept.trans hkept)))

/-! ### What an acceptance writes -/

/-- A command of `TX` is accepted by writing the state of `TX`, and by nothing else. -/
theorem acceptance_tx {i : Instr} (hi : i.commandClass = .tx) (s : State) :
    acceptance i s = { s with tx := (acceptance i s).tx } ∧ (acceptance i s).tx.busy = true
      ∧ (acceptance i s).tx.cfg = TxCfg.of s.cfg := by
  cases i with
  | nop | clrerr | reset | rxslot | rxflush | rxraw | rxframe | hparse => cases hi
  | _ => exact ⟨rfl, rfl, rfl⟩

/-- A command of `RX` is accepted by writing the state of `RX` and of its parser, and by nothing else. -/
theorem acceptance_rx {i : Instr} (hi : i.commandClass = .rx) (s : State) :
    acceptance i s = { s with rx := (acceptance i s).rx, hp := (acceptance i s).hp } ∧ (acceptance i s).rx.busy = true
      ∧ (acceptance i s).rx.cfg = RxCfg.of s.cfg := by
  cases i with
  | rxslot | rxflush | rxraw | rxframe | hparse => exact ⟨rfl, rfl, rfl⟩
  | _ => cases hi

theorem State.Accepts.tx_or_rx {s : State} {i : Instr} (h : s.Accepts i) :
    i.commandClass = .tx ∨ i.commandClass = .rx := by
  have hi := h.engine
  cases hc : i.commandClass with
  | sys => exact absurd hc hi
  | tx => exact .inl rfl
  | rx => exact .inr rfl

/-- Issue answers every word with a next state. -/
theorem issue_next (w : Word) (s : State) : ∃ t, issue w s = .next t := by
  cases hw : decode w with
  | none => exact ⟨_, issue_of_decode_none hw s⟩
  | some i =>
    rw [issue_of_decode_some hw]
    cases i <;> exact ⟨_, rfl⟩

/-- Settles O12: the issue procedure refuses with an error or not at all, and an acceptance writes its own engine only. -/
theorem issueHasNoPartialEffect : Obligations.IssueHasNoPartialEffect := by
  refine ⟨issue_next, fun i s hi herr => ?_, fun i s t hi h => ?_⟩
  · rw [exec_eq_acceptance hi, issueCommand, if_pos herr]
  · obtain ⟨rfl, -⟩ | ⟨rfl, -⟩ | rfl | ⟨c, info, -, rfl⟩ | ⟨haccepts, rfl⟩ := exec_cases h
    · exact absurd rfl hi
    · exact absurd rfl hi
    · exact .inl rfl
    · exact .inl (State.raise_eq c info s)
    · refine .inr ⟨haccepts.noError, haccepts.idle, haccepts.valid, ?_, fun htx => ?_, fun hrx => ?_⟩
      · obtain htx | hrx := haccepts.tx_or_rx
        · rw [htx]
          exact (acceptance_tx htx s).2.1
        · rw [hrx]
          exact (acceptance_rx hrx s).2.1
      · exact ⟨(acceptance_tx htx s).1, (acceptance_tx htx s).2.2⟩
      · exact ⟨(acceptance_rx hrx s).1, (acceptance_rx hrx s).2.2⟩

end Sys2Proof.Machine

/-! PROOF. What a step of an engine does to the error registers, to the streams and to its busy bit, and the statements about
steps of the machine that follow (R78, R209, R225 to R228). -/

namespace Sys2Proof.Machine

/-! ### Errors and streams of RX -/

/-- From `s` to `t` the error registers are kept, or a first error is recorded (R225). -/
def RaisesAtMost (s t : State) : Prop :=
  (t.err = s.err ∧ t.errInfo = s.errInfo) ∨ (s.err = .noError ∧ Cause.Raised t.err)

theorem RaisesAtMost.kept {s t : State} (h : RaisesAtMost s t) (herr : s.err ≠ .noError) :
    t.err = s.err ∧ t.errInfo = s.errInfo :=
  h.resolve_right fun ⟨h0, _⟩ => herr h0

theorem raise_raisesAtMost {c : Cause} (hc : c.Raised) (info : Nat) (s : State) : RaisesAtMost s (s.raise c info) := by
  obtain ⟨herr, h⟩ | ⟨-, h⟩ := raise_cases c info s
  · rw [h]
    exact .inr ⟨herr, hc⟩
  · rw [h]
    exact .inl ⟨rfl, rfl⟩

/-- From `s` to `t` at most one error is recorded, at most one item is pushed to `RXD`, and the input streams are kept. -/
def RxEffect (s t : State) : Prop :=
  RaisesAtMost s t ∧ (∃ pushed : List (Item Byte), pushed.length ≤ 1 ∧ t.rxd = s.rxd ++ pushed)
    ∧ t.rxs = s.rxs ∧ t.rxb = s.rxb

theorem RxEffect.refl (s : State) : RxEffect s s :=
  ⟨.inl ⟨rfl, rfl⟩, ⟨[], by simp, by simp⟩, rfl, rfl⟩

theorem pushRxd_effect (x : Item Byte) (s : State) : RxEffect s (s.pushRxd x) :=
  ⟨.inl ⟨rfl, rfl⟩, ⟨[x], by simp, rfl⟩, rfl, rfl⟩

theorem raise_effect {c : Cause} (hc : c.Raised) (info : Nat) (s : State) : RxEffect s (s.raise c info) :=
  ⟨raise_raisesAtMost hc info s, ⟨[], by simp, by simp⟩, by simp, by simp⟩

theorem nameDone_effect (s : State) : RxEffect s (nameDone s) := by
  obtain ⟨-, h⟩ | ⟨-, -, h⟩ | ⟨t, -, -, h⟩ := nameDone_cases s
  · rw [h]
    exact raise_effect ⟨Cause.noConfusion, Cause.noConfusion⟩ _ _
  · rw [h]
    exact raise_effect ⟨Cause.noConfusion, Cause.noConfusion⟩ _ _
  · rw [h]
    exact RxEffect.refl s

theorem lenByte_effect (b : Byte) (s : State) : RxEffect s (lenByte b s) := by
  unfold lenByte
  dsimp only
  split
  · split
    · exact nameDone_effect _
    · exact RxEffect.refl s
  · exact RxEffect.refl s

theorem nameByte_effect (b : Byte) (s : State) : RxEffect s (nameByte b s) := by
  unfold nameByte
  dsimp only
  split
  · exact nameDone_effect _
  · exact RxEffect.refl s

theorem hpByte_effect (b : Byte) (s : State) : RxEffect s (hpByte b s) := by
  unfold hpByte
  cases s.hp.state with
  | len => exact lenByte_effect b s
  | name => exact nameByte_effect b s
  | payload => exact pushRxd_effect _ s
  | fail | off => exact RxEffect.refl s

theorem hpEnd_effect (s : State) : RxEffect s (hpEnd s) ∧ (hpEnd s).rxd = s.rxd := by
  obtain ⟨-, h⟩ | ⟨-, -, h⟩ := hpEnd_cases s
  · rw [h]
    exact ⟨raise_effect ⟨Cause.noConfusion, Cause.noConfusion⟩ _ _, by simp⟩
  · rw [h]
    exact ⟨RxEffect.refl s, rfl⟩

/-- The `END` that closes what a parsing command delivers (R186, R187). -/
theorem hpEnd_push_effect (s : State) : RxEffect s ((hpEnd s).pushRxd .fin).completeRx := by
  obtain ⟨⟨herr, -, hrxs, hrxb⟩, hrxd⟩ := hpEnd_effect s
  exact ⟨herr, ⟨[.fin], by simp, by simp [hrxd]⟩, hrxs, hrxb⟩

theorem emitByte_effect (b : Byte) (s : State) : RxEffect s (emitByte b s) := by
  unfold emitByte
  cases s.rx.op with
  | rxslot => exact pushRxd_effect _ s
  | rxraw => exact pushRxd_effect _ _
  | rxframe => exact hpByte_effect b _
  | idle | rxflush | hparse => exact RxEffect.refl s

theorem giveBit_effect (b : Bool) (s : State) : RxEffect s (giveBit emitByte b s) := by
  obtain ⟨-, h⟩ | ⟨-, h⟩ := giveBit_cases emitByte b s
  · rw [h]
    exact emitByte_effect _ _
  · rw [h]
    exact RxEffect.refl s

theorem closeRxSlot_effect (num : Numerics Sample) (s : State) : RxEffect s (closeRxSlot num s) := by
  unfold closeRxSlot
  dsimp only
  split <;> exact giveBit_effect _ _

theorem takeSample_effect (num : Numerics Sample) (x : Sample) (s : State) : RxEffect s (takeSample num x s) := by
  unfold takeSample
  dsimp only
  split
  · exact closeRxSlot_effect num _
  · exact RxEffect.refl s

theorem endOfSamples_effect (s : State) : RxEffect s (endOfSamples s) := by
  unfold endOfSamples
  cases s.rx.op with
  | rxslot => exact RxEffect.refl s
  | rxraw => exact pushRxd_effect .fin s
  | rxframe => exact hpEnd_push_effect _
  | idle | rxflush | hparse => exact RxEffect.refl s

theorem parseByte_effect (b : Byte) (s : State) : RxEffect s (parseByte b s) := by
  unfold parseByte
  split
  · exact RxEffect.refl s
  · exact hpByte_effect b _

/-- A step of `RX` is that of the command it executes (R12, R45). -/
theorem rxStep_cases (num : Numerics Sample) (s : State) :
    (s.rx.op = .idle ∧ rxStep num s = s) ∨ (s.rx.op = .rxflush ∧ rxStep num s = flushStep s)
      ∨ (s.rx.op.usesCfg = true ∧ rxStep num s = sampleStep num s)
      ∨ (s.rx.op = .hparse ∧ rxStep num s = hparseStep s) := by
  cases h : s.rx.op with
  | idle => exact .inl ⟨rfl, rxStep_idle h⟩
  | rxflush => exact .inr (.inl ⟨rfl, by simp only [rxStep, h]⟩)
  | rxslot | rxraw | rxframe => exact .inr (.inr (.inl ⟨rfl, rxStep_samples (by rw [h]; rfl)⟩))
  | hparse => exact .inr (.inr (.inr ⟨rfl, by simp only [rxStep, h]⟩))

theorem sampleStep_effect (num : Numerics Sample) (s : State) :
    RxEffect { s with rxs := s.rxs.tail } (sampleStep num s) := by
  unfold sampleStep
  split
  · rename_i h
    exact ⟨.inl ⟨rfl, rfl⟩, ⟨[], by simp, by simp⟩, by simp [h], rfl⟩
  · rename_i rest h
    rw [h]
    exact endOfSamples_effect _
  · rename_i x rest h
    rw [h]
    split
    · exact RxEffect.refl _
    · exact takeSample_effect num x _

theorem hparseStep_effect (s : State) : RxEffect { s with rxb := s.rxb.tail } (hparseStep s) := by
  unfold hparseStep
  split
  · rename_i h
    exact ⟨.inl ⟨rfl, rfl⟩, ⟨[], by simp, by simp⟩, rfl, by simp [h]⟩
  · rename_i rest h
    rw [h]
    exact hpEnd_push_effect _
  · rename_i b rest h
    rw [h]
    exact parseByte_effect b _

/-- A step of `RX` pops nothing, or the head of the stream its command reads. -/
theorem rxStep_effect (num : Numerics Sample) (s : State) :
    RxEffect s (rxStep num s) ∨ RxEffect { s with rxs := s.rxs.tail } (rxStep num s)
      ∨ RxEffect { s with rxb := s.rxb.tail } (rxStep num s) := by
  obtain ⟨-, h⟩ | ⟨-, h⟩ | ⟨-, h⟩ | ⟨-, h⟩ := rxStep_cases num s
  · rw [h]
    exact .inl (RxEffect.refl s)
  · rw [h]
    exact .inl (pushRxd_effect .fin s)
  · rw [h]
    exact .inr (.inl (sampleStep_effect num s))
  · rw [h]
    exact .inr (.inr (hparseStep_effect s))

theorem rxStep_raisesAtMost (num : Numerics Sample) (s : State) : RaisesAtMost s (rxStep num s) := by
  obtain ⟨h, -⟩ | ⟨h, -⟩ | ⟨h, -⟩ := rxStep_effect num s <;> exact h

/-- Settles O14: a step of `RX` raises at most a first error, a step of `TX` none, and of the host's lines only those named
write `ERR` while an error is recorded. -/
theorem errorsLeaveOnlyByClearing : Obligations.ErrorsLeaveOnlyByClearing := by
  intro s t hstep herr
  obtain ⟨s', hturn, rfl⟩ | ⟨s', hturn, rfl⟩ | ⟨-, -, -, hkept⟩ | ⟨line, v, htakes, hline⟩ := step_effect hstep
  · obtain ⟨-, -, -, herr', hinfo'⟩ := hturn.kept
    rw [txStep_frame openNumerics s']
    exact .inl ⟨herr', hinfo'⟩
  · obtain ⟨-, -, -, herr', hinfo'⟩ := hturn.kept
    rw [← herr', ← hinfo']
    exact .inl ((rxStep_raisesAtMost openNumerics s').kept (herr' ▸ herr))
  · exact .inl hkept
  · obtain ⟨-, -, -, herr', hinfo'⟩ := htakes.kept
    have hv : v.err ≠ .noError := herr' ▸ herr
    obtain ⟨hline, rfl⟩ | ⟨hline, rfl⟩ | ⟨c, info, -, rfl⟩ | ⟨i, -, haccepts, -⟩ := hline
    · exact .inr ⟨rfl, rfl, line, htakes.hostNext, .inr hline⟩
    · exact .inr ⟨rfl, rfl, line, htakes.hostNext, .inl hline⟩
    · rw [State.raise_of_error hv]
      exact .inl ⟨herr', hinfo'⟩
    · exact absurd haccepts.noError hv

/-! ### Busy bits -/

/-- A step of `TX` leaves a busy engine busy, or idle and done (R149). -/
theorem txStep_busy_or_done (num : Numerics Sample) (s : State) (h : s.tx.busy = true) :
    (txStep num s).tx.busy = true ∨ ((txStep num s).tx.op = .idle ∧ (txStep num s).tx.done = true) := by
  unfold txStep toneStep silStep slotStep txendStep fetchStep
  repeat' split
  all_goals simp [h]

/-- A step of `RX` leaves a busy engine busy, or idle and done (R209). -/
theorem rxStep_busy_or_done (num : Numerics Sample) (s : State) (h : s.rx.busy = true) :
    (rxStep num s).rx.busy = true ∨ ((rxStep num s).rx.op = .idle ∧ (rxStep num s).rx.done = true) := by
  have hgive : ∀ (b : Bool) (t : State), (giveBit emitByte b t).rx.busy = t.rx.busy := fun b t => (giveBit_engine b t).1
  have hbyte : ∀ (b : Byte) (t : State), (hpByte b t).rx.busy = t.rx.busy := fun b t => (hpByte_engine b t).1
  unfold rxStep flushStep sampleStep hparseStep endOfSamples takeSample closeRxSlot parseByte
  dsimp only
  repeat' split
  all_goals simp [h, hgive, hbyte]

/-- No line of the host but a reset ends a running command: the others leave both busy bits, or set one. -/
theorem acceptance_busy {i : Instr} {s : State} (h : s.Accepts i) :
    (s.tx.busy = true → (acceptance i s).tx.busy = true) ∧ (s.rx.busy = true → (acceptance i s).rx.busy = true) := by
  obtain htx | hrx := h.tx_or_rx
  · obtain ⟨hs, hbusy, -⟩ := acceptance_tx htx s
    exact ⟨fun _ => hbusy, fun hb => by rw [hs]; exact hb⟩
  · obtain ⟨hs, hbusy, -⟩ := acceptance_rx hrx s
    exact ⟨fun hb => by rw [hs]; exact hb, fun _ => hbusy⟩

/-- Settles O15: each engine leaves the other's busy bit alone, and ends its own command by completing it. -/
theorem busyEndsOnlyByCompletionOrReset : Obligations.BusyEndsOnlyByCompletionOrReset := by
  intro s t hstep
  obtain ⟨s', hturn, rfl⟩ | ⟨s', hturn, rfl⟩ | ⟨htx, hrx, -⟩ | ⟨line, v, htakes, hline⟩ := step_effect hstep
  · obtain ⟨htx, hrx, -⟩ := hturn.kept
    have hother : (txStep openNumerics s').rx = s'.rx := by rw [txStep_frame openNumerics s']
    refine ⟨fun hb hidle => .inl ⟨s', hturn, rfl, ?_⟩, fun hb hidle => ?_⟩
    · exact (txStep_busy_or_done openNumerics s' (htx ▸ hb)).resolve_left (by simp [hidle])
    · rw [hother, hrx, hb] at hidle
      cases hidle
  · obtain ⟨htx, hrx, -⟩ := hturn.kept
    have hother : (rxStep openNumerics s').tx = s'.tx := by rw [rxStep_frame openNumerics s']
    refine ⟨fun hb hidle => ?_, fun hb hidle => .inl ⟨s', hturn, rfl, ?_⟩⟩
    · rw [hother, htx, hb] at hidle
      cases hidle
    · exact (rxStep_busy_or_done openNumerics s' (hrx ▸ hb)).resolve_left (by simp [hidle])
  · exact ⟨fun hb hidle => by simp [htx, hb] at hidle, fun hb hidle => by simp [hrx, hb] at hidle⟩
  · obtain ⟨htx, hrx, -⟩ := htakes.kept
    obtain ⟨hline, rfl⟩ | ⟨-, rfl⟩ | ⟨c, info, -, rfl⟩ | ⟨i, -, haccepts, rfl⟩ := hline
    · exact ⟨fun _ _ => .inr ⟨line, htakes.hostNext, hline⟩, fun _ _ => .inr ⟨line, htakes.hostNext, hline⟩⟩
    · exact ⟨fun hb hidle => by simp [htx, hb] at hidle, fun hb hidle => by simp [hrx, hb] at hidle⟩
    · exact ⟨fun hb hidle => by simp [htx, hb] at hidle, fun hb hidle => by simp [hrx, hb] at hidle⟩
    · obtain ⟨htxBusy, hrxBusy⟩ := acceptance_busy haccepts
      exact ⟨fun hb hidle => by simp [htxBusy (htx ▸ hb)] at hidle, fun hb hidle => by simp [hrxBusy (hrx ▸ hb)] at hidle⟩

end Sys2Proof.Machine

/-! PROOF. What a parsing command delivers and what changes its results: `RXD` before the header is accepted (R184, R185),
`HDR_LEN` and `METHOD` (R38, R39, R188). -/

namespace Sys2Proof.Machine

/-! ### RXD in a command that parses -/

/-- From `s` to `t` nothing is pushed to `RXD`, or one `END`, or, the header being accepted, one byte. -/
def DeliversInOrder (s t : State) : Prop :=
  t.rxd = s.rxd ∨ t.rxd = s.rxd ++ [.fin] ∨ (s.hp.state = .payload ∧ ∃ b, t.rxd = s.rxd ++ [.data b])

theorem hpByte_delivers (b : Byte) (s : State) : DeliversInOrder s (hpByte b s) := by
  obtain ⟨hpayload, h⟩ | ⟨-, h⟩ := hpByte_rxd b s
  · exact .inr (.inr ⟨hpayload, b, by rw [h, State.pushRxd_rxd]⟩)
  · exact .inl h

theorem hpEnd_push_delivers (s : State) : DeliversInOrder s ((hpEnd s).pushRxd .fin).completeRx :=
  .inr (.inl (congrArg (· ++ [Item.fin]) (hpEnd_effect s).2))

theorem giveBit_delivers (b : Bool) {s : State} (hop : s.rx.op = .rxframe) :
    DeliversInOrder s (giveBit emitByte b s) := by
  obtain ⟨-, h⟩ | ⟨-, h⟩ := giveBit_cases emitByte b s
  · have hemit : emitByte (shiftIn s.rx.dsShift b) (s.shifted b 0)
        = hpByte (shiftIn s.rx.dsShift b) (countByte (s.shifted b 0)) := by
      simp only [emitByte, State.shifted, hop]
    rw [h, hemit]
    exact hpByte_delivers _ _
  · rw [h]
    exact .inl rfl

theorem takeSample_delivers (num : Numerics Sample) (x : Sample) {s : State} (hop : s.rx.op = .rxframe) :
    DeliversInOrder s (takeSample num x s) := by
  unfold takeSample closeRxSlot
  dsimp only
  split
  · rw [if_neg (by simp [hop])]
    exact giveBit_delivers _ hop
  · exact .inl rfl

theorem sampleStep_delivers (num : Numerics Sample) {s : State} (hop : s.rx.op = .rxframe) :
    DeliversInOrder s (sampleStep num s) := by
  unfold sampleStep
  split
  · exact .inl rfl
  · simp only [endOfSamples, hop]
    exact hpEnd_push_delivers _
  · split
    · exact .inl rfl
    · exact takeSample_delivers num _ hop

theorem hparseStep_delivers (s : State) : DeliversInOrder s (hparseStep s) := by
  unfold hparseStep
  split
  · exact .inl rfl
  · exact hpEnd_push_delivers _
  · unfold parseByte
    split
    · exact .inl rfl
    · exact hpByte_delivers _ _

theorem usesParser_iff (op : RxOp) : op.usesParser = true ↔ op = .rxframe ∨ op = .hparse := by
  cases op <;> decide

/-- Settles O30: a byte goes through `hp_byte`, which delivers it in `H_PAYLOAD` only, and the end of the input pushes `END`. -/
theorem noPayloadBeforeTheHeaderIsAccepted : Obligations.NoPayloadBeforeTheHeaderIsAccepted := by
  intro num s hparses
  obtain hop | hop := (usesParser_iff _).mp hparses
  · rw [rxStep_samples (by rw [hop]; rfl)]
    exact sampleStep_delivers num hop
  · obtain ⟨h, -⟩ | ⟨h, -⟩ | ⟨h, -⟩ | ⟨-, h⟩ := rxStep_cases num s
    · simp [hop] at h
    · simp [hop] at h
    · simp [hop, RxOp.usesCfg] at h
    · rw [h]
      exact hparseStep_delivers s

/-! ### The results of the parser -/

/-- From `s` to `t` the results of the last header stay. -/
def HeaderKept (s t : State) : Prop :=
  t.hp.hdrLen = s.hp.hdrLen ∧ t.hp.method = s.hp.method

theorem emitByte_headerKept (b : Byte) {s : State} (hop : s.rx.op.usesParser = false) : HeaderKept s (emitByte b s) := by
  unfold emitByte
  cases h : s.rx.op with
  | rxframe => simp [h, RxOp.usesParser] at hop
  | _ => exact ⟨rfl, rfl⟩

theorem giveBit_headerKept (b : Bool) {s : State} (hop : s.rx.op.usesParser = false) :
    HeaderKept s (giveBit emitByte b s) := by
  obtain ⟨-, h⟩ | ⟨-, h⟩ := giveBit_cases emitByte b s
  · rw [h]
    exact emitByte_headerKept (s := s.shifted b 0) _ hop
  · rw [h]
    exact ⟨rfl, rfl⟩

theorem takeSample_headerKept (num : Numerics Sample) (x : Sample) {s : State} (hop : s.rx.op.usesParser = false) :
    HeaderKept s (takeSample num x s) := by
  unfold takeSample closeRxSlot
  dsimp only
  split
  · split <;> exact giveBit_headerKept (s := { s with rx := _ }) _ hop
  · exact ⟨rfl, rfl⟩

theorem endOfSamples_headerKept {s : State} (hop : s.rx.op.usesParser = false) : HeaderKept s (endOfSamples s) := by
  unfold endOfSamples
  cases h : s.rx.op with
  | rxframe => simp [h, RxOp.usesParser] at hop
  | _ => exact ⟨rfl, rfl⟩

theorem rxStep_headerKept (num : Numerics Sample) {s : State} (hop : s.rx.op.usesParser = false) :
    HeaderKept s (rxStep num s) := by
  obtain ⟨-, h⟩ | ⟨-, h⟩ | ⟨-, h⟩ | ⟨h, -⟩ := rxStep_cases num s
  · rw [h]
    exact ⟨rfl, rfl⟩
  · rw [h]
    exact ⟨rfl, rfl⟩
  · rw [h, sampleStep]
    split
    · exact ⟨rfl, rfl⟩
    · exact endOfSamples_headerKept (s := { s with rxs := _, rx := _ }) hop
    · split
      · exact ⟨rfl, rfl⟩
      · exact takeSample_headerKept (s := { s with rxs := _ }) num _ hop
  · simp [h, RxOp.usesParser] at hop

/-- Of the commands, those that parse clear the results at their acceptance, and no other writes them (R184, R188). -/
theorem acceptance_header (i : Instr) (s : State) :
    HeaderKept s (acceptance i s)
      ∨ ((i = .rxframe ∨ i = .hparse) ∧ (acceptance i s).hp.hdrLen = 0#32 ∧ (acceptance i s).hp.method = none
          ∧ (acceptance i s).rx.op.usesParser = true) := by
  cases i with
  | rxframe => exact .inr ⟨.inl rfl, rfl, rfl, rfl⟩
  | hparse => exact .inr ⟨.inr rfl, rfl, rfl, rfl⟩
  | _ => exact .inl ⟨rfl, rfl⟩

/-- Settles O31: outside a command that parses only its acceptance and a reset write the results. -/
theorem headerResultsChangeOnlyByParsing : Obligations.HeaderResultsChangeOnlyByParsing := by
  intro s t hstep hop
  obtain ⟨s', hturn, rfl⟩ | ⟨s', hturn, rfl⟩ | ⟨-, -, hhp, -⟩ | ⟨line, v, htakes, hline⟩ := step_effect hstep
  · obtain ⟨-, -, hhp, -⟩ := hturn.kept
    rw [txStep_frame openNumerics s', ← hhp]
    exact .inl ⟨rfl, rfl⟩
  · obtain ⟨-, hrx, hhp, -⟩ := hturn.kept
    rw [← hhp]
    exact .inl (rxStep_headerKept openNumerics (hrx ▸ hop))
  · rw [hhp]
    exact .inl ⟨rfl, rfl⟩
  · obtain ⟨-, -, hhp, -⟩ := htakes.kept
    rw [← hhp]
    obtain ⟨hline, rfl⟩ | ⟨-, rfl⟩ | ⟨c, info, -, rfl⟩ | ⟨i, rfl, -, rfl⟩ := hline
    · exact .inr ⟨line, htakes.hostNext, .inr ⟨hline, rfl, rfl⟩⟩
    · exact .inl ⟨rfl, rfl⟩
    · exact .inl (by simp)
    · obtain hkept | ⟨hi, hcleared⟩ := acceptance_header i v
      · exact .inl hkept
      · refine .inr ⟨_, htakes.hostNext, .inl ⟨?_, hcleared⟩⟩
        obtain rfl | rfl := hi
        · exact .inl rfl
        · exact .inr rfl

end Sys2Proof.Machine

/-! PROOF. The engines do not interfere: each step reads and writes its own engine's part of the state only, so steps of the
two engines, register writes and marker writes commute with each other (R76, R78). -/

namespace Sys2Proof.Machine

/-- A choice commutes with a change of the state that each branch commutes with. -/
theorem ite_commutes {f : State → State} {c : Prop} [Decidable c] {s t s' t' : State} (h : c → s' = f s)
    (h' : ¬c → t' = f t) : (if c then s' else t') = f (if c then s else t) := by
  by_cases hc : c
  · rw [if_pos hc, if_pos hc, h hc]
  · rw [if_neg hc, if_neg hc, h' hc]

/-! ### A step of TX depends on TX alone -/

/-- The state `o` with the part that `TX` owns taken from `s`. -/
def State.txInto (o s : State) : State :=
  { o with tx := s.tx, txd := s.txd, txs := s.txs }

@[simp] theorem State.txInto_tx (o s : State) : (o.txInto s).tx = s.tx := rfl
@[simp] theorem State.txInto_txd (o s : State) : (o.txInto s).txd = s.txd := rfl

theorem fetchStep_txInto (o s : State) : fetchStep (o.txInto s) = o.txInto (fetchStep s) := by
  refine ite_commutes (fun _ => rfl) fun _ => ite_commutes (fun _ => rfl) fun _ => ?_
  rw [State.txInto_tx, State.txInto_txd]
  cases s.tx.hdr with
  | cons b rest => rfl
  | nil =>
    cases s.txd with
    | nil => rfl
    | cons x rest => cases x <;> rfl

theorem slotStep_txInto (num : Numerics Sample) (o s : State) :
    slotStep num (o.txInto s) = o.txInto (slotStep num s) := by
  unfold slotStep
  rw [State.txInto_tx]
  cases s.tx.seg with
  | tone => exact ite_commutes (fun _ => rfl) fun _ => rfl
  | silence => exact ite_commutes (fun _ => rfl) fun _ => rfl
  | fetch => exact fetchStep_txInto o s

/-- A step of `TX` reads nothing but what `TX` owns (R78). -/
theorem txStep_txInto (num : Numerics Sample) (o s : State) : txStep num (o.txInto s) = o.txInto (txStep num s) := by
  unfold txStep
  rw [State.txInto_tx]
  cases s.tx.op with
  | idle | txend => rfl
  | tone | sil => exact ite_commutes (fun _ => rfl) fun _ => rfl
  | txbit | txbyte | txraw | txframe => exact slotStep_txInto num o s

/-- A step of `TX` in any state that has the same part of `TX`. -/
theorem txStep_of_same_tx (num : Numerics Sample) {s o : State} (htx : o.tx = s.tx) (htxd : o.txd = s.txd)
    (htxs : o.txs = s.txs) : txStep num o = o.txInto (txStep num s) := by
  have ho : o = o.txInto s := by rw [State.txInto, ← htx, ← htxd, ← htxs]
  rw [ho, txStep_txInto]
  rfl

/-! ### A step of RX depends on RX alone -/

/-- The state `o` with the part that `RX` and `HP` own taken from `s`. -/
def State.rxInto (o s : State) : State :=
  { o with rx := s.rx, hp := s.hp, rxs := s.rxs, rxd := s.rxd, rxb := s.rxb, err := s.err, errInfo := s.errInfo }

@[simp] theorem State.rxInto_rx (o s : State) : (o.rxInto s).rx = s.rx := rfl
@[simp] theorem State.rxInto_hp (o s : State) : (o.rxInto s).hp = s.hp := rfl
@[simp] theorem State.rxInto_rxs (o s : State) : (o.rxInto s).rxs = s.rxs := rfl
@[simp] theorem State.rxInto_rxb (o s : State) : (o.rxInto s).rxb = s.rxb := rfl

theorem raise_rxInto (c : Cause) (info : Nat) (o s : State) :
    (o.rxInto s).raise c info = o.rxInto (s.raise c info) :=
  ite_commutes (fun _ => rfl) fun _ => rfl

theorem failHeader_rxInto (c : Cause) (o s : State) : failHeader c (o.rxInto s) = o.rxInto (failHeader c s) :=
  raise_rxInto _ _ o { s with hp := { s.hp with state := .fail }, rx := { s.rx with fail := true } }

theorem nameDone_rxInto (o s : State) : nameDone (o.rxInto s) = o.rxInto (nameDone s) := by
  refine ite_commutes (fun _ => failHeader_rxInto _ _ _) fun _ => ?_
  rw [State.rxInto_hp]
  cases s.hp.recognised with
  | some t => rfl
  | none => exact failHeader_rxInto _ _ _

theorem hpByte_rxInto (b : Byte) (o s : State) : hpByte b (o.rxInto s) = o.rxInto (hpByte b s) := by
  unfold hpByte
  rw [State.rxInto_hp]
  cases s.hp.state with
  | len =>
    exact ite_commutes (fun _ => ite_commutes (fun _ => nameDone_rxInto o { s with hp := _ }) fun _ => rfl) fun _ => rfl
  | name => exact ite_commutes (fun _ => nameDone_rxInto o { s with hp := _ }) fun _ => rfl
  | payload | fail | off => rfl

theorem hpEnd_rxInto (o s : State) : hpEnd (o.rxInto s) = o.rxInto (hpEnd s) :=
  ite_commutes (fun _ => raise_rxInto _ _ o { s with hp := { s.hp with state := .fail } }) fun _ => rfl

theorem emitByte_rxInto (b : Byte) (o s : State) : emitByte b (o.rxInto s) = o.rxInto (emitByte b s) := by
  unfold emitByte
  rw [State.rxInto_rx]
  cases s.rx.op with
  | rxframe => exact hpByte_rxInto b o (countByte s)
  | rxslot | rxraw | idle | rxflush | hparse => rfl

theorem giveBit_rxInto (b : Bool) (o s : State) :
    giveBit emitByte b (o.rxInto s) = o.rxInto (giveBit emitByte b s) :=
  ite_commutes (fun _ => emitByte_rxInto _ o { s with rx := _ }) fun _ => rfl

theorem closeRxSlot_rxInto (num : Numerics Sample) (o s : State) :
    closeRxSlot num (o.rxInto s) = o.rxInto (closeRxSlot num s) := by
  have h := giveBit_rxInto (s.rx.cfg.classify num (s.rx.buf.take s.rx.cfg.nTone)) o
    { s with rx := { s.rx with pos := s.rx.pos + 1#32, k := 0 } }
  exact ite_commutes (fun _ => congrArg State.completeRx h) fun _ => h

theorem takeSample_rxInto (num : Numerics Sample) (x : Sample) (o s : State) :
    takeSample num x (o.rxInto s) = o.rxInto (takeSample num x s) :=
  ite_commutes (fun _ => closeRxSlot_rxInto num o { s with rx := _ }) fun _ => rfl

theorem endOfSamples_rxInto (o s : State) : endOfSamples (o.rxInto s) = o.rxInto (endOfSamples s) := by
  unfold endOfSamples
  rw [State.rxInto_rx]
  cases s.rx.op with
  | rxframe => exact congrArg (fun t => (t.pushRxd .fin).completeRx) (hpEnd_rxInto o s.dropBits)
  | rxslot | rxraw | idle | rxflush | hparse => rfl

theorem sampleStep_rxInto (num : Numerics Sample) (o s : State) :
    sampleStep num (o.rxInto s) = o.rxInto (sampleStep num s) := by
  unfold sampleStep
  rw [State.rxInto_rxs]
  cases s.rxs with
  | nil => rfl
  | cons x rest =>
    cases x with
    | fin => exact endOfSamples_rxInto o { s with rxs := rest, rx := _ }
    | data a => exact ite_commutes (fun _ => rfl) fun _ => takeSample_rxInto num a o { s with rxs := rest }

theorem hparseStep_rxInto (o s : State) : hparseStep (o.rxInto s) = o.rxInto (hparseStep s) := by
  unfold hparseStep
  rw [State.rxInto_rxb]
  cases s.rxb with
  | nil => rfl
  | cons x rest =>
    cases x with
    | fin =>
      exact congrArg (fun t => (t.pushRxd .fin).completeRx)
        (hpEnd_rxInto o { s with rxb := rest, rx := { s.rx with eos := true } })
    | data b => exact ite_commutes (fun _ => rfl) fun _ => hpByte_rxInto b o (countByte { s with rxb := rest })

/-- A step of `RX` reads nothing but what `RX` and `HP` own (R78). -/
theorem rxStep_rxInto (num : Numerics Sample) (o s : State) : rxStep num (o.rxInto s) = o.rxInto (rxStep num s) := by
  unfold rxStep
  rw [State.rxInto_rx]
  cases s.rx.op with
  | idle | rxflush => rfl
  | rxslot | rxraw | rxframe => exact sampleStep_rxInto num o s
  | hparse => exact hparseStep_rxInto o s

/-- A step of `RX` in any state that has the same part of `RX`. -/
theorem rxStep_of_same_rx (num : Numerics Sample) {s o : State} (h : o = o.rxInto s) :
    rxStep num o = o.rxInto (rxStep num s) := by
  rw [h, rxStep_rxInto]
  rfl

/-! ### Steps that commute -/

/-- Settles O52: each step writes its own part, and reads nothing of the other's. -/
theorem engineStepsCommute : Obligations.EngineStepsCommute := by
  intro num s
  have htx : TxFrame s (txStep num s) := txStep_frame num s
  have hrx : RxFrame s (rxStep num s) := rxStep_frame num s
  calc txStep num (rxStep num s)
      = (rxStep num s).txInto (txStep num s) := txStep_of_same_tx num (by rw [hrx]) (by rw [hrx]) (by rw [hrx])
    _ = (txStep num s).rxInto (rxStep num s) := by rw [hrx, htx]; rfl
    _ = rxStep num (txStep num s) := (rxStep_of_same_rx num (by rw [htx]; rfl)).symm

/-- A register write other than to `CMD` touches the configuration registers and the markers only (R205). -/
theorem writeReg_eq (s : State) (v : Word) (r : Reg) : s.writeReg v r =
    { s with cfg := (s.writeReg v r).cfg, startMarker := (s.writeReg v r).startMarker,
             endMarker := (s.writeReg v r).endMarker } := by
  cases r <;> rfl

/-- What a register write stores does not depend on the engines. -/
theorem writeReg_txInto (o s : State) (v : Word) (r : Reg) : (o.txInto s).writeReg v r = (o.writeReg v r).txInto s := by
  cases r <;> rfl

theorem writeReg_rxInto (o s : State) (v : Word) (r : Reg) : (o.rxInto s).writeReg v r = (o.writeReg v r).rxInto s := by
  cases r <;> rfl

theorem txStep_writeReg (num : Numerics Sample) (s : State) (v : Word) (r : Reg) :
    txStep num (s.writeReg v r) = (txStep num s).writeReg v r := by
  have hframe : txStep num s = s.txInto (txStep num s) := txStep_frame num s
  rw [txStep_of_same_tx num (s := s) (by rw [writeReg_eq]) (by rw [writeReg_eq]) (by rw [writeReg_eq]),
    ← writeReg_txInto, ← hframe]

theorem rxStep_writeReg (num : Numerics Sample) (s : State) (v : Word) (r : Reg) :
    rxStep num (s.writeReg v r) = (rxStep num s).writeReg v r := by
  have hframe : rxStep num s = s.rxInto (rxStep num s) := rxStep_frame num s
  rw [rxStep_of_same_rx num (s := s) (by rw [writeReg_eq]; rfl), ← writeReg_rxInto, ← hframe]

/-! ### Markers -/

theorem raise_withMarkers (c : Cause) (info : Nat) (s : State) (a b : Byte) :
    (s.withMarkers a b).raise c info = (s.raise c info).withMarkers a b :=
  ite_commutes (f := (State.withMarkers · a b)) (fun _ => rfl) fun _ => rfl

theorem acceptance_withMarkers (i : Instr) (s : State) (a b : Byte) :
    acceptance i (s.withMarkers a b) = (acceptance i s).withMarkers a b := by
  cases i <;> rfl

theorem issueCommand_withMarkers (i : Instr) (s : State) (a b : Byte) :
    issueCommand i (acceptance i) (s.withMarkers a b) = (issueCommand i (acceptance i) s).withMarkers a b :=
  ite_commutes (f := (State.withMarkers · a b)) (fun _ => rfl) fun _ =>
    ite_commutes (f := (State.withMarkers · a b)) (fun _ => raise_withMarkers _ _ _ _ _) fun _ =>
      ite_commutes (f := (State.withMarkers · a b)) (fun _ => raise_withMarkers _ _ _ _ _) fun _ =>
        acceptance_withMarkers i s a b

/-- A command changes no marker, unless it is `RESET`. -/
theorem exec_markers {i : Instr} (hi : i ≠ .reset) {s t : State} (h : exec i s = .next t) :
    t.startMarker = s.startMarker ∧ t.endMarker = s.endMarker := by
  obtain ⟨hreset, -⟩ | ⟨-, rfl⟩ | rfl | ⟨c, info, -, rfl⟩ | ⟨haccepts, rfl⟩ := exec_cases h
  · exact absurd hreset hi
  · exact ⟨rfl, rfl⟩
  · exact ⟨rfl, rfl⟩
  · simp
  · obtain htx | hrx := haccepts.tx_or_rx
    · rw [(acceptance_tx htx s).1]
      exact ⟨rfl, rfl⟩
    · rw [(acceptance_rx hrx s).1]
      exact ⟨rfl, rfl⟩

/-- A command other than `RESET` does the same whatever the markers are. -/
theorem exec_withMarkers {i : Instr} (hi : i ≠ .reset) (s : State) (a b : Byte) :
    ∃ t, exec i s = .next t ∧ exec i (s.withMarkers a b) = .next (t.withMarkers a b) := by
  by_cases hsys : i.commandClass = .sys
  · cases i with
    | nop | clrerr => exact ⟨_, rfl, rfl⟩
    | reset => exact absurd rfl hi
    | _ => cases hsys
  · exact ⟨_, exec_eq_acceptance hsys s, by rw [exec_eq_acceptance hsys, issueCommand_withMarkers]⟩

/-- Settles O53: no engine reads the registers and the markers, and no command but `RESET` the markers. -/
theorem configurationWritesDoNotReachRunningCommands : Obligations.ConfigurationWritesDoNotReachRunningCommands := by
  refine ⟨fun num s v r _ => ⟨txStep_writeReg num s v r, rxStep_writeReg num s v r⟩, fun i s a b hi => ?_⟩
  obtain ⟨t, ht, htm⟩ := exec_withMarkers hi s a b
  exact ⟨t, ht, htm, exec_markers hi ht⟩

end Sys2Proof.Machine

/-! PROOF. What an engine's step moves on the streams (R63, R78), and what a finite depth holds (R64). -/

namespace Sys2Proof.Machine

/-! ### One item a step -/

/-- From `s` to `t` at most the head of `TXD` is popped and at most one item is pushed to `TXS`. -/
def TxMoves (s t : State) : Prop :=
  (t.txd = s.txd ∨ t.txd = s.txd.tail) ∧ ∃ pushed : List (Item Sample), pushed.length ≤ 1 ∧ t.txs = s.txs ++ pushed

theorem TxMoves.of_kept {s t : State} (htxd : t.txd = s.txd) (htxs : t.txs = s.txs) : TxMoves s t :=
  ⟨.inl htxd, [], by simp, by simp [htxs]⟩

theorem TxMoves.of_push {s t : State} (htxd : t.txd = s.txd) {x : Item Sample} (htxs : t.txs = s.txs ++ [x]) :
    TxMoves s t :=
  ⟨.inl htxd, [x], by simp, htxs⟩

theorem fetchStep_moves (s : State) : TxMoves s (fetchStep s) := by
  unfold fetchStep
  split
  · exact .of_kept rfl rfl
  · split
    · exact .of_kept rfl rfl
    · split
      · exact .of_kept rfl rfl
      · split
        · exact .of_kept rfl rfl
        · rename_i rest h
          exact ⟨.inr (by rw [h]; rfl), [.fin], by simp, rfl⟩
        · rename_i b rest h
          exact ⟨.inr (by rw [h]; rfl), [], by simp, by simp⟩

theorem txStep_moves (num : Numerics Sample) (s : State) : TxMoves s (txStep num s) := by
  unfold txStep toneStep silStep slotStep
  split
  · exact .of_kept rfl rfl
  · split
    · exact .of_push rfl rfl
    · exact .of_kept rfl rfl
  · split
    · exact .of_push rfl rfl
    · exact .of_kept rfl rfl
  · exact .of_push rfl rfl
  all_goals
    split
    · split
      · exact .of_push rfl rfl
      · exact .of_kept rfl rfl
    · split
      · exact .of_push rfl rfl
      · exact .of_kept rfl rfl
    · exact fetchStep_moves s

/-- From `s` to `t` at most the head of each input stream of `RX` is popped and at most one item is pushed to `RXD`. -/
def RxMoves (s t : State) : Prop :=
  (t.rxs = s.rxs ∨ t.rxs = s.rxs.tail) ∧ (t.rxb = s.rxb ∨ t.rxb = s.rxb.tail)
    ∧ ∃ pushed : List (Item Byte), pushed.length ≤ 1 ∧ t.rxd = s.rxd ++ pushed

theorem rxStep_moves (num : Numerics Sample) (s : State) : RxMoves s (rxStep num s) := by
  obtain ⟨-, hrxd, hrxs, hrxb⟩ | ⟨-, hrxd, hrxs, hrxb⟩ | ⟨-, hrxd, hrxs, hrxb⟩ := rxStep_effect num s
  · exact ⟨.inl hrxs, .inl hrxb, hrxd⟩
  · exact ⟨.inr hrxs, .inl hrxb, hrxd⟩
  · exact ⟨.inl hrxs, .inr hrxb, hrxd⟩

/-- Settles O51: the frames of the two steps, and what each moves. -/
theorem enginesTouchOnlyTheirOwn : Obligations.EnginesTouchOnlyTheirOwn := by
  intro num s
  obtain ⟨htxd, htxs⟩ := txStep_moves num s
  obtain ⟨hrxs, hrxb, hrxd⟩ := rxStep_moves num s
  exact ⟨txStep_frame num s, rxStep_frame num s, htxd, htxs, hrxs, hrxb, hrxd⟩

/-! ### Finite depths -/

theorem roomFor_iff (d : Option Nat) (before after : Nat) :
    roomFor d before after = true ↔ after ≤ before ∨ ∀ n, d = some n → after ≤ n := by
  cases d <;> simp [roomFor]

theorem roomFor_of_le {d : Option Nat} {before after : Nat} (h : after ≤ before) : roomFor d before after = true :=
  (roomFor_iff d before after).mpr (.inl h)

theorem length_le_of_popped {α : Type} {before after : List α} (h : after = before ∨ after = before.tail) :
    after.length ≤ before.length := by
  obtain rfl | rfl := h
  · exact le_rfl
  · simp

/-- Of a step of `TX` only the push to `TXS` can find a full stream. -/
theorem fits_txStep (depth : StreamName → Option Nat) (num : Numerics Sample) (s : State) :
    fits depth s (txStep num s) = roomFor (depth .txs) s.txs.length (txStep num s).txs.length := by
  have hframe : TxFrame s (txStep num s) := txStep_frame num s
  have hrxs : (txStep num s).rxs = s.rxs := by rw [hframe]
  have hrxd : (txStep num s).rxd = s.rxd := by rw [hframe]
  have hrxb : (txStep num s).rxb = s.rxb := by rw [hframe]
  have htxd := length_le_of_popped (txStep_moves num s).1
  simp [fits, hrxs, hrxd, hrxb, roomFor_of_le htxd, roomFor_of_le le_rfl]

/-- Of a step of `RX` only the push to `RXD` can find a full stream. -/
theorem fits_rxStep (depth : StreamName → Option Nat) (num : Numerics Sample) (s : State) :
    fits depth s (rxStep num s) = roomFor (depth .rxd) s.rxd.length (rxStep num s).rxd.length := by
  have hframe : RxFrame s (rxStep num s) := rxStep_frame num s
  have htxd : (rxStep num s).txd = s.txd := by rw [hframe]
  have htxs : (rxStep num s).txs = s.txs := by rw [hframe]
  obtain ⟨hrxs, hrxb, -⟩ := rxStep_moves num s
  simp [fits, htxd, htxs, roomFor_of_le (length_le_of_popped hrxs), roomFor_of_le (length_le_of_popped hrxb),
    roomFor_of_le le_rfl]

/-- A turn whose only push goes to one stream, of depth `d`, with `before` and `after` items before and after the push: it is
the whole step, or it is held because the stream is full. -/
theorem heldOr_cases {depth : StreamName → Option Nat} {s s' : State} {d : Option Nat} {before after : Nat}
    (hfits : fits depth s s' = roomFor d before after) (hpush : after ≤ before + 1) :
    (heldOr depth s s' = s' ∧ (after ≤ before ∨ ∀ n, d = some n → after ≤ n))
      ∨ (heldOr depth s s' = s ∧ before < after ∧ ∃ n, d = some n ∧ n ≤ before) := by
  unfold heldOr
  rw [hfits]
  by_cases h : roomFor d before after = true
  · exact .inl ⟨if_pos h, (roomFor_iff ..).mp h⟩
  · rw [if_neg h]
    rw [roomFor_iff] at h
    push Not at h
    obtain ⟨hgrows, n, hn, hfull⟩ := h
    exact .inr ⟨rfl, hgrows, n, hn, by omega⟩

theorem length_le_succ_of_pushed {α : Type} {before after : List α}
    (h : ∃ pushed : List α, pushed.length ≤ 1 ∧ after = before ++ pushed) : after.length ≤ before.length + 1 := by
  obtain ⟨pushed, hone, rfl⟩ := h
  rw [List.length_append]
  omega

/-- An engine's turn under finite depths, said of one output stream: `before`, `after` and `turn` are its lengths in `s`, after
the step and after the turn. -/
theorem turn_holds_only_when_full {s u v : State} {d : Option Nat} {before after turn : Nat}
    (hturn : (u = v ∧ turn = after ∧ (after ≤ before ∨ ∀ n, d = some n → after ≤ n))
      ∨ (u = s ∧ turn = before ∧ before < after ∧ ∃ n, d = some n ∧ n ≤ before)) :
    (u = v ∨ (u = s ∧ before < after ∧ ∃ n, d = some n ∧ n ≤ before))
      ∧ (∀ n, d = some n → n ≤ before → before < after → u = s)
      ∧ ∀ n, d = some n → turn ≤ max n before := by
  obtain ⟨hu, rfl, hroom⟩ | ⟨hu, rfl, hgrows, hfull⟩ := hturn
  · refine ⟨.inl hu, fun n hn hle hlt => ?_, fun n hn => ?_⟩
    · have hafter := hroom.resolve_left (by omega) n hn
      omega
    · obtain hle | hle := hroom
      · exact le_max_of_le_right hle
      · exact le_max_of_le_left (hle n hn)
  · exact ⟨.inr ⟨hu, hgrows, hfull⟩, fun _ _ _ _ => hu, fun n _ => le_max_right n _⟩

theorem txTurn_holds (p : Params) (s : State) :
    (txTurn p s = txStep p.num s
      ∨ (txTurn p s = s ∧ s.txs.length < (txStep p.num s).txs.length ∧ ∃ n, p.depth .txs = some n ∧ n ≤ s.txs.length))
    ∧ (∀ n, p.depth .txs = some n → n ≤ s.txs.length → s.txs.length < (txStep p.num s).txs.length → txTurn p s = s)
    ∧ ∀ n, p.depth .txs = some n → (txTurn p s).txs.length ≤ max n s.txs.length := by
  refine turn_holds_only_when_full ?_
  unfold txTurn
  obtain ⟨h, hroom⟩ | ⟨h, hheld⟩ :=
    heldOr_cases (fits_txStep p.depth p.num s) (length_le_succ_of_pushed (txStep_moves p.num s).2)
  · exact .inl ⟨h, by rw [h], hroom⟩
  · exact .inr ⟨h, by rw [h], hheld⟩

theorem rxTurn_holds (p : Params) (s : State) :
    (rxTurn p s = rxStep p.num s
      ∨ (rxTurn p s = s ∧ s.rxd.length < (rxStep p.num s).rxd.length ∧ ∃ n, p.depth .rxd = some n ∧ n ≤ s.rxd.length))
    ∧ (∀ n, p.depth .rxd = some n → n ≤ s.rxd.length → s.rxd.length < (rxStep p.num s).rxd.length → rxTurn p s = s)
    ∧ ∀ n, p.depth .rxd = some n → (rxTurn p s).rxd.length ≤ max n s.rxd.length := by
  refine turn_holds_only_when_full ?_
  unfold rxTurn
  obtain ⟨h, hroom⟩ | ⟨h, hheld⟩ :=
    heldOr_cases (fits_rxStep p.depth p.num s) (length_le_succ_of_pushed (rxStep_moves p.num s).2.2)
  · exact .inl ⟨h, by rw [h], hroom⟩
  · exact .inr ⟨h, by rw [h], hheld⟩

/-! ### Pushes of the host -/

theorem fits_pushTxd (depth : StreamName → Option Nat) (x : Item Byte) (s : State) :
    fits depth s (s.pushTxd x) = true ↔ ∀ n, depth .txd = some n → s.txd.length < n := by
  simp [fits, roomFor_of_le le_rfl, roomFor_iff]

theorem fits_pushRxs (depth : StreamName → Option Nat) (a : Item Sample) (s : State) :
    fits depth s (s.pushRxs a) = true ↔ ∀ n, depth .rxs = some n → s.rxs.length < n := by
  simp [fits, roomFor_of_le le_rfl, roomFor_iff]

theorem fits_pushRxb (depth : StreamName → Option Nat) (x : Item Byte) (s : State) :
    fits depth s (s.pushRxb x) = true ↔ ∀ n, depth .rxb = some n → s.rxb.length < n := by
  simp [fits, roomFor_of_le le_rfl, roomFor_iff]

/-- A push of the host is taken exactly when its stream has room; else its line waits. -/
theorem push_or_wait {d : Option Nat} {len : Nat} {ok : Bool} (hok : ok = true ↔ ∀ n, d = some n → len < n)
    (held pushed : State) :
    (∀ n, d = some n → n ≤ len →
        (.next (if ok then pushed else held) : Host.Outcome State Fault Refusal) = .next held)
      ∧ ((∀ n, d = some n → len < n) →
        (.next (if ok then pushed else held) : Host.Outcome State Fault Refusal) = .next pushed) := by
  refine ⟨fun n hn hle => ?_, fun hroom => ?_⟩
  · rw [if_neg fun h => absurd (hok.mp h n hn) (by omega)]
  · rw [if_pos (hok.mpr hroom)]

/-- Settles O50: an engine's step pushes to its output stream only, and a host's push to one input stream only. -/
theorem finiteDepthOnlyAddsHolds : Obligations.FiniteDepthOnlyAddsHolds := by
  refine ⟨fun p s => ?_, fun depth held s x a => ?_⟩
  · obtain ⟨htx, htxFull, htxBound⟩ := txTurn_holds p s
    obtain ⟨hrx, hrxFull, hrxBound⟩ := rxTurn_holds p s
    exact ⟨rfl, rfl, htx, hrx, htxFull, hrxFull, htxBound, hrxBound⟩
  · obtain ⟨htxdWait, htxdPush⟩ := push_or_wait (fits_pushTxd depth x s) held (s.pushTxd x)
    obtain ⟨hrxsWait, hrxsPush⟩ := push_or_wait (fits_pushRxs depth a s) held (s.pushRxs a)
    obtain ⟨hrxbWait, hrxbPush⟩ := push_or_wait (fits_pushRxb depth x s) held (s.pushRxb x)
    exact ⟨htxdWait, hrxsWait, hrxbWait, htxdPush, hrxsPush, hrxbPush⟩

end Sys2Proof.Machine

/-! PROOF. The invariant of the transmit engine: a step of `TX` and the acceptance of its commands keep it (R30, R44, R149, R245). -/

namespace Sys2Proof.Machine

/-! ### Counts of a valid configuration -/

/-- An empty tone fails the check `NT0` (R31). -/
theorem cfgchk_ne_zero_of_nTone {c : Cfg} (h : c.nTone = 0) : cfgchk c ≠ 0#32 := by
  have hempty : (cfgchk c).getLsbD 6 = true := by
    simpa [cfgchk, flagBit_getElem] using h
  intro h0
  simp [h0] at hempty

theorem nTone_pos {c : Cfg} (hc : cfgchk c = 0#32) : 0 < c.nTone :=
  Nat.pos_of_ne_zero fun h => cfgchk_ne_zero_of_nTone h hc

theorem nSlot_pos {c : Cfg} (hc : cfgchk c = 0#32) : 0 < c.nSlot :=
  (nTone_pos hc).trans_le (nTone_le_nSlot c)

theorem nSlot_lt {c : Cfg} (hc : cfgchk c = 0#32) : c.nSlot < 2 ^ 32 :=
  not_le.mp fun h => cfgchk_ne_zero_of_nSlot h hc

/-! ### The transmit engine -/

theorem reset_txInv : TxInv .reset := by
  constructor <;> simp [TxState.reset, TxOp.usesCfg]

/-- A completed command leaves the sequencer at rest when no byte is left to serialise (R149). -/
theorem completeTx_inv {s : State} (hbits : s.tx.nbits = 0) (hhdr : s.tx.hdr = []) : TxInv s.completeTx.tx := by
  constructor <;> simp [hbits, hhdr, TxOp.usesCfg]

/-- Where the sequencer may stand in its segment (R44). -/
structure SegmentInv (t : TxState) : Prop where
  k_tone : t.seg = .tone → t.k ≤ t.cfg.nTone
  k_silence : t.seg = .silence → t.k ≤ t.cfg.nSil
  k_fetch : t.seg = .fetch → t.k = 0

/-- What is left to serialise (R44). -/
structure SerializerInv (t : TxState) : Prop where
  nbits_le : t.nbits ≤ 8
  hdr_le : t.hdr.length ≤ 8
  hdr_frame : t.hdr ≠ [] → t.op = .txframe

theorem TxInv.segment {t : TxState} (h : TxInv t) : SegmentInv t :=
  ⟨h.k_tone, h.k_silence, h.k_fetch⟩

/-- In a command that runs the slot sequencer the rest of the invariant is the same in every segment. -/
theorem txInv_of_slots {t : TxState} (hop : t.op.slots = true) (hbusy : t.busy = true)
    (hcfg : ∃ c : Cfg, cfgchk c = 0#32 ∧ t.cfg = TxCfg.of c) (hseg : SegmentInv t) (hser : SerializerInv t) :
    TxInv t where
  busy_iff := by
    rw [hbusy]
    exact ⟨fun _ h => (by rw [h] at hop; cases hop), fun _ => rfl⟩
  rest h := by rw [h] at hop; cases hop
  nbits_le := hser.nbits_le
  hdr_le := hser.hdr_le
  hdr_frame := hser.hdr_frame
  in_tone h := by rw [h] at hop; cases hop
  in_silence h := by rw [h] at hop; cases hop
  in_end h := by rw [h] at hop; cases hop
  snapshot _ := hcfg
  k_tone := hseg.k_tone
  k_silence := hseg.k_silence
  k_fetch := hseg.k_fetch

/-- A command that runs the slot sequencer is busy on a snapshot of a valid configuration. -/
theorem TxInv.of_slots {t : TxState} (h : TxInv t) (hop : t.op.slots = true) :
    t.busy = true ∧ ∃ c : Cfg, cfgchk c = 0#32 ∧ t.cfg = TxCfg.of c := by
  refine ⟨h.busy_iff.mpr fun h0 => ?_, h.snapshot ?_⟩
  · rw [h0] at hop
    cases hop
  · cases hop' : t.op with
    | idle | tone | sil | txend => rw [hop'] at hop; cases hop
    | _ => rfl

/-- Where no byte is sent from a header, none waits. -/
theorem TxInv.hdr_nil {t : TxState} (h : TxInv t) (hop : t.op ≠ .txframe) : t.hdr = [] :=
  by_contra fun hne => hop (h.hdr_frame hne)

theorem toneStep_inv (num : Numerics Sample) {s : State} (h : TxInv s.tx) (hop : s.tx.op = .tone) :
    TxInv (toneStep num s).tx := by
  obtain ⟨hseg, hbits⟩ := h.in_tone hop
  unfold toneStep
  split
  · rename_i hk
    exact { h with
      k_tone := fun _ => hk
      k_silence := fun h' => by rw [State.emitTone_tx_seg, hseg] at h'; cases h'
      k_fetch := fun h' => by rw [State.emitTone_tx_seg, hseg] at h'; cases h' }
  · exact completeTx_inv hbits (h.hdr_nil (by simp [hop]))

theorem silStep_inv (num : Numerics Sample) {s : State} (h : TxInv s.tx) (hop : s.tx.op = .sil) :
    TxInv (silStep num s).tx := by
  obtain ⟨hseg, hbits⟩ := h.in_silence hop
  unfold silStep
  split
  · rename_i hk
    exact { h with
      k_tone := fun h' => by rw [State.emitZero_tx_seg, hseg] at h'; cases h'
      k_silence := fun _ => hk
      k_fetch := fun h' => by rw [State.emitZero_tx_seg, hseg] at h'; cases h' }
  · exact completeTx_inv hbits (h.hdr_nil (by simp [hop]))

theorem fetchStep_inv {s : State} (h : TxInv s.tx) (hop : s.tx.op.slots = true) : TxInv (fetchStep s).tx := by
  obtain ⟨hbusy, hcfg⟩ := h.of_slots hop
  have hfetch : SegmentInv s.tx := h.segment
  unfold fetchStep
  split
  · refine txInv_of_slots hop hbusy hcfg ⟨fun _ => Nat.zero_le _, nofun, nofun⟩
      ⟨?_, h.hdr_le, h.hdr_frame⟩
    have hle := h.nbits_le
    simp
    omega
  · rename_i hbits
    have hbits : s.tx.nbits = 0 := by omega
    split
    · rename_i hsingle
      exact completeTx_inv hbits (h.hdr_nil (by rintro h'; simp [h'] at hsingle))
    · split
      · rename_i b rest hhdr
        have hframe : s.tx.op = .txframe := h.hdr_frame (by simp [hhdr])
        have hlen := h.hdr_le
        rw [hhdr, List.length_cons] at hlen
        exact txInv_of_slots hop hbusy hcfg ⟨hfetch.k_tone, hfetch.k_silence, hfetch.k_fetch⟩
          ⟨le_rfl, by simp; omega, fun _ => hframe⟩
      · rename_i hhdr
        split
        · exact h
        · exact completeTx_inv hbits hhdr
        · exact txInv_of_slots hop hbusy hcfg ⟨hfetch.k_tone, hfetch.k_silence, hfetch.k_fetch⟩
            ⟨le_rfl, h.hdr_le, h.hdr_frame⟩

theorem slotStep_inv (num : Numerics Sample) {s : State} (h : TxInv s.tx) (hop : s.tx.op.slots = true) :
    TxInv (slotStep num s).tx := by
  obtain ⟨hbusy, hcfg⟩ := h.of_slots hop
  unfold slotStep
  split
  · rename_i hseg
    split
    · rename_i hk
      exact txInv_of_slots hop hbusy hcfg ⟨fun _ => hk, fun h' => by simp [hseg] at h', fun h' => by simp [hseg] at h'⟩
        ⟨h.nbits_le, h.hdr_le, h.hdr_frame⟩
    · exact txInv_of_slots hop hbusy hcfg ⟨fun h' => by simp at h', fun _ => Nat.zero_le _, fun h' => by simp at h'⟩
        ⟨h.nbits_le, h.hdr_le, h.hdr_frame⟩
  · rename_i hseg
    split
    · rename_i hk
      exact txInv_of_slots hop hbusy hcfg ⟨fun h' => by simp [hseg] at h', fun _ => hk, fun h' => by simp [hseg] at h'⟩
        ⟨h.nbits_le, h.hdr_le, h.hdr_frame⟩
    · exact txInv_of_slots hop hbusy hcfg ⟨fun h' => by simp at h', fun h' => by simp at h', fun _ => rfl⟩
        ⟨h.nbits_le, h.hdr_le, h.hdr_frame⟩
  · exact fetchStep_inv h hop

/-- A step of `TX` keeps the invariant of `TX`. -/
theorem txStep_inv (num : Numerics Sample) {s : State} (h : TxInv s.tx) : TxInv (txStep num s).tx := by
  cases hop : s.tx.op with
  | idle =>
    rw [txStep_idle hop]
    exact h
  | tone =>
    simp only [txStep, hop]
    exact toneStep_inv num h hop
  | sil =>
    simp only [txStep, hop]
    exact silStep_inv num h hop
  | txend =>
    simp only [txStep, hop]
    exact completeTx_inv (h.in_end hop).2 (h.hdr_nil (by simp [hop]))
  | txbit | txbyte | txraw | txframe =>
    have hslots : s.tx.op.slots = true := by rw [hop]; rfl
    rw [txStep_slots hslots]
    exact slotStep_inv num h hslots

/-- The acceptance of a command of `TX` puts the sequencer inside its segment, on a snapshot of the live configuration. -/
theorem acceptance_txInv {i : Instr} {s : State} (h : s.Accepts i) (htx : i.commandClass = .tx) :
    TxInv (acceptance i s).tx := by
  have hvalid := h.valid
  cases i with
  | nop | clrerr | reset | rxslot | rxflush | rxraw | rxframe | hparse => cases htx
  | tone | sil =>
    have hcfg := hvalid rfl
    constructor <;> simp [acceptance, TxOp.usesCfg]
    exact ⟨_, hcfg, rfl⟩
  | txend => constructor <;> simp [acceptance, TxOp.usesCfg]
  | txbit | txbyte | txraw =>
    exact txInv_of_slots rfl rfl ⟨_, hvalid rfl, rfl⟩ ⟨fun _ => Nat.zero_le _, fun _ => Nat.zero_le _, fun _ => rfl⟩
      ⟨by simp [acceptance], Nat.zero_le _, fun h' => absurd rfl h'⟩
  | txframe tag =>
    have hname := name_length_le_four tag
    exact txInv_of_slots rfl rfl ⟨_, hvalid rfl, rfl⟩ ⟨fun _ => Nat.zero_le _, fun _ => Nat.zero_le _, fun _ => rfl⟩
      ⟨Nat.zero_le _, by simp [acceptance]; omega, fun _ => rfl⟩

end Sys2Proof.Machine

/-! PROOF. The invariant of the receive engine and of its parser: a step of `RX` and the acceptance of its commands keep it (R42,
R45, R46, R169, R184, R227); with it the invariant of the machine. -/

namespace Sys2Proof.Machine

/-! ### The header parser -/

/-- The parser's invariant reads only three fields of its engine. -/
theorem ParserInv.congr {r r' : RxState} {p : Parser} (h : ParserInv r p) (hbytes : r'.bytes = r.bytes)
    (hop : r'.op = r.op) (hfail : r'.fail = r.fail) : ParserInv r' p where
  bytes_eq := hbytes ▸ h.bytes_eq
  off_rest := hop ▸ h.off_rest
  off_other := hop ▸ h.off_other
  on_parse := hop ▸ h.on_parse
  cnt_len := h.cnt_len
  cnt_name := h.cnt_name
  method_payload := h.method_payload
  method_none := h.method_none
  fail_state := hfail ▸ h.fail_state

theorem countByte_parserInv {s : State} (h : ParserInv s.rx s.hp) : ParserInv (countByte s).rx (countByte s).hp :=
  { h with bytes_eq := (congrArg (· + 1#32) h.bytes_eq).trans (BitVec.ofNat_add ..).symm }

/-- The parser in the middle of a header. -/
structure Reading (s : State) : Prop where
  parses : s.rx.op.usesParser = true
  bytes_eq : s.rx.bytes = BitVec.ofNat 32 s.hp.total
  method : s.hp.method = none
  alive : s.rx.fail = false

theorem not_idle_of_usesParser {op : RxOp} (h : op.usesParser = true) : op ≠ .idle := by
  rintro rfl
  cases h

/-- The parser's invariant in a command that parses: only the fields that go with its state are left to check. -/
theorem parserInv_of_parses {s : State} (hparses : s.rx.op.usesParser = true)
    (hbytes : s.rx.bytes = BitVec.ofNat 32 s.hp.total) (hon : s.hp.state ≠ .off)
    (hlen : s.hp.state = .len → s.hp.cnt < 4) (hname : s.hp.state = .name → s.hp.cnt < s.hp.len.toNat)
    (hpayload : s.hp.state = .payload ↔ s.hp.method ≠ none) (hfail : s.rx.fail = true → s.hp.state = .fail) :
    ParserInv s.rx s.hp where
  bytes_eq := hbytes
  off_rest h := absurd h (not_idle_of_usesParser hparses)
  off_other _ h := by rw [hparses] at h; cases h
  on_parse _ := hon
  cnt_len := hlen
  cnt_name := hname
  method_payload := hpayload.mp
  method_none h := by
    by_contra hne
    rw [hpayload.mpr hne] at h
    simp at h
  fail_state := hfail

theorem failHeader_parserInv (c : Cause) {s : State} (h : Reading s) :
    ParserInv (failHeader c s).rx (failHeader c s).hp := by
  obtain ⟨hparses, hbytes, hmethod, -⟩ := h
  apply parserInv_of_parses <;> simp [failHeader, hparses, hbytes, hmethod]

theorem nameDone_parserInv {s : State} (h : Reading s) : ParserInv (nameDone s).rx (nameDone s).hp := by
  obtain ⟨-, hs⟩ | ⟨-, -, hs⟩ | ⟨t, -, -, hs⟩ := nameDone_cases s
  · rw [hs]
    exact failHeader_parserInv _ h
  · rw [hs]
    exact failHeader_parserInv _ h
  · rw [hs]
    obtain ⟨hparses, hbytes, -, halive⟩ := h
    apply parserInv_of_parses <;> simp [hparses, hbytes, halive]

/-- While a header is being read nothing has failed and no method is set. -/
theorem ParserInv.reading {s : State} (h : ParserInv s.rx s.hp) (hparses : s.rx.op.usesParser = true)
    (hstate : s.hp.state = .len ∨ s.hp.state = .name) : Reading s where
  parses := hparses
  bytes_eq := h.bytes_eq
  method := h.method_none (hstate.imp_right .inl)
  alive := by
    by_contra hfail
    rw [h.fail_state (by simpa using hfail)] at hstate
    simp at hstate

theorem lenByte_parserInv (b : Byte) {s : State} (h : ParserInv s.rx s.hp) (hparses : s.rx.op.usesParser = true)
    (hstate : s.hp.state = .len) : ParserInv (lenByte b s).rx (lenByte b s).hp := by
  obtain ⟨-, hbytes, hmethod, halive⟩ := h.reading hparses (.inl hstate)
  have hcnt := h.cnt_len hstate
  unfold lenByte
  dsimp only
  split
  · split
    · exact nameDone_parserInv ⟨hparses, hbytes, hmethod, halive⟩
    · rename_i hlen
      have hpos : 0 < ((s.hp.len <<< 8) ||| b.setWidth 32).toNat := Nat.pos_of_ne_zero fun h0 =>
        hlen (BitVec.eq_of_toNat_eq (by simpa using h0))
      exact parserInv_of_parses hparses hbytes nofun nofun (fun _ => hpos) ⟨nofun, fun hne => absurd hmethod hne⟩
        (fun hf => by simp [halive] at hf)
  · refine parserInv_of_parses hparses hbytes (by simp [hstate]) (fun _ => ?_) (fun hn => by simp [hstate] at hn)
      ⟨fun hp => by simp [hstate] at hp, fun hne => absurd hmethod hne⟩ (fun hf => by simp [halive] at hf)
    simp
    omega

theorem nameByte_parserInv (b : Byte) {s : State} (h : ParserInv s.rx s.hp) (hparses : s.rx.op.usesParser = true)
    (hstate : s.hp.state = .name) : ParserInv (nameByte b s).rx (nameByte b s).hp := by
  obtain ⟨-, hbytes, hmethod, halive⟩ := h.reading hparses (.inr hstate)
  have hcnt := h.cnt_name hstate
  unfold nameByte
  dsimp only
  split
  · exact nameDone_parserInv ⟨hparses, hbytes, hmethod, halive⟩
  · refine parserInv_of_parses hparses hbytes (by simp [hstate]) (fun hl => by simp [hstate] at hl) (fun _ => ?_)
      ⟨fun hp => by simp [hstate] at hp, fun hne => absurd hmethod hne⟩ (fun hf => by simp [halive] at hf)
    simp
    omega

theorem hpByte_parserInv (b : Byte) {s : State} (h : ParserInv s.rx s.hp) (hparses : s.rx.op.usesParser = true) :
    ParserInv (hpByte b s).rx (hpByte b s).hp := by
  unfold hpByte
  split
  · exact lenByte_parserInv b h hparses ‹_›
  · exact nameByte_parserInv b h hparses ‹_›
  · exact h
  · exact h
  · exact h

/-- The end of the input leaves the parser with an outcome, and the command completes (R184, R186, R187). -/
theorem hpEnd_complete_parserInv {s : State} (h : ParserInv s.rx s.hp) (hparses : s.rx.op.usesParser = true) :
    ParserInv ((hpEnd s).pushRxd .fin).completeRx.rx ((hpEnd s).pushRxd .fin).completeRx.hp := by
  have hon := h.on_parse hparses
  obtain ⟨hstate, hs⟩ | ⟨hlen, hname, hs⟩ := hpEnd_cases s
  · obtain ⟨-, hbytes, hmethod, halive⟩ := h.reading hparses hstate
    rw [hs]
    constructor <;> simp [RxOp.usesParser, hbytes, hmethod]
  · have hpayload := h.method_payload
    have hnone := h.method_none
    have hfail := h.fail_state
    have hbytes := h.bytes_eq
    rw [hs]
    constructor <;> simp_all [RxOp.usesParser]
    cases hst : s.hp.state <;> simp_all

/-! ### The receive engine -/

theorem reset_rxInv : RxInv .reset := by
  constructor <;> simp [RxState.reset, RxOp.usesCfg]

theorem reset_parserInv : ParserInv .reset .reset := by
  constructor <;> simp [RxState.reset, Parser.reset, RxOp.usesParser]

/-- The engine's invariant does not read what the parser and the deserializer's shift register hold. -/
theorem RxInv.congr {r r' : RxState} (h : RxInv r) (hds : r'.dsCnt ≤ 7)
    (hr : r' = { r with done := r'.done, eos := r'.eos, pos := r'.pos, bytes := r'.bytes, fail := r'.fail,
                        dsShift := r'.dsShift, dsCnt := r'.dsCnt }) : RxInv r' := by
  rw [hr]
  exact { h with dsCnt_le := hds }

theorem completeRx_inv {s : State} (hds : s.rx.dsCnt ≤ 7) (hk : s.rx.k = 0) : RxInv s.completeRx.rx := by
  constructor <;> simp [hds, hk, RxOp.usesCfg]

theorem nameDone_rx (s : State) : (nameDone s).rx = { s.rx with fail := (nameDone s).rx.fail } := by
  obtain ⟨-, hs⟩ | ⟨-, -, hs⟩ | ⟨t, -, -, hs⟩ := nameDone_cases s <;> rw [hs]
  · rw [failHeader_engine]
  · rw [failHeader_engine]

theorem hpByte_rx (b : Byte) (s : State) : (hpByte b s).rx = { s.rx with fail := (hpByte b s).rx.fail } := by
  unfold hpByte lenByte nameByte
  dsimp only
  split
  · split
    · split
      · exact nameDone_rx _
      · rfl
    · rfl
  · split
    · exact nameDone_rx _
    · rfl
  · rfl
  · rfl
  · rfl

theorem emitByte_rx (b : Byte) (s : State) :
    (emitByte b s).rx = { s.rx with bytes := (emitByte b s).rx.bytes, fail := (emitByte b s).rx.fail } := by
  unfold emitByte
  split
  · rfl
  · rfl
  · rw [hpByte_rx]
    rfl
  all_goals rfl

theorem giveBit_rx (b : Bool) (s : State) :
    (giveBit emitByte b s).rx = { s.rx with
      bytes := (giveBit emitByte b s).rx.bytes, fail := (giveBit emitByte b s).rx.fail,
      dsShift := shiftIn s.rx.dsShift b, dsCnt := if s.rx.dsCnt = 7 then 0 else s.rx.dsCnt + 1 } := by
  obtain ⟨hds, hs⟩ | ⟨hds, hs⟩ := giveBit_cases emitByte b s
  · rw [hs, if_pos hds, emitByte_rx]
    rfl
  · rw [hs, if_neg hds]
    rfl

/-- The two invariants that a step of `RX` keeps together. -/
def RxGood (s : State) : Prop :=
  RxInv s.rx ∧ ParserInv s.rx s.hp

/-- A byte of the deserializer keeps the parser's invariant: it is pushed, counted, or given to the parser (R170). -/
theorem emitByte_parserInv (b : Byte) {s : State} (h : ParserInv s.rx s.hp) :
    ParserInv (emitByte b s).rx (emitByte b s).hp := by
  unfold emitByte
  split
  · exact h
  · exact countByte_parserInv h
  · rename_i hop
    exact hpByte_parserInv b (countByte_parserInv h) (by rw [countByte_rx_op, hop]; rfl)
  all_goals exact h

theorem giveBit_good (b : Bool) {s : State} (h : RxGood s) : RxGood (giveBit emitByte b s) := by
  obtain ⟨hrx, hparser⟩ := h
  have hle := hrx.dsCnt_le
  refine ⟨hrx.congr ?_ (by rw [giveBit_rx]), ?_⟩
  · rw [giveBit_rx]
    dsimp only
    split
    · exact Nat.zero_le _
    · omega
  · obtain ⟨-, hs⟩ | ⟨-, hs⟩ := giveBit_cases emitByte b s
    · rw [hs]
      exact emitByte_parserInv _ (s := s.shifted b 0) (hparser.congr rfl rfl rfl)
    · rw [hs]
      exact hparser.congr rfl rfl rfl

/-- Completing a command that does not parse leaves the parser off. -/
theorem completeRx_good {s : State} (h : RxGood s) (hk : s.rx.k = 0) (hop : s.rx.op ≠ .idle)
    (hparses : s.rx.op.usesParser = false) : RxGood s.completeRx := by
  obtain ⟨hrx, hparser⟩ := h
  have hoff := hparser.off_other hop hparses
  have hbytes := hparser.bytes_eq
  have hfail := hparser.fail_state
  refine ⟨completeRx_inv hrx.dsCnt_le hk, ?_⟩
  constructor <;> simp_all [RxOp.usesParser]

/-- A sample that fills its slot: the framer starts over before the bit goes on, so the slot in progress is not whole. -/
theorem closeRxSlot_good (num : Numerics Sample) {s : State} (h : RxGood { s with rx := { s.rx with k := 0 } }) :
    RxGood (closeRxSlot num s) := by
  obtain ⟨hrx, hparser⟩ := h
  have hgood := giveBit_good (s.rx.cfg.classify num (s.rx.buf.take s.rx.cfg.nTone))
    (s := { s with rx := { s.rx with pos := s.rx.pos + 1#32, k := 0 } })
    ⟨hrx.congr hrx.dsCnt_le rfl, hparser.congr rfl rfl rfl⟩
  unfold closeRxSlot
  dsimp only
  split
  · rename_i hop
    refine completeRx_good hgood (by rw [giveBit_rx]) ?_ ?_ <;> rw [giveBit_rx] <;> simp [hop, RxOp.usesParser]
  · exact hgood

/-- The samples of the tone region popped so far stay in `rx_buf` (R169). -/
theorem bufWith_length {r : RxState} (h : r.k ≤ r.buf.length ∨ r.cfg.nTone ≤ r.buf.length) (x : Sample) :
    r.k + 1 ≤ (r.bufWith x).length ∨ r.cfg.nTone ≤ (r.bufWith x).length := by
  unfold RxState.bufWith storeSample
  split
  · left
    rw [List.length_append, List.length_take, List.length_singleton]
    omega
  · right
    omega

theorem takeSample_good (num : Numerics Sample) (x : Sample) {s : State} (h : RxGood s)
    (hop : s.rx.op.usesCfg = true) : RxGood (takeSample num x s) := by
  obtain ⟨hrx, hparser⟩ := h
  obtain ⟨c, hc, hcfg⟩ := hrx.snapshot hop
  have hk := hrx.k_lt hop
  have hbuf := bufWith_length (hrx.buf_le hop) x
  have hpos : 0 < s.rx.cfg.nSlot := Nat.zero_lt_of_lt hk
  unfold takeSample
  dsimp only
  split
  · refine closeRxSlot_good num ⟨{ hrx with k_lt := fun _ => hpos, k_rest := fun _ => rfl, buf_le := fun _ => ?_ },
      hparser.congr rfl rfl rfl⟩
    exact .inl (Nat.zero_le _)
  · rename_i hne
    refine ⟨{ hrx with k_lt := fun _ => ?_, k_rest := fun h => ?_, buf_le := fun _ => hbuf }, hparser.congr rfl rfl rfl⟩
    · exact Nat.lt_of_le_of_ne hk hne
    · rw [hop] at h
      cases h

theorem endOfSamples_good {s : State} (h : RxGood s) (hop : s.rx.op.usesCfg = true) (hk : s.rx.k = 0) :
    RxGood (endOfSamples s) := by
  obtain ⟨hrx, hparser⟩ := h
  unfold endOfSamples
  cases h : s.rx.op with
  | idle | rxflush | hparse => rw [h] at hop; cases hop
  | rxslot => exact completeRx_good ⟨hrx, hparser⟩ hk (by simp [h]) (by rw [h]; rfl)
  | rxraw =>
    exact completeRx_good (s := s.dropBits.pushRxd .fin)
      ⟨hrx.congr (Nat.zero_le _) rfl, hparser.congr rfl rfl rfl⟩ hk (by simp [h]) (by simp [h, RxOp.usesParser])
  | rxframe =>
    refine ⟨completeRx_inv ?_ ?_, ?_⟩
    · simp [hpEnd_engine]
    · simp [hpEnd_engine, hk]
    · exact hpEnd_complete_parserInv (s := s.dropBits) (hparser.congr rfl rfl rfl) (by simp [h, RxOp.usesParser])

theorem sampleStep_good (num : Numerics Sample) {s : State} (h : RxGood s) (hop : s.rx.op.usesCfg = true) :
    RxGood (sampleStep num s) := by
  obtain ⟨hrx, hparser⟩ := h
  have hpos : 0 < s.rx.cfg.nSlot := Nat.zero_lt_of_lt (hrx.k_lt hop)
  unfold sampleStep
  split
  · exact ⟨hrx, hparser⟩
  · exact endOfSamples_good (s := { s with rxs := _, rx := _ })
      ⟨{ hrx with k_lt := fun _ => hpos, k_rest := fun _ => rfl, buf_le := fun _ => .inl (Nat.zero_le _) },
        hparser.congr rfl rfl rfl⟩ hop rfl
  · split
    · exact ⟨hrx, hparser⟩
    · exact takeSample_good (s := { s with rxs := _ }) num _ ⟨hrx, hparser⟩ hop

theorem flushStep_good {s : State} (h : RxGood s) (hop : s.rx.op = .rxflush) : RxGood (flushStep s) := by
  obtain ⟨hrx, hparser⟩ := h
  exact completeRx_good (s := s.clearDeserializer.pushRxd .fin)
    ⟨hrx.congr (Nat.zero_le _) rfl, hparser.congr rfl rfl rfl⟩ (hrx.k_rest (by rw [hop]; rfl)) (by simp [hop])
    (by simp [hop, RxOp.usesParser])

theorem parseByte_good (b : Byte) {s : State} (h : RxGood s) (hparses : s.rx.op.usesParser = true) :
    RxGood (parseByte b s) := by
  obtain ⟨hrx, hparser⟩ := h
  unfold parseByte
  split
  · exact ⟨hrx, hparser⟩
  · refine ⟨hrx.congr ?_ ?_, hpByte_parserInv b (countByte_parserInv hparser) hparses⟩ <;> rw [hpByte_rx]
    · exact hrx.dsCnt_le
    · rfl

theorem hparseStep_good {s : State} (h : RxGood s) (hop : s.rx.op = .hparse) : RxGood (hparseStep s) := by
  obtain ⟨hrx, hparser⟩ := h
  have hparses : s.rx.op.usesParser = true := by rw [hop]; rfl
  have hk := hrx.k_rest (by rw [hop]; rfl)
  unfold hparseStep
  split
  · exact ⟨hrx, hparser⟩
  · refine ⟨completeRx_inv ?_ ?_, hpEnd_complete_parserInv (s := { s with rxb := _, rx := _ })
      (hparser.congr rfl rfl rfl) hparses⟩
    · simpa [hpEnd_engine] using hrx.dsCnt_le
    · simpa [hpEnd_engine] using hk
  · exact parseByte_good _ (s := { s with rxb := _ }) ⟨hrx, hparser⟩ hparses

/-- A step of `RX` keeps the invariants of `RX` and of its parser. -/
theorem rxStep_good (num : Numerics Sample) {s : State} (h : RxGood s) : RxGood (rxStep num s) := by
  obtain ⟨-, hs⟩ | ⟨hop, hs⟩ | ⟨hop, hs⟩ | ⟨hop, hs⟩ := rxStep_cases num s
  · rw [hs]
    exact h
  · rw [hs]
    exact flushStep_good h hop
  · rw [hs]
    exact sampleStep_good num h hop
  · rw [hs]
    exact hparseStep_good h hop

/-- An accepted command of `RX` starts with no sample of a slot, on a snapshot of the live configuration. -/
theorem acceptRx_inv {op : RxOp} {s : State} (hrx : RxInv s.rx) (hop : op ≠ .idle)
    (hvalid : op.usesCfg = true → cfgchk s.cfg = 0#32) : RxInv (s.acceptRx op).rx where
  busy_iff := by simp [hop]
  dsCnt_le := hrx.dsCnt_le
  snapshot h := ⟨_, hvalid h, rfl⟩
  k_lt h := nSlot_pos (hvalid h)
  k_rest _ := rfl
  buf_le _ := .inl (Nat.zero_le _)

/-- The acceptance of a command of `RX` starts the parser or turns it off. -/
theorem acceptance_good {i : Instr} {s : State} (h : s.Accepts i) (hi : i.commandClass = .rx) (hgood : RxGood s) :
    RxGood (acceptance i s) := by
  obtain ⟨hrx, hparser⟩ := hgood
  have hvalid := h.valid
  have hbytes := hparser.bytes_eq
  cases i with
  | rxslot =>
    refine ⟨acceptRx_inv hrx nofun fun _ => hvalid rfl, ?_⟩
    constructor <;> simp [acceptance, RxOp.usesParser, State.acceptRx, RxOp.parserStart, hbytes]
  | rxflush =>
    refine ⟨acceptRx_inv hrx nofun nofun, ?_⟩
    constructor <;> simp [acceptance, RxOp.usesParser, State.acceptRx, RxOp.parserStart, hbytes]
  | rxraw =>
    refine ⟨(acceptRx_inv (op := .rxraw) hrx nofun fun _ => hvalid rfl).congr (Nat.zero_le _) rfl, ?_⟩
    constructor <;> simp [acceptance, RxOp.usesParser, State.acceptRx, RxOp.parserStart]
  | rxframe =>
    refine ⟨(acceptRx_inv (op := .rxframe) hrx nofun fun _ => hvalid rfl).congr (Nat.zero_le _) rfl, ?_⟩
    constructor <;> simp [acceptance, RxOp.usesParser]
  | hparse =>
    refine ⟨(acceptRx_inv (op := .hparse) hrx nofun nofun).congr hrx.dsCnt_le rfl, ?_⟩
    constructor <;> simp [acceptance, RxOp.usesParser]
  | _ => cases hi

/-! ### The machine -/

theorem ErrorInv.of_raisesAtMost {s t : State} (h : ErrorInv s) (hraise : RaisesAtMost s t) : ErrorInv t := by
  obtain ⟨herr, hinfo⟩ | ⟨-, hne, hne'⟩ := hraise
  · exact ⟨herr ▸ h.never_decompression, fun h0 => hinfo ▸ h.info_zero (herr ▸ h0)⟩
  · exact ⟨hne', fun h0 => absurd h0 hne⟩

/-- The reset state of the engines and of the error registers meets the invariant, whatever else the state holds. -/
theorem inv_of_reset {s : State} (htx : s.tx = .reset) (hrx : s.rx = .reset) (hhp : s.hp = .reset)
    (herr : s.err = .noError) (hinfo : s.errInfo = 0#32) : s.Inv where
  tx := htx ▸ reset_txInv
  rx := hrx ▸ reset_rxInv
  parser := by rw [hrx, hhp]; exact reset_parserInv
  error := ⟨by simp [herr], fun _ => hinfo⟩

/-- Settles O54: the reset values meet each part of the invariant. -/
theorem resetMeetsTheInvariant : Obligations.ResetMeetsTheInvariant :=
  inv_of_reset rfl rfl rfl rfl rfl

/-- The invariant reads the engines and the error registers only. -/
theorem State.Inv.of_kept {s t : State} (h : s.Inv) (hkept : EnginesKept s t) : t.Inv := by
  obtain ⟨htx, hrx, hhp, herr, hinfo⟩ := hkept
  exact
    { tx := htx ▸ h.tx
      rx := hrx ▸ h.rx
      parser := by rw [hrx, hhp]; exact h.parser
      error := h.error.of_raisesAtMost (.inl ⟨herr, hinfo⟩) }

theorem txStep_machineInv (num : Numerics Sample) {s : State} (h : s.Inv) : (txStep num s).Inv := by
  have hinv := txStep_inv num h.tx
  have hframe : TxFrame s (txStep num s) := txStep_frame num s
  rw [hframe] at hinv ⊢
  exact ⟨hinv, h.rx, h.parser, h.error.of_raisesAtMost (.inl ⟨rfl, rfl⟩)⟩

theorem rxStep_machineInv (num : Numerics Sample) {s : State} (h : s.Inv) : (rxStep num s).Inv := by
  obtain ⟨hrx, hparser⟩ := rxStep_good num ⟨h.rx, h.parser⟩
  have htx : (rxStep num s).tx = s.tx := by rw [rxStep_frame num s]
  exact ⟨htx ▸ h.tx, hrx, hparser, h.error.of_raisesAtMost (rxStep_raisesAtMost num s)⟩

theorem acceptance_inv {i : Instr} {s : State} (h : s.Inv) (haccepts : s.Accepts i) : (acceptance i s).Inv := by
  obtain hi | hi := haccepts.tx_or_rx
  · have htx := acceptance_txInv haccepts hi
    rw [(acceptance_tx hi s).1] at htx ⊢
    exact ⟨htx, h.rx, h.parser, h.error.of_raisesAtMost (.inl ⟨rfl, rfl⟩)⟩
  · obtain ⟨hrx, hparser⟩ := acceptance_good haccepts hi ⟨h.rx, h.parser⟩
    rw [(acceptance_rx hi s).1] at hrx hparser ⊢
    exact ⟨h.tx, hrx, hparser, h.error.of_raisesAtMost (.inl ⟨rfl, rfl⟩)⟩

/-- Settles O55: each thing a step can do keeps each part of the invariant. -/
theorem stepKeepsTheInvariant : Obligations.StepKeepsTheInvariant := by
  intro s t h hstep
  obtain ⟨s', hturn, rfl⟩ | ⟨s', hturn, rfl⟩ | hkept | ⟨line, v, htakes, hline⟩ := step_effect hstep
  · exact txStep_machineInv _ (h.of_kept hturn.kept)
  · exact rxStep_machineInv _ (h.of_kept hturn.kept)
  · exact h.of_kept hkept
  · have hv : v.Inv := h.of_kept htakes.kept
    obtain ⟨-, rfl⟩ | ⟨-, rfl⟩ | ⟨c, info, hc, rfl⟩ | ⟨i, -, haccepts, rfl⟩ := hline
    · exact inv_of_reset rfl rfl rfl rfl rfl
    · exact ⟨hv.tx, hv.rx, hv.parser, ⟨nofun, fun _ => rfl⟩⟩
    · refine ⟨?_, ?_, ?_, hv.error.of_raisesAtMost (raise_raisesAtMost hc info v)⟩
      · rw [State.raise_tx]
        exact hv.tx
      · rw [State.raise_rx]
        exact hv.rx
      · rw [State.raise_rx, State.raise_hp]
        exact hv.parser
    · exact acceptance_inv hv haccepts

/-- Settles O56: an index stays inside its segment or its slot, and a valid configuration has a slot below `2^32`. -/
theorem sampleIndicesNeverWrap : Obligations.SampleIndicesNeverWrap := by
  refine fun s h => ⟨fun hop => ?_, fun hop => ?_⟩
  · obtain ⟨c, hc, hcfg⟩ := h.tx.snapshot hop
    have hslot := nSlot_lt hc
    have htone : s.tx.cfg.nTone ≤ c.nSlot := hcfg ▸ nTone_le_nSlot c
    have hsil : s.tx.cfg.nSil ≤ c.nSlot := hcfg ▸ nSil_le_nSlot c
    cases hseg : s.tx.seg with
    | fetch =>
      rw [h.tx.k_fetch hseg]
      decide
    | tone => exact ((h.tx.k_tone hseg).trans htone).trans_lt hslot
    | silence => exact ((h.tx.k_silence hseg).trans hsil).trans_lt hslot
  · obtain ⟨c, hc, hcfg⟩ := h.rx.snapshot hop
    have hk := h.rx.k_lt hop
    rw [hcfg] at hk
    exact hk.trans (nSlot_lt hc)

end Sys2Proof.Machine

/-! PROOF. The commands of `TX`, from acceptance to completion (R125, R126, R143 to R146, R176). -/

namespace Sys2Proof.Machine

/-! ### From acceptance to completion -/

theorem acceptance_txFrame {i : Instr} (hi : i.commandClass = .tx) (s : State) : TxFrame s (acceptance i s) := by
  rw [(acceptance_tx hi s).1]
  rfl

/-- A run of an accepted command of `TX` that ends in a completion: the command completes, and nothing but what is `TX`'s has
changed. -/
theorem completes_of_txRun {num : Numerics Sample} {i : Instr} {s u : State} (hi : i.commandClass = .tx) {n : Nat}
    (hrun : txRun num n (acceptance i s) = u.completeTx) :
    TxCompletes num (acceptance i s) u.completeTx ∧ TxFrame s u.completeTx := by
  obtain ⟨-, hbusy, -⟩ := acceptance_tx hi s
  exact ⟨.of_run hrun hbusy rfl rfl rfl, hrun ▸ (acceptance_txFrame hi s).trans (txRun_frame num n _)⟩

/-- A command of `TX` finds no obstacle: no error is recorded, `TX` is idle and the configuration is valid if it is used. -/
theorem accepts_of_txIdle {i : Instr} {s : State} (hi : i.commandClass = .tx) (herr : s.err = .noError)
    (hidle : s.tx.busy = false) (hcfg : i.usesCfg = true → cfgchk s.cfg = 0#32) : s.Accepts i where
  engine := by rw [hi]; nofun
  noError := herr
  idle := by rw [hi]; exact hidle
  valid := hcfg

/-! ### One segment -/

/-- `TONE` pushes its segment and completes at the step after the last sample (R125). -/
theorem txRun_toneCommand (num : Numerics Sample) {t : State} (hop : t.tx.op = .tone) (hk : t.tx.k = 0) :
    txRun num (t.tx.cfg.nTone + 1) t
      = (t.emitted ((List.range t.tx.cfg.nTone).map fun k => num.sinS (t.tx.cfg.phase t.tx.sym k))
          t.tx.cfg.nTone).completeTx := by
  rw [txRun_add, txRun_tone num t.tx.cfg.nTone t (.inl hop) (by omega), hk, Nat.zero_add, ← List.range_eq_range']
  simp [txRun, txStep, toneStep, State.emitted, hop]

/-- `SIL` pushes its segment and completes at the step after the last sample (R126). -/
theorem txRun_silCommand (num : Numerics Sample) {t : State} (hop : t.tx.op = .sil) (hk : t.tx.k = 0) :
    txRun num (t.tx.cfg.nSil + 1) t
      = (t.emitted (List.replicate t.tx.cfg.nSil num.szero) t.tx.cfg.nSil).completeTx := by
  rw [txRun_add, txRun_silence num t.tx.cfg.nSil t (.inl hop) (by omega), hk, Nat.zero_add]
  simp [txRun, txStep, silStep, State.emitted, hop]

/-- Settles O16: the accepted command stands at the first sample of the tone of its snapshot, and emits it. -/
theorem toneEmitsOneToneSegment : Obligations.ToneEmitsOneToneSegment := by
  intro num sel s herr hidle hcfg
  have hrun := txRun_toneCommand num (t := acceptance (.tone sel) s) rfl rfl
  obtain ⟨hcompletes, hframe⟩ := completes_of_txRun rfl hrun
  refine ⟨_, _, exec_of_accepts (accepts_of_txIdle rfl herr hidle fun _ => hcfg), rfl, rfl, rfl, hcompletes, hframe, rfl,
    rfl, ?_⟩
  rw [tone_eq_snapshot]
  rfl

/-- Settles O17: the accepted command stands at the first sample of the silence of its snapshot, and emits it. -/
theorem silEmitsOneSilenceSegment : Obligations.SilEmitsOneSilenceSegment := by
  intro num s herr hidle hcfg
  have hrun := txRun_silCommand num (t := acceptance .sil s) rfl rfl
  obtain ⟨hcompletes, hframe⟩ := completes_of_txRun rfl hrun
  refine ⟨_, _, exec_of_accepts (accepts_of_txIdle rfl herr hidle fun _ => hcfg), rfl, rfl, rfl, hcompletes, hframe, rfl,
    rfl, ?_⟩
  rw [silence_eq_snapshot]
  rfl

/-! ### A bit and a byte -/

/-- `TXBIT` and `TXBYTE` complete at the fetch after their last bit (R148). -/
theorem txStep_single {num : Numerics Sample} {c : TxCfg} {s : State} (hf : s.Fetching c) (hn : s.tx.nbits = 0)
    (hop : s.tx.op = .txbit ∨ s.tx.op = .txbyte) : txStep num s = s.completeTx := by
  rw [txStep_fetch hf, fetchStep, if_neg (by omega), if_pos hop]

/-- Settles O18: the accepted command stands at the opening of its bit's slot, and after the slot nothing is left to fetch. -/
theorem txbitModulatesOneBit : Obligations.TxbitModulatesOneBit := by
  intro num bit s herr hidle hcfg
  let t := acceptance (.txbit bit) s
  have hslot := txRun_slot num t rfl rfl rfl
  let u := (t.emitted (t.tx.cfg.slotSamples num t.tx.sym) 0).closeSlot
  have hfetch : u.Fetching t.tx.cfg := ⟨rfl, rfl, rfl, rfl, rfl⟩
  have hrun : txRun num (t.tx.cfg.nTone + 1 + (t.tx.cfg.nSil + 1) + 1) t = u.completeTx := by
    rw [txRun_add, hslot]
    exact txStep_single (num := num) hfetch rfl (.inl rfl)
  obtain ⟨hcompletes, hframe⟩ := completes_of_txRun rfl hrun
  refine ⟨t, u.completeTx, exec_of_accepts (accepts_of_txIdle rfl herr hidle fun _ => hcfg), rfl, rfl, rfl, hcompletes,
    hframe, rfl, rfl, ?_⟩
  rw [slot_eq_snapshot]
  rfl

/-- Settles O19: the accepted command fetches the eight bits of its byte, and after their slots nothing is left to fetch. -/
theorem txbyteModulatesEightBits : Obligations.TxbyteModulatesEightBits := by
  intro num byte s herr hidle hcfg
  let t := acceptance (.txbyte byte) s
  obtain ⟨n, u, hbits, hfetch, hn, hop, -, htxd, hpos, htxs⟩ :=
    txRun_bits num (TxCfg.of s.cfg) 8 t ⟨rfl, rfl, rfl, rfl, rfl⟩ rfl
  have hrun : txRun num (n + 1) t = u.completeTx := by
    rw [txRun_add, hbits]
    exact txStep_single hfetch hn (.inr hop)
  obtain ⟨hcompletes, hframe⟩ := completes_of_txRun rfl hrun
  refine ⟨t, u.completeTx, exec_of_accepts (accepts_of_txIdle rfl herr hidle fun _ => hcfg), rfl, rfl, rfl, hcompletes,
    hframe, htxd, hpos, ?_⟩
  rw [modulate_eq_snapshot, bytesToBits_cons, bytesToBits_nil, List.append_nil, ← shiftBits_eight]
  exact htxs

/-- Settles O20: the accepted command's one step pushes `END` and completes. -/
theorem txendClosesTheBuffer : Obligations.TxendClosesTheBuffer := by
  intro num s herr hidle
  have hrun : txRun num 1 (acceptance .txend s) = ((acceptance .txend s).pushTxs .fin).completeTx := rfl
  obtain ⟨hcompletes, hframe⟩ := completes_of_txRun rfl hrun
  exact ⟨_, _, exec_of_accepts (accepts_of_txIdle rfl herr hidle nofun), rfl, rfl, rfl, hcompletes, hframe, rfl, rfl, rfl⟩

/-! ### A buffer of bytes -/

@[simp] theorem bytesToBits_append (data more : List Byte) :
    bytesToBits (data ++ more) = bytesToBits data ++ bytesToBits more :=
  List.flatMap_append

/-- What `TXRAW` and `TXFRAME` have done when the bytes before `rest` are sent: they fetch again, nothing is left to serialise,
and the slots of the header's and the buffer's bits are pushed and counted. -/
structure SentBytes (num : Numerics Sample) (c : TxCfg) (t u : State) (bytes : List Byte) (rest : List (Item Byte)) :
    Prop where
  fetching : u.Fetching c
  nbits : u.tx.nbits = 0
  streams : u.tx.op.streams = true
  hdr : u.tx.hdr = []
  txd : u.txd = rest
  pos : u.tx.pos = t.tx.pos + BitVec.ofNat 32 (8 * bytes.length)
  txs : u.txs = t.txs ++ ((bytesToBits bytes).flatMap (c.slotSamples num)).map .data

theorem txRun_stream (num : Numerics Sample) {c : TxCfg} {t : State} {hdr data : List Byte} {rest : List (Item Byte)}
    (hfetch : t.Fetching c) (hn : t.tx.nbits = 0) (hop : t.tx.op.streams = true) (hhdr : t.tx.hdr = hdr)
    (htxd : t.txd = data.map .data ++ rest) : ∃ n, SentBytes num c t (txRun num n t) (hdr ++ data) rest := by
  obtain ⟨n, u, hu, hfetch', hn', hop', hhdr', htxd', hpos', htxs'⟩ := txRun_header num c hdr t hfetch hn hop hhdr
  obtain ⟨m, v, hv, hfetch'', hn'', hop'', hhdr'', htxd'', hpos'', htxs''⟩ :=
    txRun_data num c data rest u hfetch' hn' (hop' ▸ hop) hhdr' (htxd'.trans htxd)
  refine ⟨n + m, ?_⟩
  rw [txRun_add, hu, hv]
  refine ⟨hfetch'', hn'', ?_, hhdr'', htxd'', ?_, ?_⟩
  · rw [hop'', hop']
    exact hop
  · rw [hpos'', hpos', BitVec.add_assoc, ← BitVec.ofNat_add, List.length_append, Nat.mul_add]
  · rw [htxs'', htxs', bytesToBits_append, List.flatMap_append, List.map_append, List.append_assoc]

/-- An accepted streaming command fetches the bytes of its header first. -/
theorem acceptance_fetching {i : Instr} (hi : i = .txraw ∨ ∃ tag, i = .txframe tag) (s : State) :
    (acceptance i s).Fetching (TxCfg.of s.cfg) ∧ (acceptance i s).tx.nbits = 0
      ∧ (acceptance i s).tx.op.streams = true := by
  obtain rfl | ⟨tag, rfl⟩ := hi <;> exact ⟨⟨rfl, rfl, rfl, rfl, rfl⟩, rfl, rfl⟩

/-- A streaming command of `TX` with a whole buffer in `TXD`. -/
theorem txStream_completes (num : Numerics Sample) {i : Instr} (hi : i = .txraw ∨ ∃ tag, i = .txframe tag) {s : State}
    {hdr data : List Byte} {rest : List (Item Byte)} (hhdr : (acceptance i s).tx.hdr = hdr)
    (htxd : s.txd = buffer data ++ rest) :
    ∃ u, TxCompletes num (acceptance i s) u ∧ TxFrame s u ∧ u.txd = rest
      ∧ u.tx.pos = BitVec.ofNat 32 (8 * (hdr ++ data).length)
      ∧ u.txs = s.txs ++ buffer (modulate num s.cfg (bytesToBits (hdr ++ data))) := by
  have hclass : i.commandClass = .tx := by obtain rfl | ⟨tag, rfl⟩ := hi <;> rfl
  obtain ⟨hfetch, hn, hop⟩ := acceptance_fetching hi s
  have hs := (acceptance_tx hclass s).1
  have hinput : (acceptance i s).txd = data.map .data ++ .fin :: rest := by
    rw [hs]
    simpa [buffer] using htxd
  obtain ⟨n, hsent⟩ := txRun_stream num hfetch hn hop hhdr hinput
  have hrun : txRun num (n + 1) (acceptance i s)
      = (({ txRun num n (acceptance i s) with txd := rest } : State).pushTxs .fin).completeTx := by
    rw [txRun_add]
    exact txStep_atEnd hsent.fetching hsent.nbits hsent.streams hsent.hdr hsent.txd
  obtain ⟨hcompletes, hframe⟩ := completes_of_txRun hclass hrun
  have hpos0 : (acceptance i s).tx.pos = 0#32 := by obtain rfl | ⟨tag, rfl⟩ := hi <;> rfl
  have htxs0 : (acceptance i s).txs = s.txs := by rw [hs]
  refine ⟨_, hcompletes, hframe, rfl, ?_, ?_⟩
  · have hpos := hsent.pos
    rw [hpos0, BitVec.zero_add] at hpos
    exact hpos
  · rw [State.completeTx_txs, State.pushTxs_txs]
    dsimp only
    rw [hsent.txs, htxs0, modulate_eq_snapshot, buffer, List.append_assoc]

/-- Settles O21: `TXRAW` has no header. -/
theorem txrawModulatesTheBuffer : Obligations.TxrawModulatesTheBuffer := by
  intro num s data rest herr hidle hcfg htxd
  obtain ⟨u, hcompletes, hframe, hrest, hpos, htxs⟩ :=
    txStream_completes num (i := .txraw) (.inl rfl) (hdr := []) rfl htxd
  exact ⟨_, u, exec_of_accepts (accepts_of_txIdle rfl herr hidle fun _ => hcfg), rfl, rfl, rfl, hcompletes, hframe, hrest,
    hpos, htxs⟩

/-- Settles O22: `TXFRAME` sends the header of its tag before the buffer. -/
theorem txframeModulatesHeaderAndPayload : Obligations.TxframeModulatesHeaderAndPayload := by
  intro num tag s payload rest herr hidle hcfg htxd
  obtain ⟨u, hcompletes, hframe, hrest, hpos, htxs⟩ :=
    txStream_completes num (i := .txframe tag) (.inr ⟨tag, rfl⟩) rfl htxd
  rw [List.length_append] at hpos
  exact ⟨_, u, exec_of_accepts (accepts_of_txIdle rfl herr hidle fun _ => hcfg), rfl, rfl, rfl, hcompletes, hframe, hrest,
    hpos, htxs⟩

end Sys2Proof.Machine

/-! PROOF. What the slot framer and the deserializer give for the samples of a buffer, whatever the command does with the bytes
(R135, R155, R169), and the commands `RXSLOT` and `RXFLUSH` (R136, R167). -/

namespace Sys2Proof.Machine

/-! ### Packing bits one at a time -/

/-- The shift register drops what it held before: eight bits later nothing of it is left (R135). -/
theorem foldl_shiftIn_agree (bits : List Bool) (sh sh' : Byte) (n : Nat)
    (h : ∀ i < n, sh.getLsbD i = sh'.getLsbD i) :
    ∀ i < n + bits.length, (bits.foldl shiftIn sh).getLsbD i = (bits.foldl shiftIn sh').getLsbD i := by
  induction bits generalizing sh sh' n with
  | nil => exact h
  | cons b bits ih =>
    have hshift : ∀ i < n + 1, (shiftIn sh b).getLsbD i = (shiftIn sh' b).getLsbD i := by
      intro i hi
      rw [shiftIn_eq_concat, shiftIn_eq_concat]
      cases i with
      | zero => simp
      | succ i => simp [h i (by omega)]
    intro i hi
    rw [List.length_cons] at hi
    exact ih _ _ (n + 1) hshift i (by omega)

theorem foldl_shiftIn_of_eight_le {bits : List Bool} (h : 8 ≤ bits.length) (sh sh' : Byte) :
    bits.foldl shiftIn sh = bits.foldl shiftIn sh' :=
  BitVec.eq_of_getLsbD_eq fun i hi =>
    foldl_shiftIn_agree bits sh sh' 0 (fun _ h0 => absurd h0 (Nat.not_lt_zero _)) i (by omega)

/-- One more bit completes a byte, which is what the shift register then holds, or it waits (R131, R135). -/
theorem bitsToBytes_concat (bits : List Bool) (b : Bool) : bitsToBytes (bits ++ [b]) =
    if bits.length % 8 = 7 then bitsToBytes bits ++ [(bits ++ [b]).foldl shiftIn 0#8] else bitsToBytes bits := by
  induction bits using groups_induction with
  | short bits h =>
    rw [Nat.mod_eq_of_lt h, bitsToBytes_of_length_lt h]
    split
    · have hgroup := bitsToBytes_append_of_length_eq (g := bits ++ [b]) (by simp; omega) []
      rwa [List.append_nil, bitsToBytes_nil] at hgroup
    · exact bitsToBytes_of_length_lt (by simp; omega)
  | group g rest hg ih =>
    have hmod : (g ++ rest).length % 8 = rest.length % 8 := by
      rw [List.length_append, hg, Nat.add_mod_left]
    rw [List.append_assoc, bitsToBytes_append_of_length_eq hg, bitsToBytes_append_of_length_eq hg, ih, hmod]
    split
    · rename_i hlast
      have hlen : 8 ≤ (rest ++ [b]).length := by
        rw [List.length_append, List.length_singleton]
        omega
      rw [List.foldl_append (l := g), foldl_shiftIn_of_eight_le hlen (g.foldl shiftIn 0#8) 0#8, List.cons_append]
    · rfl

/-- The deserializer and the slot counter after the bits `bits` of a command that began with an empty deserializer. -/
structure Unpacked (s : State) (bits : List Bool) : Prop where
  dsCnt : s.rx.dsCnt = bits.length % 8
  dsShift : s.rx.dsShift = bits.foldl shiftIn 0#8
  pos : s.rx.pos = BitVec.ofNat 32 bits.length

theorem Unpacked.giveBit {s : State} {bits : List Bool} (h : Unpacked s bits) (b : Bool) (rest : List (Item Sample))
    (buf : List Sample) : Unpacked (giveBit emitByte b (s.slotPopped rest buf)) (bits ++ [b]) := by
  obtain ⟨hcnt, hshift, hpos⟩ := h
  constructor <;> rw [giveBit_rx]
  · simp only [State.slotPopped, hcnt, List.length_append, List.length_singleton]
    split <;> omega
  · simp [State.slotPopped, hshift]
  · simp [State.slotPopped, hpos, BitVec.ofNat_add]

/-- A bit completes a byte exactly when it is an eighth one, and the byte emitted is the next of the packed ones. -/
theorem Unpacked.giveBit_cases {s : State} {bits : List Bool} (h : Unpacked s bits) (b : Bool)
    (rest : List (Item Sample)) (buf : List Sample) :
    (∃ byte, bitsToBytes (bits ++ [b]) = bitsToBytes bits ++ [byte]
        ∧ Machine.giveBit emitByte b (s.slotPopped rest buf) = emitByte byte ((s.slotPopped rest buf).shifted b 0)
        ∧ (bits ++ [b]).length / 8 = bits.length / 8 + 1 ∧ (bits ++ [b]).length = 8 * (bits.length / 8 + 1))
      ∨ (bitsToBytes (bits ++ [b]) = bitsToBytes bits
        ∧ Machine.giveBit emitByte b (s.slotPopped rest buf)
          = (s.slotPopped rest buf).shifted b (s.rx.dsCnt + 1)
        ∧ (bits ++ [b]).length / 8 = bits.length / 8) := by
  obtain ⟨hcnt, hshift, -⟩ := h
  rw [bitsToBytes_concat, List.length_append, List.length_singleton]
  obtain ⟨hds, hs⟩ | ⟨hds, hs⟩ := Machine.giveBit_cases emitByte b (s.slotPopped rest buf)
  · have hlast : bits.length % 8 = 7 := hcnt ▸ hds
    refine .inl ⟨_, if_pos hlast, ?_, by omega, by omega⟩
    rw [hs, List.foldl_append, ← hshift]
    rfl
  · have hwait : bits.length % 8 ≠ 7 := hcnt ▸ hds
    exact .inr ⟨if_neg hwait, hs, by omega⟩

/-! ### Slots of a buffer -/

/-- The first slot of a buffer gives the first bit (R155). -/
theorem demodulate_slot {S : Type} (num : Numerics S) {c : RxCfg} (hregion : c.nTone ≤ c.nSlot) (hpos : 0 < c.nSlot)
    {xs : List S} (hlen : xs.length = c.nSlot) (ys : List S) :
    demodulate num c (xs ++ ys) = c.classify num (xs.take c.nTone) :: demodulate num c ys := by
  have hcount : (xs ++ ys).length / c.nSlot = ys.length / c.nSlot + 1 := by
    rw [List.length_append, hlen, Nat.add_div_left _ hpos]
  have hfirst : c.region (xs ++ ys) 0 = xs.take c.nTone := by
    rw [RxCfg.region, Nat.zero_mul, List.drop_zero, List.take_append_of_le_length (by omega)]
  have hlater : ∀ j, c.region (xs ++ ys) (j + 1) = c.region ys j := fun j => by
    rw [RxCfg.region, RxCfg.region, Nat.succ_mul, Nat.add_comm, ← hlen, List.drop_length_add_append]
  rw [demodulate, hcount, List.range_succ_eq_map, List.map_cons, List.map_map, hfirst]
  congr 1
  exact List.map_congr_left fun j _ => by rw [Function.comp_apply, hlater]

/-- The commands that run over a whole buffer of samples: `RXRAW` and `RXFRAME` (R168, R186). -/
def RxOp.streamsSamples : RxOp → Bool
  | .rxraw | .rxframe => true
  | .idle | .rxslot | .rxflush | .hparse => false

theorem usesCfg_of_streamsSamples {op : RxOp} (h : op.streamsSamples = true) :
    op.usesCfg = true ∧ op ≠ .rxslot := by
  cases op with
  | rxraw | rxframe => exact ⟨rfl, nofun⟩
  | idle | rxslot | rxflush | hparse => cases h

/-- What is said of the states between slots in terms of the bits given so far, for the induction over the slots of a buffer: it
does not look at `RXS`, `rx_k` and `rx_buf`, a new bit extends it, and after a failure the bits are only counted past. -/
structure SlotInvariant (c : RxCfg) (P : List Bool → State → Prop) : Prop where
  streams : ∀ {bits s}, P bits s → s.rx.op.streamsSamples = true ∧ s.rx.cfg = c
  mid : ∀ {bits s} (rest : List (Item Sample)) (k : Nat) (buf : List Sample), P bits s → P bits (s.mid rest k buf)
  bit : ∀ {bits s} (b : Bool) (rest : List (Item Sample)) (buf : List Sample), P bits s → s.rx.fail = false →
    P (bits ++ [b]) (giveBit emitByte b (s.slotPopped rest buf))
  skip : ∀ {bits s} (b : Bool), P bits s → s.rx.fail = true → P (bits ++ [b]) s

/-- After a failure the rest of the buffer is dropped (R227). -/
theorem rxRun_drop (num : Numerics Sample) (samples : List Sample) (rest : List (Item Sample)) {s : State}
    (hop : s.rx.op.usesCfg = true) (hfail : s.rx.fail = true) (hrxs : s.rxs = samples.map .data ++ rest) :
    rxRun num samples.length s = s.mid rest s.rx.k s.rx.buf := by
  induction samples generalizing s with
  | nil =>
    have hrest : s.rxs = rest := hrxs
    rw [← hrest]
    rfl
  | cons x samples ih =>
    have hstep : rxStep num s = { s with rxs := samples.map .data ++ rest } := by
      rw [rxStep_samples hop, sampleStep, hrxs]
      exact if_pos hfail
    rw [List.length_cons, rxRun, hstep]
    exact ih (s := { s with rxs := _ }) hop hfail rfl

/-- The bits of the skipped slots extend the invariant after a failure. -/
theorem SlotInvariant.skip_all {c : RxCfg} {P : List Bool → State → Prop} (hP : SlotInvariant c P) {s : State}
    (more : List Bool) {bits : List Bool} (h : P bits s) (hfail : s.rx.fail = true) : P (bits ++ more) s := by
  induction more generalizing bits with
  | nil => rwa [List.append_nil]
  | cons b more ih =>
    rw [List.append_cons]
    exact ih (hP.skip b h hfail)

/-- A run over the samples before `rest` extends the invariant by the bits of their whole slots. -/
theorem SlotInvariant.run {c : RxCfg} {P : List Bool → State → Prop} (hP : SlotInvariant c P) (num : Numerics Sample)
    (hregion : c.nTone ≤ c.nSlot) (hpos : 0 < c.nSlot) (samples : List Sample) (rest : List (Item Sample))
    {bits : List Bool} {s : State} (h : P bits s) (hk : s.rx.k = 0) (hrxs : s.rxs = samples.map .data ++ rest) :
    P (bits ++ demodulate num c samples) (rxRun num samples.length s)
      ∧ (rxRun num samples.length s).rxs = rest := by
  obtain ⟨hop, hcfg⟩ := hP.streams h
  obtain ⟨huses, hslot⟩ := usesCfg_of_streamsSamples hop
  by_cases hfail : s.rx.fail = true
  · rw [rxRun_drop num samples rest huses hfail hrxs]
    exact ⟨hP.mid _ _ _ (hP.skip_all _ h hfail), rfl⟩
  have hframing : s.Framing [] := ⟨huses, by simpa using hfail, hk, by simp⟩
  by_cases hshort : samples.length < c.nSlot
  · obtain ⟨buf, hrun, -⟩ := rxRun_partial num samples [] rest s hframing (by simpa [hcfg] using hshort) hrxs
    rw [hrun, demodulate_of_length_lt num c hshort, List.append_nil]
    exact ⟨hP.mid _ _ _ h, rfl⟩
  obtain ⟨xs, ys, rfl, hlen⟩ : ∃ xs ys, samples = xs ++ ys ∧ xs.length = c.nSlot :=
    ⟨_, _, (List.take_append_drop c.nSlot samples).symm, List.length_take_of_le (not_lt.mp hshort)⟩
  obtain ⟨buf, hrun⟩ := rxRun_slot num xs (ys.map .data ++ rest) s hframing (by rw [hcfg, hlen]) (by rw [hcfg]; exact hpos)
    (by rw [hcfg]; exact hregion) (by rw [hrxs, List.map_append, List.append_assoc])
  dsimp only at hrun
  rw [if_neg hslot, hcfg] at hrun
  have hbit := hP.bit (c.classify num (xs.take c.nTone)) (ys.map .data ++ rest) buf h (by simpa using hfail)
  obtain ⟨-, -, hrxs', -⟩ := giveBit_effect (c.classify num (xs.take c.nTone)) (s.slotPopped (ys.map .data ++ rest) buf)
  have hnext := hP.run num hregion hpos ys rest hbit (by rw [giveBit_rx]; rfl) hrxs'
  rw [List.append_assoc] at hnext
  rw [List.length_append, rxRun_add, hrun, demodulate_slot num hregion hpos hlen]
  exact hnext
termination_by samples.length
decreasing_by
  subst_vars
  rw [List.length_append]
  omega

/-! ### From acceptance to completion -/

theorem acceptance_rxFrame {i : Instr} (hi : i.commandClass = .rx) (s : State) : RxFrame s (acceptance i s) := by
  rw [(acceptance_rx hi s).1]
  rfl

/-- A run of an accepted command of `RX` that ends in a completion: the command completes, and nothing but what is `RX`'s has
changed. -/
theorem completes_of_rxRun {num : Numerics Sample} {i : Instr} {s u : State} (hi : i.commandClass = .rx) {n : Nat}
    (hrun : rxRun num n (acceptance i s) = u.completeRx) :
    RxCompletes num (acceptance i s) u.completeRx ∧ RxFrame s u.completeRx := by
  obtain ⟨-, hbusy, -⟩ := acceptance_rx hi s
  exact ⟨.of_run hrun hbusy rfl rfl rfl, hrun ▸ (acceptance_rxFrame hi s).trans (rxRun_frame num n _)⟩

/-- A command of `RX` finds no obstacle: no error is recorded, `RX` is idle and the configuration is valid if it is used. -/
theorem accepts_of_rxIdle {i : Instr} {s : State} (hi : i.commandClass = .rx) (herr : s.err = .noError)
    (hidle : s.rx.busy = false) (hcfg : i.usesCfg = true → cfgchk s.cfg = 0#32) : s.Accepts i where
  engine := by rw [hi]; nofun
  noError := herr
  idle := by rw [hi]; exact hidle
  valid := hcfg

/-! ### RXFLUSH and RXSLOT -/

/-- Settles O26: the accepted command's one step empties the deserializer, pushes `END` and completes. -/
theorem rxflushDropsThePartialByte : Obligations.RxflushDropsThePartialByte := by
  intro num s herr hidle
  have hrun : rxRun num 1 (acceptance .rxflush s)
      = (((acceptance .rxflush s).clearDeserializer).pushRxd .fin).completeRx := rfl
  obtain ⟨hcompletes, hframe⟩ := completes_of_rxRun rfl hrun
  exact ⟨_, _, exec_of_accepts (accepts_of_rxIdle rfl herr hidle nofun), rfl, rfl, hcompletes, hframe, rfl, rfl, rfl, rfl,
    rfl, rfl, rfl, rfl, rfl, rfl, rfl⟩

theorem acceptance_rxslot_framing (s : State) : (acceptance .rxslot s).Framing [] :=
  ⟨rfl, rfl, rfl, by simp⟩

/-- A bit of `RXSLOT` goes to the deserializer, and a whole byte to `RXD` (R135, R170). -/
theorem giveBit_of_rxslot (b : Bool) {s : State} (hop : s.rx.op = .rxslot) (hds : s.rx.dsCnt ≤ 7) :
    giveBit emitByte b s = { s.shifted b ((s.rx.dsCnt + 1) % 8) with
      rxd := s.rxd ++ if s.rx.dsCnt = 7 then [.data (shiftIn s.rx.dsShift b)] else [] } := by
  obtain ⟨h7, hs⟩ | ⟨h7, hs⟩ := giveBit_cases emitByte b s
  · have hemit : emitByte (shiftIn s.rx.dsShift b) (s.shifted b 0)
        = (s.shifted b 0).pushRxd (.data (shiftIn s.rx.dsShift b)) := by
      simp only [emitByte, State.shifted, hop]
    rw [hs, hemit, if_pos h7, h7]
    rfl
  · rw [hs, if_neg h7, Nat.mod_eq_of_lt (by omega), List.append_nil]
    rfl

/-- Settles O24: the framer pops the slot and gives its bit, and `RXSLOT` completes with it. -/
theorem rxslotClassifiesOneSlot : Obligations.RxslotClassifiesOneSlot := by
  intro num s samples rest herr hidle hcfg hds hlen hrxs
  obtain ⟨buf, hrun⟩ := rxRun_slot num samples rest (acceptance .rxslot s) (acceptance_rxslot_framing s) hlen
    (nSlot_pos hcfg) (nTone_le_nSlot s.cfg) hrxs
  dsimp only at hrun
  rw [if_pos (by rfl), giveBit_of_rxslot _ (by rfl) (by exact hds)] at hrun
  obtain ⟨hcompletes, hframe⟩ := completes_of_rxRun rfl hrun
  exact ⟨_, _, exec_of_accepts (accepts_of_rxIdle rfl herr hidle fun _ => hcfg), rfl, rfl, rfl, hcompletes, hframe, rfl,
    rfl, rfl, rfl, rfl, (BitVec.zero_add 1#32), rfl, rfl, rfl, rfl, rfl⟩

/-- Settles O25: the framer pops what there is of the slot, and the `END` completes `RXSLOT` without a bit. -/
theorem rxslotAtTheEndProducesNoBit : Obligations.RxslotAtTheEndProducesNoBit := by
  intro num s samples rest herr hidle hcfg hshort hrxs
  have hinput : s.rxs = samples.map .data ++ .fin :: rest := by simpa [buffer] using hrxs
  obtain ⟨buf, hrun, -⟩ := rxRun_partial num samples [] (.fin :: rest) (acceptance .rxslot s)
    (acceptance_rxslot_framing s) (by rw [List.length_nil, Nat.zero_add]; exact hshort) hinput
  have hend : rxRun num (samples.length + 1) (acceptance .rxslot s) = State.completeRx
      { (acceptance .rxslot s).mid rest 0 buf with
        rx := { ((acceptance .rxslot s).mid rest 0 buf).rx with eos := true } } := by
    rw [rxRun_add, hrun]
    rfl
  obtain ⟨hcompletes, hframe⟩ := completes_of_rxRun rfl hend
  exact ⟨_, _, exec_of_accepts (accepts_of_rxIdle rfl herr hidle fun _ => hcfg), hcompletes, hframe, rfl, rfl, rfl, rfl,
    rfl, rfl, rfl, rfl, rfl, rfl, rfl⟩

end Sys2Proof.Machine

/-! PROOF. `RXRAW` pushes the packed bits of the whole slots (R168, R170). -/

namespace Sys2Proof.Machine

/-- `RXRAW`, started from `s₀`, has delivered the bytes of `bits`. -/
structure RawReceived (s₀ : State) (bits : List Bool) (s : State) : Prop where
  op : s.rx.op = .rxraw
  cfg : s.rx.cfg = RxCfg.of s₀.cfg
  alive : s.rx.fail = false
  unpacked : Unpacked s bits
  bytes : s.rx.bytes = BitVec.ofNat 32 (bits.length / 8)
  hp : s.hp = { s₀.hp with state := .off, total := bits.length / 8 }
  rxd : s.rxd = s₀.rxd ++ (bitsToBytes bits).map .data
  rxb : s.rxb = s₀.rxb
  err : s.err = s₀.err
  errInfo : s.errInfo = s₀.errInfo

theorem rawReceived_nil (s₀ : State) : RawReceived s₀ [] (acceptance .rxraw s₀) :=
  ⟨rfl, rfl, rfl, ⟨rfl, rfl, rfl⟩, rfl, rfl, (List.append_nil _).symm, rfl, rfl, rfl⟩

/-- A bit that completes a byte has it counted and pushed. -/
theorem RawReceived.bit {s₀ s : State} {bits : List Bool} (h : RawReceived s₀ bits s) (b : Bool)
    (rest : List (Item Sample)) (buf : List Sample) :
    RawReceived s₀ (bits ++ [b]) (giveBit emitByte b (s.slotPopped rest buf)) := by
  have hunpacked := h.unpacked.giveBit b rest buf
  obtain ⟨byte, hbytes, hs, hlen, -⟩ | ⟨hbytes, hs, hlen⟩ := h.unpacked.giveBit_cases b rest buf
  · have hemit : emitByte byte ((s.slotPopped rest buf).shifted b 0)
        = (countByte ((s.slotPopped rest buf).shifted b 0)).pushRxd (.data byte) := by
      simp only [emitByte, State.shifted, State.slotPopped, h.op]
    rw [hs, hemit] at hunpacked ⊢
    refine ⟨h.op, h.cfg, h.alive, hunpacked, ?_, ?_, ?_, h.rxb, h.err, h.errInfo⟩
    · rw [hlen, BitVec.ofNat_add, ← h.bytes]
      rfl
    · rw [hlen]
      exact congrArg (fun p : Parser => { p with total := p.total + 1 }) h.hp
    · rw [hbytes, List.map_append, ← List.append_assoc, ← h.rxd]
      rfl
  · rw [hs] at hunpacked ⊢
    exact ⟨h.op, h.cfg, h.alive, hunpacked, by rw [hlen]; exact h.bytes, by rw [hlen]; exact h.hp,
      by rw [hbytes]; exact h.rxd, h.rxb, h.err, h.errInfo⟩

theorem rawReceived_slotInvariant (s₀ : State) : SlotInvariant (RxCfg.of s₀.cfg) (RawReceived s₀) where
  streams h := ⟨by rw [h.op]; rfl, h.cfg⟩
  mid _ _ _ h := ⟨h.op, h.cfg, h.alive, ⟨h.unpacked.dsCnt, h.unpacked.dsShift, h.unpacked.pos⟩, h.bytes, h.hp, h.rxd,
    h.rxb, h.err, h.errInfo⟩
  bit b rest buf h _ := h.bit b rest buf
  skip _ h hfail := by rw [h.alive] at hfail; cases hfail

/-- `RXRAW` over the samples before `rest`. -/
theorem rxRun_raw (num : Numerics Sample) {s : State} (hcfg : cfgchk s.cfg = 0#32) (samples : List Sample)
    (rest : List (Item Sample)) (hrxs : s.rxs = samples.map .data ++ rest) :
    RawReceived s (demodulate num (RxCfg.of s.cfg) samples) (rxRun num samples.length (acceptance .rxraw s))
      ∧ (rxRun num samples.length (acceptance .rxraw s)).rxs = rest :=
  (rawReceived_slotInvariant s).run num (nTone_le_nSlot s.cfg) (nSlot_pos hcfg) samples rest (rawReceived_nil s) rfl hrxs

/-- The last step of a run. -/
theorem rxRun_succ (num : Numerics Sample) (n : Nat) (s : State) :
    rxRun num (n + 1) s = rxStep num (rxRun num n s) :=
  rxRun_add num n 1 s

/-- At the `END` of the samples `RXRAW` drops the waiting bits, pushes `END` and completes (R168). -/
theorem rxStep_rawEnd (num : Numerics Sample) {s : State} {rest : List (Item Sample)} (hop : s.rx.op = .rxraw)
    (hrxs : s.rxs = .fin :: rest) :
    rxStep num s = State.completeRx
      { s with rxs := rest, rxd := s.rxd ++ [.fin], rx := { s.rx with eos := true, k := 0, dsCnt := 0 } } := by
  rw [rxStep_samples (by rw [hop]; rfl), sampleStep, hrxs]
  simp only [endOfSamples, hop]
  rfl

/-- Settles O27: the slots of the buffer give the bits of demodulate, and the deserializer packs them. -/
theorem rxrawDemodulatesTheBuffer : Obligations.RxrawDemodulatesTheBuffer := by
  intro num s samples rest herr hidle hcfg hrxs
  obtain ⟨h, hfin⟩ := rxRun_raw num hcfg samples (.fin :: rest) (by simpa [buffer] using hrxs)
  have hend := (rxRun_succ num samples.length (acceptance .rxraw s)).trans (rxStep_rawEnd num h.op hfin)
  obtain ⟨hcompletes, hframe⟩ := completes_of_rxRun rfl hend
  have hpos := h.unpacked.pos
  have hbytes := h.bytes
  have hhp := h.hp
  rw [demodulate_length] at hpos hbytes hhp
  refine ⟨_, _, exec_of_accepts (accepts_of_rxIdle rfl herr hidle fun _ => hcfg), rfl, rfl, rfl, hcompletes, hframe, rfl,
    h.rxb, ?_, h.err, h.errInfo, hhp, hpos, hbytes, rfl, rfl⟩
  rw [buffer, ← List.append_assoc, ← h.rxd]
  rfl

end Sys2Proof.Machine

/-! PROOF. The header parser refines parse_frame: what it holds after any number of bytes, and what the end of its input makes of
it (R178, R184, R188). -/

namespace Sys2Proof.Machine

/-! ### The fields of a frame -/

@[simp] theorem be32Value_concat (bytes : List Byte) (b : Byte) :
    be32Value (bytes ++ [b]) = be32Value bytes * 256 + b.toNat := by
  rw [be32Value, List.foldl_append]
  rfl

theorem be32Value_lt (bytes : List Byte) : be32Value bytes < 256 ^ bytes.length := by
  induction bytes using List.reverseRecOn with
  | nil => decide
  | append_singleton bytes b ih =>
    have hb : b.toNat < 256 := b.isLt
    rw [be32Value_concat, List.length_append, List.length_singleton, pow_succ]
    omega

/-- A length field has 32 bits. -/
theorem be32Value_lt_of_field {field : List Byte} (h : field.length = 4) : be32Value field < 2 ^ 32 := by
  have hlt := be32Value_lt field
  rwa [h] at hlt

theorem field_toNat {field : List Byte} (h : field.length = 4) :
    (BitVec.ofNat 32 (be32Value field)).toNat = be32Value field := by
  rw [BitVec.toNat_ofNat, Nat.mod_eq_of_lt (be32Value_lt_of_field h)]

/-- The length register takes a byte of the field (R184). -/
theorem lengthRegister_byte (n : Nat) (b : Byte) :
    (BitVec.ofNat 32 n <<< 8) ||| b.setWidth 32 = BitVec.ofNat 32 (n * 256 + b.toNat) := by
  have hdisjoint : (BitVec.ofNat 32 n <<< 8) &&& b.setWidth 32 = 0#32 := by
    ext i hi
    by_cases h : i < 8
    · simp [h]
    · simp [BitVec.getLsbD_of_ge b i (not_lt.mp h)]
  have hb : b.toNat < 256 := b.isLt
  rw [← BitVec.add_eq_or_of_and_eq_zero _ _ hdisjoint]
  apply BitVec.eq_of_toNat_eq
  simp [Nat.shiftLeft_eq]

/-- What parse_frame says of a frame whose header is whole: the checks of the name (R178). -/
def nameOutcome (name payload : List Byte) : Parsed :=
  if !utf8Ok name then .err .invalidMethodName name.length
  else
    match Method.all.find? (fun t => t.name = name) with
    | none => .err .unsupportedMethod name.length
    | some t => .ok t payload

/-- `field` is the length field of a header, and `name` has the length it gives. -/
structure WholeHeader (field name : List Byte) : Prop where
  field_length : field.length = 4
  name_length : name.length = be32Value field

theorem parseFrame_of_length_lt {bytes : List Byte} (h : bytes.length < 4) :
    parseFrame bytes = .err .frameTooShort bytes.length :=
  if_pos h

theorem parseFrame_of_name_short {field name : List Byte} (hfield : field.length = 4)
    (h : name.length < be32Value field) :
    parseFrame (field ++ name) = .err .frameTooShort (4 + name.length) := by
  have hlen : (field ++ name).length = 4 + name.length := by rw [List.length_append, hfield]
  have htake : (field ++ name).take 4 = field := List.take_left' hfield
  rw [parseFrame, hlen, htake, if_neg (by omega), if_pos (by omega)]

theorem parseFrame_whole {field name : List Byte} (h : WholeHeader field name) (payload : List Byte) :
    parseFrame (field ++ name ++ payload) = nameOutcome name payload := by
  obtain ⟨hfield, hname⟩ := h
  have hlen : (field ++ name ++ payload).length = 4 + name.length + payload.length := by
    rw [List.length_append, List.length_append, hfield]
  have htake : (field ++ name ++ payload).take 4 = field := by
    rw [List.append_assoc]
    exact List.take_left' hfield
  have hdrop : ((field ++ name ++ payload).drop 4).take name.length = name := by
    rw [List.append_assoc, List.drop_left' hfield]
    exact List.take_left
  have hrest : (field ++ name ++ payload).drop (4 + name.length) = payload :=
    List.drop_left' (by rw [List.length_append, hfield])
  rw [parseFrame, hlen, htake, ← hname, if_neg (by omega), if_neg (by omega), hdrop, hrest]
  rfl

/-- The outcome of a frame whose header is whole: accepted with the payload, or one of the two name errors. -/
theorem nameOutcome_cases (name : List Byte) :
    (utf8Ok name = true ∧ ∃ t, Method.all.find? (fun t => t.name = name) = some t
        ∧ ∀ payload, nameOutcome name payload = .ok t payload)
      ∨ ∃ c, (c = .invalidMethodName ∧ utf8Ok name = false
          ∨ c = .unsupportedMethod ∧ utf8Ok name = true ∧ Method.all.find? (fun t => t.name = name) = none)
        ∧ ∀ payload, nameOutcome name payload = .err c name.length := by
  unfold nameOutcome
  cases hutf8 : utf8Ok name with
  | false => exact .inr ⟨_, .inl ⟨rfl, rfl⟩, fun _ => rfl⟩
  | true =>
    cases hfind : Method.all.find? (fun t => t.name = name) with
    | none => exact .inr ⟨_, .inr ⟨rfl, rfl, rfl⟩, fun _ => rfl⟩
    | some t => exact .inl ⟨rfl, t, rfl, fun _ => rfl⟩

theorem headerLength_of_length_lt {bytes : List Byte} (h : bytes.length < 4) : headerLength bytes = 0#32 :=
  if_pos h

theorem headerLength_append {field : List Byte} (hfield : field.length = 4) (more : List Byte) :
    headerLength (field ++ more) = BitVec.ofNat 32 (be32Value field) := by
  have hlen : ¬ (field ++ more).length < 4 := by
    rw [List.length_append]
    omega
  rw [headerLength, if_neg hlen, List.take_left' hfield]

/-! ### The names -/

theorem tagBit_getLsbD (u t : Method) : (1#4 <<< u.tag.toNat).getLsbD t.tag.toNat = decide (u = t) := by
  cases u <;> cases t <;> decide

theorem mem_all (t : Method) : t ∈ Method.all := by
  cases t <;> decide

/-- Collecting one bit a method sets the bits of those that pass. -/
theorem foldl_tagBits (pass : Method → Prop) [DecidablePred pass] (methods : List Method) (m : BitVec 4) (t : Method) :
    (methods.foldl (fun m u => if pass u then m ||| (1#4 <<< u.tag.toNat) else m) m).getLsbD t.tag.toNat = true
      ↔ m.getLsbD t.tag.toNat = true ∨ (t ∈ methods ∧ pass t) := by
  induction methods generalizing m with
  | nil => simp
  | cons u methods ih =>
    rw [List.foldl_cons, ih]
    split
    · rename_i hu
      rw [BitVec.getLsbD_or, Bool.or_eq_true, tagBit_getLsbD, decide_eq_true_iff, List.mem_cons]
      grind
    · rename_i hu
      rw [List.mem_cons]
      grind

theorem nameMask_getLsbD (cnt : Nat) (b : Byte) (t : Method) :
    (nameMask cnt b).getLsbD t.tag.toNat = true ↔ t.name[cnt]? = some b := by
  rw [nameMask, foldl_tagBits]
  simp [mem_all]

/-- A name that begins with `name` begins with `name ++ [b]` when its next byte is `b`. -/
theorem take_concat_iff (full name : List Byte) (b : Byte) :
    full.take (name ++ [b]).length = name ++ [b] ↔ full.take name.length = name ∧ full[name.length]? = some b := by
  rw [List.length_append, List.length_singleton, List.take_add_one]
  cases h : full[name.length]? with
  | none =>
    have hlen := List.getElem?_eq_none_iff.mp h
    constructor
    · intro heq
      have := congrArg List.length heq
      simp at this
      omega
    · rintro ⟨-, hb⟩
      cases hb
  | some c =>
    have hlt : name.length < full.length := (List.getElem?_eq_some_iff.mp h).1
    have htake : (full.take name.length).length = name.length := List.length_take_of_le hlt.le
    rw [Option.toList_some]
    constructor
    · intro heq
      obtain ⟨hname, hb⟩ := List.append_inj heq htake
      exact ⟨hname, congrArg some (List.singleton_inj.mp hb)⟩
    · rintro ⟨hname, hb⟩
      rw [hname, Option.some.inj hb]

theorem find?_name_eq_recognised {p : Parser} {name : List Byte} (hlen : p.len.toNat = name.length)
    (hmatched : ∀ t : Method, p.matched.getLsbD t.tag.toNat = true ↔ t.name.take name.length = name) :
    p.recognised = Method.all.find? (fun t => t.name = name) := by
  have hpass : ∀ t : Method, (p.matched.getLsbD t.tag.toNat && decide (t.name.length = p.len.toNat))
      = decide (t.name = name) := fun t => by
    rw [Bool.eq_iff_iff, Bool.and_eq_true, hmatched, decide_eq_true_iff, decide_eq_true_iff, hlen]
    constructor
    · rintro ⟨htake, hlength⟩
      rwa [← hlength, List.take_length] at htake
    · rintro rfl
      exact ⟨List.take_length, rfl⟩
  rw [Parser.recognised]
  simp only [hpass]

end Sys2Proof.Machine

/-! PROOF. What the header parser holds after any number of bytes of a frame (R184). -/

namespace Sys2Proof.Machine

/-! ### What the parser holds -/

/-- What the parser reads and writes of a state. -/
structure ParserView where
  hp : Parser
  bytes : Word
  fail : Bool
  rxd : List (Item Byte)
  err : Cause
  errInfo : Word

def State.view (s : State) : ParserView :=
  ⟨s.hp, s.rx.bytes, s.rx.fail, s.rxd, s.err, s.errInfo⟩

/-- The header is being read: `n` bytes are counted, and nothing is delivered, recorded or raised since `s₀`. -/
structure Undecided (s₀ : State) (n : Nat) (v : ParserView) : Prop where
  alive : v.fail = false
  method : v.hp.method = none
  total : v.hp.total = n
  bytes : v.bytes = BitVec.ofNat 32 n
  rxd : v.rxd = s₀.rxd
  err : v.err = .noError
  errInfo : v.errInfo = s₀.errInfo

/-- The parser in the length field, of which it has taken `bytes`. -/
structure InLength (s₀ : State) (bytes : List Byte) (v : ParserView) : Prop where
  short : bytes.length < 4
  undecided : Undecided s₀ bytes.length v
  state : v.hp.state = .len
  cnt : v.hp.cnt = bytes.length
  len : v.hp.len = BitVec.ofNat 32 (be32Value bytes)
  u8 : v.hp.u8 = .acc
  matched : v.hp.matched = 0b1111#4
  hdrLen : v.hp.hdrLen = 0#32

/-- The parser has taken the length field and the bytes `name` of the name. -/
structure NameRead (s₀ : State) (field name : List Byte) (v : ParserView) : Prop where
  field_length : field.length = 4
  undecided : Undecided s₀ (4 + name.length) v
  len : v.hp.len = BitVec.ofNat 32 (be32Value field)
  hdrLen : v.hp.hdrLen = BitVec.ofNat 32 (be32Value field)
  u8 : v.hp.u8 = name.foldl u8Step .acc
  matched : ∀ t : Method, v.hp.matched.getLsbD t.tag.toNat = true ↔ t.name.take name.length = name

/-- The parser in the name, of which it has taken `name`. -/
structure InName (s₀ : State) (field name : List Byte) (v : ParserView) : Prop where
  read : NameRead s₀ field name v
  short : name.length < be32Value field
  state : v.hp.state = .name
  cnt : v.hp.cnt = name.length

/-- The parser has accepted the header, and passes the payload on. -/
structure Accepted (s₀ : State) (field name payload : List Byte) (t : Method) (v : ParserView) : Prop where
  state : v.hp.state = .payload
  alive : v.fail = false
  method : v.hp.method = some t
  total : v.hp.total = 4 + name.length + payload.length
  bytes : v.bytes = BitVec.ofNat 32 (4 + name.length + payload.length)
  hdrLen : v.hp.hdrLen = BitVec.ofNat 32 (be32Value field)
  rxd : v.rxd = s₀.rxd ++ payload.map .data
  err : v.err = .noError
  errInfo : v.errInfo = s₀.errInfo

/-- The parser has failed in the name: the error is raised and nothing is delivered. -/
structure Rejected (s₀ : State) (field name : List Byte) (c : Cause) (v : ParserView) : Prop where
  state : v.hp.state = .fail
  failed : v.fail = true
  method : v.hp.method = none
  total : v.hp.total = 4 + name.length
  bytes : v.bytes = BitVec.ofNat 32 (4 + name.length)
  hdrLen : v.hp.hdrLen = BitVec.ofNat 32 (be32Value field)
  rxd : v.rxd = s₀.rxd
  err : v.err = c
  errInfo : v.errInfo = BitVec.ofNat 32 name.length

/-- What the parser, started in `s₀`, holds after `bytes`: it is in the length field, in the name, in the payload of an accepted
header, or has failed in the name and drops the rest. -/
inductive Heard (s₀ : State) : List Byte → ParserView → Prop
  | length {bytes : List Byte} {v : ParserView} (h : InLength s₀ bytes v) : Heard s₀ bytes v
  | name {field name : List Byte} {v : ParserView} (h : InName s₀ field name v) : Heard s₀ (field ++ name) v
  | accepted {field name payload : List Byte} {t : Method} {v : ParserView} (whole : WholeHeader field name)
      (outcome : ∀ p, nameOutcome name p = .ok t p) (h : Accepted s₀ field name payload t v) :
      Heard s₀ (field ++ name ++ payload) v
  | rejected {field name dropped : List Byte} {c : Cause} {v : ParserView} (whole : WholeHeader field name)
      (outcome : ∀ p, nameOutcome name p = .err c name.length)
      (cause : c = .invalidMethodName ∨ c = .unsupportedMethod) (h : Rejected s₀ field name c v) :
      Heard s₀ (field ++ name ++ dropped) v

/-! ### One more byte -/

/-- At the acceptance of a command that parses nothing is heard. -/
theorem heard_nil {i : Instr} (hi : i = .rxframe ∨ i = .hparse) {s : State} (herr : s.err = .noError) :
    Heard s [] (acceptance i s).view := by
  obtain rfl | rfl := hi <;>
    exact .length ⟨by decide, ⟨rfl, rfl, rfl, rfl, rfl, herr, rfl⟩, rfl, rfl, rfl, rfl, rfl, rfl⟩

theorem Undecided.counted {s₀ s : State} {n : Nat} (h : Undecided s₀ n s.view) :
    Undecided s₀ (n + 1) (countByte s).view :=
  { h with
    total := congrArg (· + 1) h.total
    bytes := (congrArg (· + 1#32) h.bytes).trans (BitVec.ofNat_add ..).symm }

/-- With the last byte of the name the outcome of parse_frame is decided. -/
theorem NameRead.done {s₀ s : State} {field name : List Byte} (h : NameRead s₀ field name s.view)
    (hname : name.length = be32Value field) : Heard s₀ (field ++ name) (nameDone s).view := by
  have hwhole : WholeHeader field name := ⟨h.field_length, hname⟩
  have hlen : s.hp.len.toNat = name.length := by
    rw [hname, ← field_toNat h.field_length, ← h.len]
    rfl
  have hrecognised : s.hp.recognised = _ := find?_name_eq_recognised hlen h.matched
  have hutf8 : utf8Ok name = true ↔ s.hp.u8 = .acc := by
    rw [utf8Ok, decide_eq_true_iff, ← h.u8]
    rfl
  have hu := h.undecided
  have hfail : ∀ c, Rejected s₀ field name c (failHeader c s).view := fun c => by
    have herr : s.err = .noError := hu.err
    constructor <;> simp [State.view, failHeader, herr, hlen]
    · exact hu.method
    · exact hu.total
    · exact hu.bytes
    · exact h.hdrLen
    · exact hu.rxd
  rw [← List.append_nil (field ++ name)]
  obtain ⟨hok, t, hfind, hout⟩ | ⟨c, hbad, hout⟩ := nameOutcome_cases name
  · obtain ⟨hbad, -⟩ | ⟨-, hnone, -⟩ | ⟨t', -, hsome, hs⟩ := nameDone_cases s
    · exact absurd (hutf8.mp hok) hbad
    · rw [hrecognised, hfind] at hnone
      cases hnone
    · obtain rfl : t = t' := by
        rw [hrecognised, hfind] at hsome
        exact Option.some.inj hsome
      rw [hs]
      exact .accepted hwhole hout ⟨rfl, hu.alive, rfl, hu.total, hu.bytes, h.hdrLen,
        hu.rxd.trans (List.append_nil _).symm, hu.err, hu.errInfo⟩
  · have hs : nameDone s = failHeader c s := by
      obtain ⟨hu8, hs⟩ | ⟨hu8, -, hs⟩ | ⟨t', hu8, hsome, -⟩ := nameDone_cases s
      · obtain ⟨rfl, -⟩ | ⟨-, hok, -⟩ := hbad
        · exact hs
        · exact absurd (hutf8.mp hok) hu8
      · obtain ⟨-, hnot⟩ | ⟨rfl, -⟩ := hbad
        · rw [hutf8.mpr hu8] at hnot
          cases hnot
        · exact hs
      · obtain ⟨-, hnot⟩ | ⟨-, -, hnone⟩ := hbad
        · rw [hutf8.mpr hu8] at hnot
          cases hnot
        · rw [hrecognised, hnone] at hsome
          cases hsome
    rw [hs]
    exact .rejected hwhole hout (hbad.imp (·.1) (·.1)) (hfail c)

/-- The state in which the length field is whole and the name begins (R184). -/
def State.enterName (len : Word) (s : State) : State :=
  { s with hp := { s.hp with len := len, hdrLen := len, cnt := 0, state := .name } }

/-- A byte of the length field is one of the first three, or the last, after which a name of length 0 is already whole. -/
theorem lenByte_cases (b : Byte) (s : State) :
    (s.hp.cnt + 1 ≠ 4 ∧ lenByte b s =
        { s with hp := { s.hp with len := (s.hp.len <<< 8) ||| b.setWidth 32, cnt := s.hp.cnt + 1 } })
      ∨ (s.hp.cnt + 1 = 4 ∧ (s.hp.len <<< 8) ||| b.setWidth 32 = 0#32
        ∧ lenByte b s = nameDone (s.enterName ((s.hp.len <<< 8) ||| b.setWidth 32)))
      ∨ (s.hp.cnt + 1 = 4 ∧ (s.hp.len <<< 8) ||| b.setWidth 32 ≠ 0#32
        ∧ lenByte b s = s.enterName ((s.hp.len <<< 8) ||| b.setWidth 32)) := by
  unfold lenByte
  dsimp only
  split
  · split
    · exact .inr (.inl ⟨‹_›, ‹_›, rfl⟩)
    · exact .inr (.inr ⟨‹_›, ‹_›, rfl⟩)
  · exact .inl ⟨‹_›, rfl⟩

/-- The state after a byte of the name (R184). -/
def State.tookNameByte (b : Byte) (s : State) : State :=
  { s with hp := { s.hp with
      u8 := u8Step s.hp.u8 b, matched := s.hp.matched &&& nameMask s.hp.cnt b, cnt := s.hp.cnt + 1 } }

theorem nameByte_cases (b : Byte) (s : State) :
    (s.hp.cnt + 1 = s.hp.len.toNat ∧ nameByte b s = nameDone (s.tookNameByte b))
      ∨ (s.hp.cnt + 1 ≠ s.hp.len.toNat ∧ nameByte b s = s.tookNameByte b) := by
  unfold nameByte
  dsimp only
  split
  · exact .inl ⟨‹_›, rfl⟩
  · exact .inr ⟨‹_›, rfl⟩

/-- The length field being whole, the name begins with nothing read of it. -/
theorem Undecided.enterName {s₀ s : State} {field : List Byte} (hfield : field.length = 4)
    (h : Undecided s₀ 4 s.view) (hu8 : s.hp.u8 = .acc) (hmatched : s.hp.matched = 0b1111#4) :
    NameRead s₀ field [] (s.enterName (BitVec.ofNat 32 (be32Value field))).view where
  field_length := hfield
  undecided := { h with }
  len := rfl
  hdrLen := rfl
  u8 := hu8
  matched t := by
    have hbit : (0b1111#4).getLsbD t.tag.toNat = true := by cases t <;> rfl
    exact ⟨fun _ => rfl, fun _ => hmatched ▸ hbit⟩

/-- A byte of the length field. -/
theorem InLength.byte {s₀ s : State} {bytes : List Byte} (h : InLength s₀ bytes s.view) (b : Byte) :
    Heard s₀ (bytes ++ [b]) (hpByte b (countByte s)).view := by
  have hu := h.undecided.counted
  have hstate : s.hp.state = .len := h.state
  have hcnt : (countByte s).hp.cnt = bytes.length := h.cnt
  have hlength : (bytes ++ [b]).length = bytes.length + 1 := List.length_append
  have hlen : ((countByte s).hp.len <<< 8) ||| b.setWidth 32 = BitVec.ofNat 32 (be32Value (bytes ++ [b])) := by
    rw [be32Value_concat, ← lengthRegister_byte, ← h.len]
    rfl
  have hbyte : hpByte b (countByte s) = lenByte b (countByte s) := by simp [hpByte, hstate]
  have henter (hlast : bytes.length + 1 = 4) :=
    Undecided.enterName (s := countByte s) (hlength.trans hlast) (hlast ▸ hu) h.u8 h.matched
  rw [hbyte]
  obtain ⟨hmore, hs⟩ | ⟨hlast, hzero, hs⟩ | ⟨hlast, hpos, hs⟩ := lenByte_cases b (countByte s)
  · rw [hcnt] at hmore
    have hshort := h.short
    rw [hs, hlen]
    exact .length ⟨by omega, by rw [hlength]; exact { hu with }, hstate, by rw [hlength, ← hcnt]; rfl, rfl, h.u8, h.matched,
      h.hdrLen⟩
  · rw [hcnt] at hlast
    have hempty : 0 = be32Value (bytes ++ [b]) := by
      rw [← field_toNat (hlength.trans hlast), ← hlen, hzero]
      rfl
    have hheard := (henter hlast).done hempty
    rw [List.append_nil] at hheard
    rwa [hs, hlen]
  · rw [hcnt] at hlast
    have hname : 0 < be32Value (bytes ++ [b]) := by
      refine Nat.pos_of_ne_zero fun h0 => hpos ?_
      rw [hlen, h0]
    have hheard := Heard.name ⟨henter hlast, hname, rfl, rfl⟩
    rw [List.append_nil] at hheard
    rwa [hs, hlen]

/-- A byte of the name. -/
theorem InName.byte {s₀ s : State} {field name : List Byte} (h : InName s₀ field name s.view) (b : Byte) :
    Heard s₀ (field ++ name ++ [b]) (hpByte b (countByte s)).view := by
  have hu := h.read.undecided.counted
  have hstate : s.hp.state = .name := h.state
  have hcnt : (countByte s).hp.cnt = name.length := h.cnt
  have hshort := h.short
  have hlength : (name ++ [b]).length = name.length + 1 := List.length_append
  have hlen : (countByte s).hp.len.toNat = be32Value field := by
    rw [← field_toNat h.read.field_length, ← h.read.len]
    rfl
  have hbyte : hpByte b (countByte s) = nameByte b (countByte s) := by simp [hpByte, hstate]
  have hread : NameRead s₀ field (name ++ [b]) ((countByte s).tookNameByte b).view :=
    { field_length := h.read.field_length
      undecided := by rw [hlength]; exact { hu with }
      len := h.read.len
      hdrLen := h.read.hdrLen
      u8 := by
        rw [List.foldl_append, ← h.read.u8]
        rfl
      matched := fun t => by
        rw [take_concat_iff, ← h.read.matched t, ← nameMask_getLsbD, ← hcnt, ← Bool.and_eq_true, ← BitVec.getLsbD_and]
        rfl }
  rw [hbyte, List.append_assoc]
  obtain ⟨hlast, hs⟩ | ⟨hmore, hs⟩ := nameByte_cases b (countByte s)
  · rw [hcnt, hlen] at hlast
    rw [hs]
    exact hread.done (hlength.trans hlast)
  · rw [hcnt, hlen] at hmore
    rw [hs]
    exact .name ⟨hread, by omega, hstate, by rw [hlength, ← hcnt]; rfl⟩

/-- A byte of the payload. -/
theorem Accepted.byte {s₀ s : State} {field name payload : List Byte} {t : Method}
    (h : Accepted s₀ field name payload t s.view) (b : Byte) :
    Accepted s₀ field name (payload ++ [b]) t (hpByte b (countByte s)).view := by
  have hstate : s.hp.state = .payload := h.state
  have hbyte : hpByte b (countByte s) = (countByte s).pushRxd (.data b) := by simp [hpByte, hstate]
  have hlength : (payload ++ [b]).length = payload.length + 1 := List.length_append
  have htotal : s.hp.total = _ := h.total
  have hbytes : s.rx.bytes = _ := h.bytes
  have hrxd : s.rxd = _ := h.rxd
  rw [hbyte]
  refine ⟨hstate, h.alive, h.method, ?_, ?_, h.hdrLen, ?_, h.err, h.errInfo⟩
  · rw [hlength, ← Nat.add_assoc, ← htotal]
    rfl
  · rw [hlength, ← Nat.add_assoc, BitVec.ofNat_add, ← hbytes]
    rfl
  · rw [List.map_append, ← List.append_assoc, ← hrxd]
    rfl

/-- A byte that is counted and given to the parser extends what it has heard. -/
theorem Heard.byte {s₀ s : State} {bytes : List Byte} (h : Heard s₀ bytes s.view) (hfail : s.rx.fail = false) (b : Byte) :
    Heard s₀ (bytes ++ [b]) (hpByte b (countByte s)).view := by
  cases h with
  | length h => exact h.byte b
  | name h => exact h.byte b
  | accepted whole outcome h =>
    rw [List.append_assoc]
    exact .accepted whole outcome (h.byte b)
  | rejected whole outcome cause h =>
    have hfailed : s.rx.fail = true := h.failed
    rw [hfail] at hfailed
    cases hfailed

/-- After a failure a byte that is dropped extends what the parser has heard. -/
theorem Heard.drop {s₀ : State} {v : ParserView} {bytes : List Byte} (h : Heard s₀ bytes v) (hfail : v.fail = true)
    (b : Byte) : Heard s₀ (bytes ++ [b]) v := by
  cases h with
  | length h =>
    rw [h.undecided.alive] at hfail
    cases hfail
  | name h =>
    rw [h.read.undecided.alive] at hfail
    cases hfail
  | accepted whole outcome h =>
    rw [h.alive] at hfail
    cases hfail
  | rejected whole outcome cause h =>
    rw [List.append_assoc]
    exact .rejected whole outcome cause h

/-! ### The end of the input -/

/-- `rx_fail` and `H_FAIL` go together before the end of the input. -/
theorem Heard.fail_iff {s₀ : State} {v : ParserView} {bytes : List Byte} (h : Heard s₀ bytes v) :
    v.fail = true ↔ v.hp.state = .fail := by
  cases h with
  | length h => simp [h.undecided.alive, h.state]
  | name h => simp [h.read.undecided.alive, h.state]
  | accepted whole outcome h => simp [h.alive, h.state]
  | rejected whole outcome cause h => simp [h.failed, h.state]

/-- Before a failure every byte has been counted. -/
theorem Heard.total_of_alive {s₀ : State} {v : ParserView} {bytes : List Byte} (h : Heard s₀ bytes v)
    (hfail : v.fail = false) : v.hp.total = bytes.length := by
  cases h with
  | length h => exact h.undecided.total
  | name h => rw [h.read.undecided.total, List.length_append, h.read.field_length]
  | accepted whole outcome h =>
    rw [h.total, List.length_append, List.length_append, whole.field_length]
  | rejected whole outcome cause h =>
    rw [h.failed] at hfail
    cases hfail

/-- The slots that the outcome counts: all of them, or those of the bytes counted before a failure. -/
theorem Heard.slots {s₀ : State} {v : ParserView} {bytes : List Byte} (h : Heard s₀ bytes v) (m : Nat) :
    (parseFrame bytes).slots m = if v.fail = true then 8 * v.hp.total else m := by
  cases h with
  | length h =>
    rw [parseFrame_of_length_lt h.short, h.undecided.alive]
    rfl
  | name h =>
    rw [parseFrame_of_name_short h.read.field_length h.short, h.read.undecided.alive]
    rfl
  | accepted whole outcome h =>
    rw [parseFrame_whole whole, outcome, h.alive]
    rfl
  | rejected whole outcome cause h =>
    rw [parseFrame_whole whole, outcome, h.failed, if_pos rfl, h.total]
    obtain rfl | rfl := cause <;> rfl

/-- The bytes on `RXD` are the payload of the outcome. -/
theorem Heard.rxd {s₀ : State} {v : ParserView} {bytes : List Byte} (h : Heard s₀ bytes v) :
    v.rxd = s₀.rxd ++ (parseFrame bytes).payload.map .data := by
  cases h with
  | length h =>
    rw [parseFrame_of_length_lt h.short, h.undecided.rxd]
    exact (List.append_nil _).symm
  | name h =>
    rw [parseFrame_of_name_short h.read.field_length h.short, h.read.undecided.rxd]
    exact (List.append_nil _).symm
  | accepted whole outcome h =>
    rw [parseFrame_whole whole, outcome, h.rxd]
    rfl
  | rejected whole outcome cause h =>
    rw [parseFrame_whole whole, outcome, h.rxd]
    exact (List.append_nil _).symm

/-- What the end of the input makes of a state: the results of parse_frame for `bytes`, on top of `s₀` (R178, R184, R188). -/
structure Concludes (s₀ : State) (bytes : List Byte) (u : State) : Prop where
  delivers : Delivers (parseFrame bytes) s₀ u
  hdrLen : u.hp.hdrLen = headerLength bytes
  total : u.hp.total = (parseFrame bytes).counted bytes.length
  bytes : u.rx.bytes = BitVec.ofNat 32 ((parseFrame bytes).counted bytes.length)

/-- A header cut short fails at the end of the input, and the error tells how many bytes there were. -/
theorem Undecided.finish {s₀ s : State} {bytes : List Byte} (h : Undecided s₀ bytes.length s.view)
    (hstate : s.hp.state = .len ∨ s.hp.state = .name)
    (hout : parseFrame bytes = .err .frameTooShort bytes.length) (hhdr : s.hp.hdrLen = headerLength bytes) :
    Concludes s₀ bytes (((hpEnd s).pushRxd .fin).completeRx) := by
  obtain ⟨-, hs⟩ | ⟨hlen, hname, -⟩ := hpEnd_cases s
  · have herr : s.err = .noError := h.err
    have htotal : s.hp.total = bytes.length := h.total
    have hrxd : s.rxd = s₀.rxd := h.rxd
    have hmethod : s.hp.method = none := h.method
    have hbytes : s.rx.bytes = BitVec.ofNat 32 bytes.length := h.bytes
    rw [hs]
    constructor <;> simp [hout, Delivers, Parsed.counted, herr, htotal, hrxd, hmethod, hbytes, hhdr]
  · obtain hstate | hstate := hstate
    · exact absurd hstate hlen
    · exact absurd hstate hname

theorem Heard.finish {s₀ s : State} {bytes : List Byte} (hs₀ : s₀.err = .noError) (h : Heard s₀ bytes s.view) :
    Concludes s₀ bytes (((hpEnd s).pushRxd .fin).completeRx) := by
  cases h with
  | length h =>
    exact h.undecided.finish (.inl h.state) (parseFrame_of_length_lt h.short)
      (h.hdrLen.trans (headerLength_of_length_lt h.short).symm)
  | @name field name _ h =>
    have hlength : (field ++ name).length = 4 + name.length := by rw [List.length_append, h.read.field_length]
    refine Undecided.finish (by rw [hlength]; exact h.read.undecided) (.inr h.state) ?_
      (h.read.hdrLen.trans (headerLength_append h.read.field_length name).symm)
    rw [hlength]
    exact parseFrame_of_name_short h.read.field_length h.short
  | @accepted field name payload t _ whole outcome h =>
    have hstate : s.hp.state = .payload := h.state
    have hs : hpEnd s = s := if_neg (by simp [hstate])
    have hlength : (field ++ name ++ payload).length = 4 + name.length + payload.length := by
      rw [List.length_append, List.length_append, whole.field_length]
    have hout : parseFrame (field ++ name ++ payload) = .ok t payload := by rw [parseFrame_whole whole, outcome]
    rw [hs]
    refine ⟨?_, ?_, ?_, ?_⟩
    · rw [hout]
      refine ⟨?_, h.method, hstate, h.err.trans hs₀.symm, h.errInfo⟩
      rw [buffer, ← List.append_assoc, ← h.rxd]
      rfl
    · rw [List.append_assoc, headerLength_append whole.field_length]
      exact h.hdrLen
    · rw [hout, hlength]
      exact h.total
    · rw [hout, hlength]
      exact h.bytes
  | @rejected field name dropped c _ whole outcome cause h =>
    have hstate : s.hp.state = .fail := h.state
    have hs : hpEnd s = s := if_neg (by simp [hstate])
    have hout : parseFrame (field ++ name ++ dropped) = .err c name.length := by rw [parseFrame_whole whole, outcome]
    have hcounted : ∀ n, (Parsed.err c name.length).counted n = 4 + name.length := fun n => by
      obtain rfl | rfl := cause <;> rfl
    rw [hs]
    refine ⟨?_, ?_, ?_, ?_⟩
    · rw [hout]
      exact ⟨congrArg (· ++ [Item.fin]) h.rxd, h.method, hstate, h.err, h.errInfo⟩
    · rw [List.append_assoc, headerLength_append whole.field_length]
      exact h.hdrLen
    · rw [hout, hcounted]
      exact h.total
    · rw [hout, hcounted]
      exact h.bytes

end Sys2Proof.Machine

/-! PROOF. `RXFRAME` and `HPARSE` deliver and record what parse_frame gives for their bytes (R186 to R188). -/

namespace Sys2Proof.Machine

/-- The parser keeps the count of bytes. -/
theorem hpByte_total (b : Byte) (s : State) : (hpByte b s).hp.total = s.hp.total := by
  have hdone : ∀ t : State, (nameDone t).hp.total = t.hp.total := fun t => by
    obtain ⟨-, h⟩ | ⟨-, -, h⟩ | ⟨_, -, -, h⟩ := nameDone_cases t <;> simp [h, failHeader]
  unfold hpByte
  split
  · obtain ⟨-, h⟩ | ⟨-, -, h⟩ | ⟨-, -, h⟩ := lenByte_cases b s <;> rw [h]
    · exact hdone _
    · rfl
  · obtain ⟨-, h⟩ | ⟨-, h⟩ := nameByte_cases b s <;> rw [h]
    · exact hdone _
    · rfl
  all_goals rfl

/-! ### RXFRAME -/

/-- `RXFRAME`, started from `s₀`, has given `bits` to the deserializer and their bytes to the parser; after a failure the bits are
dropped, and the slots counted are those of the bytes counted. -/
structure FrameReceived (s₀ : State) (bits : List Bool) (s : State) : Prop where
  op : s.rx.op = .rxframe
  cfg : s.rx.cfg = RxCfg.of s₀.cfg
  rxb : s.rxb = s₀.rxb
  heard : Heard s₀ (bitsToBytes bits) s.view
  alive : s.rx.fail = false → Unpacked s bits
  failed : s.rx.fail = true → s.rx.pos = BitVec.ofNat 32 (8 * s.hp.total)

theorem frameReceived_nil {s₀ : State} (herr : s₀.err = .noError) : FrameReceived s₀ [] (acceptance .rxframe s₀) :=
  ⟨rfl, rfl, rfl, heard_nil (.inl rfl) herr, fun _ => ⟨rfl, rfl, rfl⟩, nofun⟩

/-- A bit that completes a byte has it counted and parsed. -/
theorem FrameReceived.bit {s₀ s : State} {bits : List Bool} (h : FrameReceived s₀ bits s) (hfail : s.rx.fail = false)
    (b : Bool) (rest : List (Item Sample)) (buf : List Sample) :
    FrameReceived s₀ (bits ++ [b]) (giveBit emitByte b (s.slotPopped rest buf)) := by
  have hunpacked := (h.alive hfail).giveBit b rest buf
  obtain ⟨byte, hbytes, hs, -, hlen⟩ | ⟨hbytes, hs, -⟩ := (h.alive hfail).giveBit_cases b rest buf
  · let t := (s.slotPopped rest buf).shifted b 0
    have hemit : emitByte byte t = hpByte byte (countByte t) := by
      simp only [t, emitByte, State.shifted, State.slotPopped, h.op]
    have hheard : Heard s₀ (bitsToBytes bits ++ [byte]) (hpByte byte (countByte t)).view :=
      Heard.byte (s := t) h.heard hfail byte
    have htotal : s.hp.total = bits.length / 8 := by
      rw [← bitsToBytes_length]
      exact h.heard.total_of_alive hfail
    rw [hs, hemit] at hunpacked ⊢
    refine ⟨?_, ?_, ?_, hbytes ▸ hheard, fun _ => hunpacked, fun _ => ?_⟩
    · rw [hpByte_rx]
      exact h.op
    · rw [hpByte_rx]
      exact h.cfg
    · rw [hpByte_frame byte (countByte t)]
      exact (hpByte_effect byte (countByte t)).2.2.2.trans h.rxb
    · rw [hunpacked.pos, hlen, ← htotal, hpByte_total]
      rfl
  · rw [hs] at hunpacked ⊢
    exact ⟨h.op, h.cfg, h.rxb, hbytes ▸ h.heard, fun _ => hunpacked, fun hf => absurd (hfail.symm.trans hf) (by simp)⟩

theorem FrameReceived.skip {s₀ s : State} {bits : List Bool} (h : FrameReceived s₀ bits s) (hfail : s.rx.fail = true)
    (b : Bool) : FrameReceived s₀ (bits ++ [b]) s := by
  refine { h with heard := ?_, alive := fun hf => by rw [hfail] at hf; cases hf }
  rw [bitsToBytes_concat]
  split
  · exact h.heard.drop hfail _
  · exact h.heard

theorem frameReceived_slotInvariant (s₀ : State) : SlotInvariant (RxCfg.of s₀.cfg) (FrameReceived s₀) where
  streams h := ⟨by rw [h.op]; rfl, h.cfg⟩
  mid _ _ _ h := ⟨h.op, h.cfg, h.rxb, h.heard,
    fun hf => ⟨(h.alive hf).dsCnt, (h.alive hf).dsShift, (h.alive hf).pos⟩, h.failed⟩
  bit b rest buf h hfail := h.bit hfail b rest buf
  skip b h hfail := h.skip hfail b

/-- `RXFRAME` over the samples before `rest`. -/
theorem rxRun_frameSamples (num : Numerics Sample) {s : State} (herr : s.err = .noError) (hcfg : cfgchk s.cfg = 0#32)
    (samples : List Sample) (rest : List (Item Sample)) (hrxs : s.rxs = samples.map .data ++ rest) :
    FrameReceived s (demodulate num (RxCfg.of s.cfg) samples) (rxRun num samples.length (acceptance .rxframe s))
      ∧ (rxRun num samples.length (acceptance .rxframe s)).rxs = rest :=
  (frameReceived_slotInvariant s).run num (nTone_le_nSlot s.cfg) (nSlot_pos hcfg) samples rest (frameReceived_nil herr) rfl
    hrxs

/-- At the `END` of the samples the parser decides, `END` is pushed and `RXFRAME` completes (R186). -/
theorem rxStep_frameEnd (num : Numerics Sample) {s : State} {rest : List (Item Sample)} (hop : s.rx.op = .rxframe)
    (hrxs : s.rxs = .fin :: rest) :
    rxStep num s = State.completeRx ((hpEnd
      { s with rxs := rest, rx := { s.rx with eos := true, k := 0, dsCnt := 0 } }).pushRxd .fin) := by
  rw [rxStep_samples (by rw [hop]; rfl), sampleStep, hrxs]
  simp only [endOfSamples, hop]
  rfl

theorem FrameReceived.pos {s₀ s : State} {bits : List Bool} (h : FrameReceived s₀ bits s) :
    s.rx.pos = BitVec.ofNat 32 ((parseFrame (bitsToBytes bits)).slots bits.length) := by
  rw [h.heard.slots]
  cases hfail : s.rx.fail with
  | false => rw [(h.alive hfail).pos, State.view, hfail, if_neg Bool.false_ne_true]
  | true => rw [h.failed hfail, State.view, hfail, if_pos rfl]

/-- Settles O28: the slots of the buffer give the bits of demodulate, the deserializer packs them, and the parser refines
parse_frame on the bytes. -/
theorem rxframeParsesTheRecoveredBytes : Obligations.RxframeParsesTheRecoveredBytes := by
  intro num s samples rest herr hidle hcfg hrxs
  obtain ⟨h, hfin⟩ := rxRun_frameSamples num herr hcfg samples (.fin :: rest) (by simpa [buffer] using hrxs)
  have hend := (rxRun_succ num samples.length (acceptance .rxframe s)).trans (rxStep_frameEnd num h.op hfin)
  obtain ⟨hcompletes, hframe⟩ := completes_of_rxRun rfl hend
  let t := rxRun num samples.length (acceptance .rxframe s)
  let v : State := { t with rxs := rest, rx := { t.rx with eos := true, k := 0, dsCnt := 0 } }
  obtain ⟨hdelivers, hhdrLen, htotal, hbytes⟩ := Heard.finish (s := v) herr h.heard
  obtain ⟨⟨-, -, hrxs', hrxb'⟩, -⟩ := hpEnd_effect v
  have hrx : (hpEnd v).rx = v.rx := hpEnd_engine v
  refine ⟨_, _, exec_of_accepts (accepts_of_rxIdle rfl herr hidle fun _ => hcfg), rfl, rfl, rfl, rfl, hcompletes, hframe,
    hrxs', hrxb'.trans h.rxb, hdelivers, hhdrLen, htotal, hbytes, ?_, ?_, ?_⟩
  · exact (congrArg RxState.pos hrx).trans h.pos
  · exact congrArg RxState.eos hrx
  · exact congrArg RxState.dsCnt hrx

/-! ### HPARSE -/

/-- `HPARSE`, started from `s₀`, has given `bytes` to the parser; the rest of `RX` is as it was at the acceptance. -/
structure BytesParsed (s₀ : State) (bytes : List Byte) (s : State) : Prop where
  heard : Heard s₀ bytes s.view
  rxs : s.rxs = s₀.rxs
  rx : s.rx = { s₀.rx with
    op := .hparse, busy := true, done := false, eos := false, pos := 0#32, cfg := RxCfg.of s₀.cfg, k := 0,
    bytes := s.rx.bytes, fail := s.rx.fail }

theorem bytesParsed_nil {s₀ : State} (herr : s₀.err = .noError) : BytesParsed s₀ [] (acceptance .hparse s₀) :=
  ⟨heard_nil (.inr rfl) herr, rfl, rfl⟩

theorem BytesParsed.op {s₀ s : State} {bytes : List Byte} (h : BytesParsed s₀ bytes s) : s.rx.op = .hparse := by
  rw [h.rx]

theorem rxStep_hparse (num : Numerics Sample) {s : State} (hop : s.rx.op = .hparse) :
    rxStep num s = hparseStep s := by
  simp only [rxStep, hop]

/-- A byte of `RXB` is parsed, or dropped after a failure (R187). -/
theorem BytesParsed.byte {s₀ s : State} {bytes : List Byte} (h : BytesParsed s₀ bytes s) (b : Byte)
    (rest : List (Item Byte)) :
    BytesParsed s₀ (bytes ++ [b]) (parseByte b { s with rxb := rest })
      ∧ (parseByte b { s with rxb := rest }).rxb = rest := by
  unfold parseByte
  split
  · rename_i hstate
    exact ⟨⟨h.heard.drop (h.heard.fail_iff.mpr hstate) b, h.rxs, h.rx⟩, rfl⟩
  · rename_i hstate
    have hfail : s.rx.fail = false := by
      rw [← Bool.not_eq_true]
      exact fun hf => hstate (h.heard.fail_iff.mp hf)
    let t := countByte { s with rxb := rest }
    obtain ⟨-, -, hrxs, hrxb⟩ := hpByte_effect b t
    refine ⟨⟨Heard.byte (s := { s with rxb := rest }) h.heard hfail b, hrxs.trans h.rxs, ?_⟩, hrxb⟩
    rw [hpByte_rx]
    exact congrArg (fun r : RxState => { r with bytes := t.rx.bytes, fail := (hpByte b t).rx.fail }) h.rx

/-- `HPARSE` over the bytes before `rest`. -/
theorem BytesParsed.run (num : Numerics Sample) {s₀ : State} (more : List Byte) (rest : List (Item Byte))
    {bytes : List Byte} {s : State} (h : BytesParsed s₀ bytes s) (hrxb : s.rxb = more.map .data ++ rest) :
    BytesParsed s₀ (bytes ++ more) (rxRun num more.length s) ∧ (rxRun num more.length s).rxb = rest := by
  induction more generalizing bytes s with
  | nil =>
    rw [List.append_nil]
    exact ⟨h, hrxb⟩
  | cons b more ih =>
    have hstep : rxStep num s = parseByte b { s with rxb := more.map .data ++ rest } := by
      rw [rxStep_hparse num h.op, hparseStep, hrxb]
      rfl
    obtain ⟨hnext, hrest⟩ := h.byte b (more.map .data ++ rest)
    rw [List.append_cons, List.length_cons, rxRun, hstep]
    exact ih hnext hrest

/-- At the `END` of the bytes the parser decides, `END` is pushed and `HPARSE` completes (R187). -/
theorem rxStep_hparseEnd (num : Numerics Sample) {s : State} {rest : List (Item Byte)} (hop : s.rx.op = .hparse)
    (hrxb : s.rxb = .fin :: rest) :
    rxStep num s
      = State.completeRx ((hpEnd { s with rxb := rest, rx := { s.rx with eos := true } }).pushRxd .fin) := by
  rw [rxStep_hparse num hop, hparseStep, hrxb]

/-- Settles O29: the parser refines parse_frame on the bytes of the buffer. -/
theorem hparseParsesTheBytes : Obligations.HparseParsesTheBytes := by
  intro num s bytes rest herr hidle hrxb
  have hinput : s.rxb = bytes.map .data ++ .fin :: rest := by simpa [buffer] using hrxb
  obtain ⟨h, hfin⟩ := (bytesParsed_nil herr).run num bytes (.fin :: rest) hinput
  rw [List.nil_append] at h
  have hend := (rxRun_succ num bytes.length (acceptance .hparse s)).trans (rxStep_hparseEnd num h.op hfin)
  obtain ⟨hcompletes, hframe⟩ := completes_of_rxRun rfl hend
  let t := rxRun num bytes.length (acceptance .hparse s)
  let v : State := { t with rxb := rest, rx := { t.rx with eos := true } }
  obtain ⟨hdelivers, hhdrLen, htotal, hbytes⟩ := Heard.finish (s := v) herr h.heard
  obtain ⟨⟨-, -, hrxs', hrxb'⟩, -⟩ := hpEnd_effect v
  have hrx : (hpEnd v).rx = v.rx := hpEnd_engine v
  have hpos : t.rx.pos = 0#32 := by rw [h.rx]
  have hcnt : t.rx.dsCnt = s.rx.dsCnt := by rw [h.rx]
  have hshift : t.rx.dsShift = s.rx.dsShift := by rw [h.rx]
  refine ⟨_, _, exec_of_accepts (accepts_of_rxIdle rfl herr hidle nofun), rfl, rfl, rfl, rfl, hcompletes, hframe, hrxb',
    hrxs'.trans h.rxs, hdelivers, hhdrLen, htotal, hbytes, ?_, ?_, ?_, ?_⟩
  · exact (congrArg RxState.pos hrx).trans hpos
  · exact congrArg RxState.eos hrx
  · exact (congrArg RxState.dsCnt hrx).trans hcnt
  · exact (congrArg RxState.dsShift hrx).trans hshift

end Sys2Proof.Machine

/-! PROOF. A command whose buffer or slot is not whole holds, and what the host pushes then acts as if pushed before the command
started (R63, R81, R253). -/

namespace Sys2Proof.Machine

/-! ### A run that comes to rest in a busy state -/

theorem txRun_of_txStep_eq {num : Numerics Sample} {u : State} (h : txStep num u = u) (m : Nat) : txRun num m u = u := by
  induction m with
  | zero => rfl
  | succ m ih => rw [txRun, h, ih]

theorem rxRun_of_rxStep_eq {num : Numerics Sample} {u : State} (h : rxStep num u = u) (m : Nat) : rxRun num m u = u := by
  induction m with
  | zero => rfl
  | succ m ih => rw [rxRun, h, ih]

/-- A run that comes to a state of an operation from which `TX` makes no step is a hold: had the engine been idle before, it would
still be. -/
theorem TxHolds.of_run {num : Numerics Sample} {n : Nat} {t u : State} (hrun : txRun num n t = u) (hbusy : t.tx.busy = true)
    (hop : u.tx.op ≠ .idle) (hstep : txStep num u = u) : TxHolds num t u := by
  induction n generalizing t with
  | zero =>
    obtain rfl : t = u := hrun
    have hstay := txRun_of_txStep_eq hstep
    exact ⟨fun m => by rw [hstay, hbusy], 0, fun m _ => hstay m⟩
  | succ n ih =>
    obtain hnext | hidle := txStep_busy num t hbusy
    · obtain ⟨hb, k, hk⟩ := ih hrun hnext
      refine ⟨fun m => ?_, k + 1, fun m hm => ?_⟩
      · cases m with
        | zero => exact hbusy
        | succ m => exact hb m
      · obtain ⟨m, rfl⟩ := Nat.exists_eq_add_of_le' hm
        exact hk (m + k) (Nat.le_add_left k m)
    · rw [txRun, txRun_idle num n hidle] at hrun
      exact absurd (hrun ▸ hidle) hop

/-- As `TxHolds.of_run`, for `RX`. -/
theorem RxHolds.of_run {num : Numerics Sample} {n : Nat} {t u : State} (hrun : rxRun num n t = u) (hbusy : t.rx.busy = true)
    (hop : u.rx.op ≠ .idle) (hstep : rxStep num u = u) : RxHolds num t u := by
  induction n generalizing t with
  | zero =>
    obtain rfl : t = u := hrun
    have hstay := rxRun_of_rxStep_eq hstep
    exact ⟨fun m => by rw [hstay, hbusy], 0, fun m _ => hstay m⟩
  | succ n ih =>
    obtain hnext | hidle := rxStep_busy num t hbusy
    · obtain ⟨hb, k, hk⟩ := ih hrun hnext
      refine ⟨fun m => ?_, k + 1, fun m hm => ?_⟩
      · cases m with
        | zero => exact hbusy
        | succ m => exact hb m
      · obtain ⟨m, rfl⟩ := Nat.exists_eq_add_of_le' hm
        exact hk (m + k) (Nat.le_add_left k m)
    · rw [rxRun, rxRun_idle num n hidle] at hrun
      exact absurd (hrun ▸ hidle) hop

/-- With no sample waiting a command that takes samples makes no step (R63). -/
theorem rxStep_noSample {num : Numerics Sample} {s : State} (hop : s.rx.op.usesCfg = true) (hrxs : s.rxs = []) :
    rxStep num s = s := by
  rw [rxStep_samples hop, sampleStep, hrxs]

/-- With no byte waiting `HPARSE` makes no step (R63). -/
theorem rxStep_noByte {num : Numerics Sample} {s : State} (hop : s.rx.op = .hparse) (hrxb : s.rxb = []) :
    rxStep num s = s := by
  rw [rxStep_hparse num hop, hparseStep, hrxb]

/-! ### Pushed before or in the hold -/

/-- Acceptance does not look at the input streams (R200). -/
theorem acceptance_feed (i : Instr) (s : State) (d : List (Item Byte)) (x : List (Item Sample)) (b : List (Item Byte)) :
    acceptance i (s.feed d x b) = (acceptance i s).feed d x b := by
  cases i <;> rfl

theorem State.Accepts.feed {i : Instr} {s : State} (h : s.Accepts i) (d : List (Item Byte)) (x : List (Item Sample))
    (b : List (Item Byte)) : (s.feed d x b).Accepts i :=
  ⟨h.engine, h.noError, h.idle, h.valid⟩

/-- No command but `RESET` looks at the input streams when it is issued. -/
theorem exec_feed {i : Instr} (hi : i ≠ .reset) (s : State) (d : List (Item Byte)) (x : List (Item Sample))
    (b : List (Item Byte)) : ∃ t, exec i s = .next t ∧ exec i (s.feed d x b) = .next (t.feed d x b) := by
  by_cases hclass : i.commandClass = .sys
  · cases i with
    | nop | clrerr => exact ⟨_, rfl, rfl⟩
    | reset => exact absurd rfl hi
    | _ => cases hclass
  · refine ⟨_, exec_eq_acceptance hclass s, ?_⟩
    rw [exec_eq_acceptance hclass, issueCommand_feed fun s => acceptance_feed i s d x b]

theorem TxFrame.of_feed {s v : State} {d : List (Item Byte)} (h : TxFrame (s.feed d [] []) v) : TxFrame s v := by
  simpa [TxFrame, State.feed] using h

theorem RxFrame.of_feed {s v : State} {x : List (Item Sample)} {b : List (Item Byte)} (h : RxFrame (s.feed [] x b) v) :
    RxFrame s v := by
  simpa [RxFrame, State.feed] using h

/-- What the command of `RX` would do with the pushed items from its acceptance on, it does from its hold. -/
theorem RxHolds.completes_fed {num : Numerics Sample} {i : Instr} {s t u v : State} {x : List (Item Sample)}
    {b : List (Item Byte)} (hacc : s.Accepts i) (hholds : RxHolds num (acceptance i s) u)
    (hexec : exec i (s.feed [] x b) = .next t) (hcompletes : RxCompletes num t v) (hframe : RxFrame (s.feed [] x b) v) :
    RxCompletes num (u.feed [] x b) v ∧ RxFrame s v := by
  rw [exec_of_accepts (hacc.feed [] x b), acceptance_feed] at hexec
  obtain rfl := Host.Outcome.next.inj hexec
  exact ⟨hholds.resumes.completes hcompletes, hframe.of_feed⟩

/-- Items pushed behind a partial buffer make it a longer one. -/
theorem map_data_append_buffer {α : Type} (xs more : List α) (rest : List (Item α)) :
    xs.map .data ++ (buffer more ++ rest) = buffer (xs ++ more) ++ rest := by
  simp [buffer]

/-! ### The holds -/

/-- `TXRAW` and `TXFRAME` hold when the bytes that wait are sent. -/
theorem txStream_holds (num : Numerics Sample) {i : Instr} (hi : i = .txraw ∨ ∃ tag, i = .txframe tag) {s : State}
    {hdr data : List Byte} (hhdr : (acceptance i s).tx.hdr = hdr) (htxd : s.txd = data.map .data) :
    ∃ u, TxHolds num (acceptance i s) u ∧ TxFrame s u ∧ u.txd = []
      ∧ u.txs = s.txs ++ (modulate num s.cfg (bytesToBits (hdr ++ data))).map .data := by
  have hclass : i.commandClass = .tx := by obtain rfl | ⟨tag, rfl⟩ := hi <;> rfl
  obtain ⟨hs, hbusy, -⟩ := acceptance_tx hclass s
  obtain ⟨hfetch, hn, hop⟩ := acceptance_fetching hi s
  have hinput : (acceptance i s).txd = data.map .data ++ [] := by
    rw [hs, List.append_nil]
    exact htxd
  obtain ⟨n, hsent⟩ := txRun_stream num hfetch hn hop hhdr hinput
  have hrunning : (txRun num n (acceptance i s)).tx.op ≠ .idle := fun h => by
    have hstreams := hsent.streams
    rw [h] at hstreams
    cases hstreams
  refine ⟨_, .of_run rfl hbusy hrunning (txStep_holds hsent.fetching hsent.nbits hsent.streams hsent.hdr hsent.txd),
    (acceptance_txFrame hclass s).trans (txRun_frame num n _), hsent.txd, ?_⟩
  rw [hsent.txs, hs, modulate_eq_snapshot]

/-- The rest of the buffer completes `TXRAW` and `TXFRAME` from their hold with the outcome of the whole buffer. -/
theorem txStream_completes_fed (num : Numerics Sample) {i : Instr} (hi : i = .txraw ∨ ∃ tag, i = .txframe tag) {s u : State}
    {hdr data : List Byte} (hhdr : (acceptance i s).tx.hdr = hdr) (htxd : s.txd = data.map .data)
    (hholds : TxHolds num (acceptance i s) u) (more : List Byte) (rest : List (Item Byte)) :
    ∃ v, TxCompletes num (u.feed (buffer more ++ rest) [] []) v ∧ TxFrame s v ∧ v.txd = rest
      ∧ v.tx.pos = BitVec.ofNat 32 (8 * (hdr ++ (data ++ more)).length)
      ∧ v.txs = s.txs ++ buffer (modulate num s.cfg (bytesToBits (hdr ++ (data ++ more)))) := by
  obtain ⟨v, hcompletes, hframe, hrest, hpos, htxs⟩ :=
    txStream_completes (s := s.feed (buffer more ++ rest) [] []) (hdr := hdr) (data := data ++ more) (rest := rest) num hi
      (by rw [acceptance_feed]; exact hhdr) (by rw [State.feed_txd, htxd, map_data_append_buffer])
  rw [acceptance_feed] at hcompletes
  exact ⟨v, hholds.resumes.completes hcompletes, hframe.of_feed, hrest, hpos, htxs⟩

/-- A run of an accepted command of `RX` that comes to a state without a step is a hold, and nothing but what is `RX`'s has
changed. -/
theorem holds_of_rxRun {num : Numerics Sample} {i : Instr} (hi : i.commandClass = .rx) (s : State) {n : Nat}
    (hop : (rxRun num n (acceptance i s)).rx.op ≠ .idle)
    (hstep : rxStep num (rxRun num n (acceptance i s)) = rxRun num n (acceptance i s)) :
    RxHolds num (acceptance i s) (rxRun num n (acceptance i s)) ∧ RxFrame s (rxRun num n (acceptance i s)) :=
  ⟨.of_run rfl (acceptance_rx hi s).2.1 hop hstep, (acceptance_rxFrame hi s).trans (rxRun_frame num n _)⟩

/-- `RXRAW` holds when the whole slots that wait are classified. -/
theorem rxraw_holds (num : Numerics Sample) {s : State} (hcfg : cfgchk s.cfg = 0#32) {samples : List Sample}
    (hrxs : s.rxs = samples.map .data) :
    ∃ u, RxHolds num (acceptance .rxraw s) u ∧ RxFrame s u ∧ u.rxs = [] ∧ u.rxb = s.rxb
      ∧ u.rxd = s.rxd ++ (bitsToBytes (demodulate num (RxCfg.of s.cfg) samples)).map .data := by
  obtain ⟨h, hempty⟩ := rxRun_raw num hcfg samples [] (by rw [hrxs, List.append_nil])
  obtain ⟨hholds, hframe⟩ := holds_of_rxRun (i := .rxraw) rfl s (by rw [h.op]; nofun)
    (rxStep_noSample (by rw [h.op]; rfl) hempty)
  exact ⟨_, hholds, hframe, hempty, h.rxb, h.rxd⟩

/-- `RXFRAME` holds when the bytes of the whole slots that wait are parsed. -/
theorem rxframe_holds (num : Numerics Sample) {s : State} (herr : s.err = .noError) (hcfg : cfgchk s.cfg = 0#32)
    {samples : List Sample} (hrxs : s.rxs = samples.map .data) :
    ∃ u, RxHolds num (acceptance .rxframe s) u ∧ RxFrame s u ∧ u.rxs = [] ∧ u.rxb = s.rxb
      ∧ u.rxd = s.rxd
        ++ (parseFrame (bitsToBytes (demodulate num (RxCfg.of s.cfg) samples))).payload.map .data := by
  obtain ⟨h, hempty⟩ := rxRun_frameSamples num herr hcfg samples [] (by rw [hrxs, List.append_nil])
  obtain ⟨hholds, hframe⟩ := holds_of_rxRun (i := .rxframe) rfl s (by rw [h.op]; nofun)
    (rxStep_noSample (by rw [h.op]; rfl) hempty)
  exact ⟨_, hholds, hframe, hempty, h.rxb, h.heard.rxd⟩

/-- `RXSLOT` holds with less than a slot, and only the samples are popped. -/
theorem rxslot_holds (num : Numerics Sample) {s : State} {samples : List Sample} (hshort : samples.length < s.cfg.nSlot)
    (hrxs : s.rxs = samples.map .data) :
    ∃ u, RxHolds num (acceptance .rxslot s) u ∧ RxFrame s u
      ∧ ∃ k buf, u = (acceptance .rxslot s).mid [] k buf := by
  obtain ⟨buf, hrun, -⟩ := rxRun_partial num samples [] [] (acceptance .rxslot s) (acceptance_rxslot_framing s)
    (by rw [List.length_nil, Nat.zero_add]; exact hshort) (hrxs.trans (List.append_nil _).symm)
  obtain ⟨hholds, hframe⟩ := holds_of_rxRun (i := .rxslot) (n := samples.length) (num := num) rfl s (by rw [hrun]; nofun)
    (rxStep_noSample (by rw [hrun]; rfl) (by rw [hrun]; rfl))
  exact ⟨_, hholds, hframe, _, _, hrun⟩

/-- `HPARSE` holds when the bytes that wait are parsed. -/
theorem hparse_holds (num : Numerics Sample) {s : State} (herr : s.err = .noError) {bytes : List Byte}
    (hrxb : s.rxb = bytes.map .data) :
    ∃ u, RxHolds num (acceptance .hparse s) u ∧ RxFrame s u ∧ u.rxb = [] ∧ u.rxs = s.rxs
      ∧ u.rxd = s.rxd ++ (parseFrame bytes).payload.map .data := by
  obtain ⟨h, hempty⟩ := (bytesParsed_nil herr).run num bytes [] (hrxb.trans (List.append_nil _).symm)
  rw [List.nil_append] at h
  obtain ⟨hholds, hframe⟩ := holds_of_rxRun (i := .hparse) rfl s (by rw [h.op]; nofun) (rxStep_noByte h.op hempty)
  exact ⟨_, hholds, hframe, hempty, h.rxs, h.heard.rxd⟩

/-- Settles O23: each command comes to its hold; with the rest pushed before its start it would complete as the statement about
whole buffers or slots says, so it does from the hold. -/
theorem commandsWithoutEndHold : Obligations.CommandsWithoutEndHold := by
  refine ⟨fun num s data herr hidle hcfg htxd => ⟨?_, fun tag => ?_⟩,
    fun num s samples herr hidle hcfg hrxs => ⟨?_, ?_, fun hshort => ?_⟩, fun num s bytes herr hidle hrxb => ?_,
    fun i s d x b hi => exec_feed hi s d x b⟩
  · have hi : Instr.txraw = .txraw ∨ ∃ tag, Instr.txraw = .txframe tag := .inl rfl
    have hacc : s.Accepts .txraw := accepts_of_txIdle rfl herr hidle fun _ => hcfg
    obtain ⟨u, hholds, hframe, hempty, htxs⟩ := txStream_holds num hi rfl htxd
    exact ⟨_, u, exec_of_accepts hacc, hholds, hholds.resumes, hframe, hempty, htxs,
      txStream_completes_fed num hi rfl htxd hholds⟩
  · have hi : Instr.txframe tag = .txraw ∨ ∃ tag', Instr.txframe tag = .txframe tag' := .inr ⟨tag, rfl⟩
    have hacc : s.Accepts (.txframe tag) := accepts_of_txIdle rfl herr hidle fun _ => hcfg
    obtain ⟨u, hholds, hframe, hempty, htxs⟩ := txStream_holds num hi rfl htxd
    refine ⟨_, u, exec_of_accepts hacc, hholds, hholds.resumes, hframe, hempty, htxs, fun more rest => ?_⟩
    rw [List.append_assoc]
    exact txStream_completes_fed num hi rfl htxd hholds more rest
  · have hacc : s.Accepts .rxraw := accepts_of_rxIdle rfl herr hidle fun _ => hcfg
    obtain ⟨u, hholds, hframe, hempty, hrxb, hrxd⟩ := rxraw_holds num hcfg hrxs
    refine ⟨_, u, exec_of_accepts hacc, hholds, hholds.resumes, hframe, hempty, hrxb, hrxd, fun more rest => ?_⟩
    obtain ⟨t, v, hexec, -, -, -, hcompletes, hframe', hrxs', hrxb', hrxd', herr', -, -, hpos, -⟩ :=
      rxrawDemodulatesTheBuffer num (s.feed [] (buffer more ++ rest) []) (samples ++ more) rest herr hidle hcfg
        (by rw [State.feed_rxs, hrxs, map_data_append_buffer])
    obtain ⟨hc, hf⟩ := hholds.completes_fed hacc hexec hcompletes hframe'
    exact ⟨v, hc, hf, hrxs', hrxb'.trans (List.append_nil _), herr', hpos, hrxd'⟩
  · have hacc : s.Accepts .rxframe := accepts_of_rxIdle rfl herr hidle fun _ => hcfg
    obtain ⟨u, hholds, hframe, hempty, hrxb, hrxd⟩ := rxframe_holds num herr hcfg hrxs
    refine ⟨_, u, exec_of_accepts hacc, hholds, hholds.resumes, hframe, hempty, hrxb, hrxd, fun more rest => ?_⟩
    obtain ⟨t, v, hexec, -, -, -, -, hcompletes, hframe', hrxs', hrxb', hdelivers, hhdr, -⟩ :=
      rxframeParsesTheRecoveredBytes num (s.feed [] (buffer more ++ rest) []) (samples ++ more) rest herr hidle hcfg
        (by rw [State.feed_rxs, hrxs, map_data_append_buffer])
    obtain ⟨hc, hf⟩ := hholds.completes_fed hacc hexec hcompletes hframe'
    exact ⟨v, hc, hf, hrxs', hrxb'.trans (List.append_nil _), hhdr, hdelivers⟩
  · have hacc : s.Accepts .rxslot := accepts_of_rxIdle rfl herr hidle fun _ => hcfg
    obtain ⟨u, hholds, hframe, k, buf, hu⟩ := rxslot_holds num hshort hrxs
    refine ⟨_, u, exec_of_accepts hacc, hholds, hholds.resumes, hframe, by rw [hu]; rfl, by rw [hu]; rfl, by rw [hu]; rfl,
      by rw [hu]; rfl, by rw [hu]; rfl, by rw [hu]; rfl, fun more rest hlen hds => ?_, fun more rest hlen => ?_⟩
    · obtain ⟨t, v, hexec, -, -, -, hcompletes, hframe', hrxs', hrxb', -, -, -, hpos, heos, -, hcnt, hshift, hrxd⟩ :=
        rxslotClassifiesOneSlot num (s.feed [] (more.map .data ++ rest) []) (samples ++ more) rest herr hidle hcfg hds hlen
          (by rw [State.feed_rxs, hrxs, List.map_append, List.append_assoc])
      obtain ⟨hc, hf⟩ := hholds.completes_fed hacc hexec hcompletes hframe'
      exact ⟨v, hc, hf, hrxs', hrxb'.trans (List.append_nil _), hpos, heos, hcnt, hshift, hrxd⟩
    · obtain ⟨t, v, hexec, hcompletes, hframe', hrxs', hrxb', hrxd, -, -, -, hpos, heos, -, hcnt, hshift⟩ :=
        rxslotAtTheEndProducesNoBit num (s.feed [] (buffer more ++ rest) []) (samples ++ more) rest herr hidle hcfg hlen
          (by rw [State.feed_rxs, hrxs, map_data_append_buffer])
      obtain ⟨hc, hf⟩ := hholds.completes_fed hacc hexec hcompletes hframe'
      exact ⟨v, hc, hf, hrxs', hrxb'.trans (List.append_nil _), hpos, heos, hcnt, hshift, hrxd⟩
  · have hacc : s.Accepts .hparse := accepts_of_rxIdle rfl herr hidle nofun
    obtain ⟨u, hholds, hframe, hempty, hrxs, hrxd⟩ := hparse_holds num herr hrxb
    refine ⟨_, u, exec_of_accepts hacc, hholds, hholds.resumes, hframe, hempty, hrxs, hrxd, fun more rest => ?_⟩
    obtain ⟨t, v, hexec, -, -, -, -, hcompletes, hframe', hrxb', hrxs', hdelivers, hhdr, -⟩ :=
      hparseParsesTheBytes num (s.feed [] [] (buffer more ++ rest)) (bytes ++ more) rest herr hidle
        (by rw [State.feed_rxb, hrxb, map_data_append_buffer])
    obtain ⟨hc, hf⟩ := hholds.completes_fed hacc hexec hcompletes hframe'
    exact ⟨v, hc, hf, hrxb', hrxs'.trans (List.append_nil _), hhdr, hdelivers⟩

end Sys2Proof.Machine

/-! PROOF. The shape of a modulated buffer (R121, R140) and the frame round trip (R175, R178). -/

namespace Sys2Proof.Machine

/-! ### A modulated buffer -/

@[simp] theorem slot_length {S : Type} (num : Numerics S) (c : Cfg) (b : Bool) :
    (slot num c b).length = c.nTone + c.nSil := by
  rw [slot, List.length_append, tone_length, silence_length, segCount_seconds, segCount_seconds]
  rfl

@[simp] theorem modulate_nil {S : Type} (num : Numerics S) (c : Cfg) : modulate num c [] = [] := rfl

theorem modulate_cons {S : Type} (num : Numerics S) (c : Cfg) (b : Bool) (bits : List Bool) :
    modulate num c (b :: bits) = slot num c b ++ modulate num c bits :=
  List.flatMap_cons

theorem modulate_length {S : Type} (num : Numerics S) (c : Cfg) (bits : List Bool) :
    (modulate num c bits).length = bits.length * (c.nTone + c.nSil) := by
  induction bits with
  | nil => simp
  | cons b bits ih => rw [modulate_cons, List.length_append, slot_length, ih, List.length_cons, Nat.succ_mul, Nat.add_comm]

/-- The first sample of a tone has phase 0 (R121). -/
theorem tone_head? {S : Type} (num : Numerics S) (f : Nat) (d : Rat) {sr : Nat} (h : 0 < segCount sr d) :
    (tone num f d sr).head? = some (num.sinS 0) := by
  obtain ⟨n, hn⟩ := Nat.exists_eq_succ_of_ne_zero h.ne'
  simp [tone, hn, List.range_succ_eq_map]

/-- Settles O39: a slot is a tone and a silence, and the phase of a tone's first sample is 0. -/
theorem modulatedBufferShape : Obligations.ModulatedBufferShape :=
  ⟨fun _ => modulate_length, fun _ => modulate_nil, fun _ num f d _ => tone_head? num f d⟩

/-! ### A frame -/

/-- The header of a tag is whole: its length field gives the length of its name (R175). -/
theorem wholeHeader_of_method (t : Method) : WholeHeader (be32 (BitVec.ofNat 32 t.name.length)) t.name := by
  cases t <;> exact ⟨by decide, by decide⟩

/-- The name of a tag passes the checks and is found under its own tag (R174, R177). -/
theorem nameOutcome_name (t : Method) (payload : List Byte) : nameOutcome t.name payload = .ok t payload := by
  have hutf8 : utf8Ok t.name = true := by cases t <;> decide
  have hfind : Method.all.find? (fun u => u.name = t.name) = some t := by cases t <;> decide
  rw [nameOutcome, hutf8, hfind]
  rfl

/-- Settles O43: the header is a whole one, and its name is the tag's. -/
theorem frameRoundTrip : Obligations.FrameRoundTrip := fun t payload => by
  rw [header_eq, parseFrame_whole (wholeHeader_of_method t), nameOutcome_name]

end Sys2Proof.Machine

/-! PROOF. What the laws of the arithmetic say of regions and of generated samples (R11, R162). -/

namespace Sys2Proof.Machine

/-- Settles O57: N5 for a region of zeros, N3 for equal bins. -/
theorem silenceIsClassifiedZero : Obligations.SilenceIsClassifiedZero := by
  have hzero : ∀ (S : Type) (num : Numerics S) (c : RxCfg) (region : List S), num.Lawful →
      (∀ a ∈ region, num.sval a = 0) ∨ c.kHigh = c.kLow → c.classify num region = false := by
    rintro S num c region hlaw (hsilent | hbins)
    · exact hlaw.n5 region c.kHigh c.kLow hsilent
    · rw [RxCfg.classify, hbins]
      exact hlaw.n3 region c.kLow
  exact ⟨fun c region => hzero Sample openNumerics c region openNumerics_lawful, hzero⟩

/-! ### Scaling -/

/-- The transform is linear in the samples. -/
theorem dft_scaled {S : Type} {sval : S → ℝ} {x y : List S} {g : ℝ}
    (h : y.map sval = x.map (fun a => g * sval a)) (k : ℕ) : dft sval y k = g * dft sval x k := by
  have hlen : y.length = x.length := by simpa using congrArg List.length h
  rw [dft, dft, h, hlen, Finset.mul_sum]
  refine Finset.sum_congr rfl fun n hn => ?_
  have hn : n < x.length := Finset.mem_range.mp hn
  have hsample : (x.map (fun a => g * sval a)).getD n 0 = g * (x.map sval).getD n 0 := by
    simp [List.getD_eq_getElem?_getD, hn]
  rw [hsample, Complex.ofReal_mul, mul_assoc]

theorem magnitude_scaled {S : Type} {sval : S → ℝ} {x y : List S} {g : ℝ}
    (h : y.map sval = x.map (fun a => g * sval a)) (k : ℕ) : magnitude sval y k = |g| * magnitude sval x k := by
  rw [magnitude, magnitude, dft_scaled h, norm_mul, Complex.norm_real, Real.norm_eq_abs]

/-- Settles O58: both magnitudes of the region scale by the same positive factor. -/
theorem scalingLeavesTheBit : Obligations.ScalingLeavesTheBit := by
  intro S num c x y g hideal hg h
  have hpos : 0 < |g| := abs_pos.mpr hg
  rw [RxCfg.classify, RxCfg.classify, Bool.eq_iff_iff, hideal.compare, hideal.compare, magnitude_scaled h,
    magnitude_scaled h, mul_lt_mul_iff_right₀ hpos]

/-! ### Generated samples -/

theorem epsSin_nonneg {S : Type} {num : Numerics S} (h : num.Lawful) : 0 ≤ num.epsSin :=
  (abs_nonneg _).trans (h.n2 0)

/-- A sine sample is within `EPS_SIN` of a sine (N2). -/
theorem abs_sinS_le {S : Type} {num : Numerics S} (h : num.Lawful) (θ : Rat) :
    |num.sval (num.sinS θ)| ≤ 1 + num.epsSin :=
  calc |num.sval (num.sinS θ)| = |idealSin θ + (num.sval (num.sinS θ) - idealSin θ)| := by rw [add_sub_cancel]
    _ ≤ |idealSin θ| + |num.sval (num.sinS θ) - idealSin θ| := abs_add_le _ _
    _ ≤ 1 + num.epsSin := add_le_add (Real.abs_sin_le_one _) (h.n2 θ)

/-- Every sample of a modulated buffer is a sine sample or the zero sample (R140). -/
theorem mem_modulate {S : Type} {num : Numerics S} {c : Cfg} {bits : List Bool} {a : S} (h : a ∈ modulate num c bits) :
    (∃ θ, a = num.sinS θ) ∨ a = num.szero := by
  obtain ⟨b, -, hslot⟩ := List.mem_flatMap.mp h
  obtain htone | hsilence := List.mem_append.mp hslot
  · obtain ⟨k, -, rfl⟩ := List.mem_map.mp htone
    exact .inl ⟨_, rfl⟩
  · exact .inr (List.eq_of_mem_replicate hsilence)

/-- Settles O59: N2 bounds a sine sample, and the zero sample is 0. -/
theorem generatedSamplesAreInRange : Obligations.GeneratedSamplesAreInRange := by
  intro S num c bits hlaw a ha
  obtain ⟨θ, rfl⟩ | rfl := mem_modulate ha
  · exact abs_sinS_le hlaw θ
  · rw [hlaw.zero, abs_zero]
    exact add_nonneg zero_le_one (epsSin_nonneg hlaw)

end Sys2Proof.Machine

/-! PROOF. Under ideal arithmetic a tone of whole cycles has magnitude `n_tone / 2` in its own bin and 0 in every other, so the
demodulator gives the bit back (44_demodulator.md, section 1). -/

namespace Sys2Proof.Machine

/-! ### The transform of a sine of whole cycles -/

/-- The first root of unity, `e^(2πi/n)`. -/
noncomputable def firstRoot (n : ℕ) : ℂ :=
  Complex.exp (2 * Real.pi * Complex.I / n)

theorem firstRoot_isPrimitive {n : ℕ} (hn : 0 < n) : IsPrimitiveRoot (firstRoot n) n :=
  Complex.isPrimitiveRoot_exp n hn.ne'

theorem firstRoot_zpow_pow (n : ℕ) (a : ℤ) (j : ℕ) :
    (firstRoot n ^ a) ^ j = Complex.exp (j * (a * (2 * Real.pi * Complex.I / n))) := by
  rw [firstRoot, ← Complex.exp_int_mul, ← Complex.exp_nat_mul]

/-- The powers of a root of unity sum up to `n` for the root 1, and cancel for every other. -/
theorem sum_root_powers {n : ℕ} (hn : 0 < n) (a : ℤ) :
    ∑ j ∈ Finset.range n, (firstRoot n ^ a) ^ j = if (n : ℤ) ∣ a then (n : ℂ) else 0 := by
  have hone : firstRoot n ^ a = 1 ↔ (n : ℤ) ∣ a := (firstRoot_isPrimitive hn).zpow_eq_one_iff_dvd a
  split
  · rename_i hdvd
    simp [hone.mpr hdvd]
  · rename_i hdvd
    have hne : firstRoot n ^ a - 1 ≠ 0 := sub_ne_zero.mpr fun h => hdvd (hone.mp h)
    have hpow : (firstRoot n ^ a) ^ n = 1 := by
      rw [← zpow_natCast, zpow_comm, zpow_natCast, (firstRoot_isPrimitive hn).pow_eq_one, one_zpow]
    have hgeom := mul_geom_sum (firstRoot n ^ a) n
    rw [hpow, sub_self] at hgeom
    exact (mul_eq_zero.mp hgeom).resolve_left hne

/-- Sample `j` of a sine that makes `m` cycles in `n` samples. -/
noncomputable def sineSample (n m j : ℕ) : ℝ :=
  Real.sin (2 * Real.pi * (m * j / n))

/-- A sine sample turned back by `k` cycles: one rotating part at `m - k` cycles and one at `-(m + k)`. -/
theorem sineSample_turned (n m k j : ℕ) :
    (sineSample n m j : ℂ) * Complex.exp (-2 * Real.pi * Complex.I * k * j / n)
      = ((firstRoot n ^ (-(m + k) : ℤ)) ^ j - (firstRoot n ^ (m - k : ℤ)) ^ j) * (Complex.I / 2) := by
  rw [firstRoot_zpow_pow, firstRoot_zpow_pow, sineSample, Complex.ofReal_sin, Complex.sin]
  rw [mul_div_assoc, mul_right_comm, sub_mul, ← Complex.exp_add, ← Complex.exp_add]
  push_cast
  congr 3 <;> ring

theorem dft_eq_of_samples {S : Type} {sval : S → ℝ} {x : List S} {n : ℕ} {w : ℕ → ℝ}
    (h : x.map sval = (List.range n).map w) (k : ℕ) :
    dft sval x k = ∑ j ∈ Finset.range n, (w j : ℂ) * Complex.exp (-2 * Real.pi * Complex.I * k * j / n) := by
  have hlen : x.length = n := by simpa using congrArg List.length h
  rw [dft, h, hlen]
  refine Finset.sum_congr rfl fun j hj => ?_
  rw [List.getD_eq_getElem _ _ (by simpa using hj), List.getElem_map, List.getElem_range]

/-- A sine of `m` cycles, inside the axis, has magnitude `n / 2` in its own bin and 0 in every other one inside the axis. -/
theorem magnitude_sine {S : Type} {sval : S → ℝ} {x : List S} {n m k : ℕ}
    (h : x.map sval = (List.range n).map (sineSample n m)) (hm : 0 < m) (hmn : 2 * m < n) (hkn : 2 * k < n) :
    magnitude sval x k = if k = m then (n : ℝ) / 2 else 0 := by
  have hn : 0 < n := by omega
  have hback : ¬ (n : ℤ) ∣ -(m + k : ℤ) := by
    rw [dvd_neg]
    exact_mod_cast Nat.not_dvd_of_pos_of_lt (by omega) (by omega)
  have hforth : (n : ℤ) ∣ (m - k : ℤ) ↔ k = m := by
    constructor
    · intro hdvd
      have := Int.eq_zero_of_abs_lt_dvd hdvd (by rw [abs_lt]; omega)
      omega
    · rintro rfl
      simp
  have hsum : dft sval x k = (0 - if k = m then (n : ℂ) else 0) * (Complex.I / 2) := by
    rw [dft_eq_of_samples h, Finset.sum_congr rfl fun j _ => sineSample_turned n m k j, ← Finset.sum_mul,
      Finset.sum_sub_distrib, sum_root_powers hn, sum_root_powers hn, if_neg hback]
    simp only [hforth]
  rw [magnitude, hsum]
  split <;> simp [div_eq_mul_inv]

/-! ### The tones of a configuration -/

/-- The cycles in one tone segment of the frequency of a bit. -/
def cyclesOf (c : Cfg) (b : Bool) : Nat :=
  c.symFreq b * c.bitDur.toNat / unitsPerSecond

/-- A tone is a whole number of samples, in which `f` makes `m` whole cycles, `m` inside the axis. -/
structure WholeCycles (c : Cfg) (f m : Nat) : Prop where
  samples : c.sampleRate.toNat * c.bitDur.toNat = unitsPerSecond * c.nTone
  cycles : f * c.bitDur.toNat = unitsPerSecond * m
  pos : 0 < m
  lt : 2 * m < c.nTone

theorem nTone_of_dvd {c : Cfg} (h : unitsPerSecond ∣ c.sampleRate.toNat * c.bitDur.toNat) :
    c.sampleRate.toNat * c.bitDur.toNat = unitsPerSecond * c.nTone := by
  obtain ⟨n, hn⟩ := h
  have hexact := rndDiv_mul n 1 unitsPerSecond (by decide)
  have hwhole : rndDiv n 1 = n := by simp [rndDiv, Nat.mod_one]
  rw [Nat.mul_one] at hexact
  rw [Cfg.nTone, hn, hexact, hwhole]

theorem RoundTrips.wholeCycles {c : Cfg} (h : RoundTrips c) (b : Bool) : WholeCycles c (c.symFreq b) (cyclesOf c b) := by
  have hdvd : unitsPerSecond ∣ c.symFreq b * c.bitDur.toNat := by
    cases b with
    | true => exact h.wholeHigh
    | false => exact h.wholeLow
  have hpos : 0 < c.symFreq b * c.bitDur.toNat := by
    cases b with
    | true => exact h.high_pos
    | false => exact h.low_pos
  have hlt : cyclesOf c b ≤ (c.nTone + 1) / 2 - 1 := by
    cases b with
    | true => exact h.high_lt
    | false => exact h.low_lt
  have hm : 0 < cyclesOf c b := Nat.div_pos (Nat.le_of_dvd hpos hdvd) (by decide)
  exact ⟨nTone_of_dvd h.whole, (Nat.mul_div_cancel' hdvd).symm, hm, by omega⟩

theorem RoundTrips.cycles_ne {c : Cfg} (h : RoundTrips c) : cyclesOf c true ≠ cyclesOf c false := fun heq =>
  h.distinct ((h.wholeCycles true).cycles.trans (heq ▸ (h.wholeCycles false).cycles.symm))

/-- The bin nearest to a frequency of whole cycles is the number of its cycles (R29). -/
theorem WholeCycles.kbin_eq {c : Cfg} {f m : Nat} (h : WholeCycles c f m) :
    kbin f c.nTone c.sampleRate.toNat = m := by
  obtain ⟨hsamples, hcycles, hm, hlt⟩ := h
  have hn : 0 < c.nTone := by omega
  have hunits : 0 < unitsPerSecond := by decide
  have hproduct : 0 < c.sampleRate.toNat * c.bitDur.toNat := hsamples ▸ Nat.mul_pos hunits hn
  have hsr : 0 < c.sampleRate.toNat := Nat.pos_of_mul_pos_right hproduct
  have hbd : 0 < c.bitDur.toNat := Nat.pos_of_mul_pos_left hproduct
  have hscale : f * c.nTone = m * c.sampleRate.toNat := by
    refine Nat.eq_of_mul_eq_mul_right (Nat.mul_pos hunits hbd) ?_
    calc f * c.nTone * (unitsPerSecond * c.bitDur.toNat)
        = f * c.bitDur.toNat * (unitsPerSecond * c.nTone) := by ring
      _ = unitsPerSecond * m * (c.sampleRate.toNat * c.bitDur.toNat) := by rw [hcycles, hsamples]
      _ = m * c.sampleRate.toNat * (unitsPerSecond * c.bitDur.toNat) := by ring
  have hdouble : 2 * f * c.nTone = 2 * m * c.sampleRate.toNat := by rw [Nat.mul_assoc, hscale, Nat.mul_assoc]
  refine le_antisymm ((kbin_le_iff hn hsr m).mpr (.inr ?_)) (not_lt.mp fun hbelow => ?_)
  · rw [hdouble]
    exact Nat.mul_le_mul_right _ (by omega)
  · obtain hhalf | hnear := (kbin_le_iff hn hsr (m - 1)).mp (Nat.le_sub_one_of_lt hbelow)
    · omega
    · rw [hdouble] at hnear
      have := Nat.le_of_mul_le_mul_right hnear hsr
      omega

/-- A tone of whole cycles is the sine of those cycles (R121). -/
theorem WholeCycles.tone_samples {c : Cfg} {f m : Nat} (h : WholeCycles c f m) {S : Type} {num : Numerics S}
    (hideal : num.Ideal) :
    (tone num f (seconds c.bitDur) c.sampleRate.toNat).map num.sval
      = (List.range c.nTone).map (sineSample c.nTone m) := by
  have hcycles : (f : ℝ) * c.bitDur.toNat = unitsPerSecond * m := by exact_mod_cast h.cycles
  have hunits : (unitsPerSecond : ℝ) ≠ 0 := by norm_num [unitsPerSecond]
  have hcount : segCount c.sampleRate.toNat (seconds c.bitDur) = c.nTone := segCount_seconds _ _
  rw [tone, hcount, List.map_map]
  refine List.map_congr_left fun j _ => ?_
  rw [Function.comp_apply, hideal.sine, idealSin, sineSample, seconds]
  have hphase : (f : ℝ) * (j * (c.bitDur.toNat / unitsPerSecond) / c.nTone) = m * j / c.nTone :=
    calc (f : ℝ) * (j * (c.bitDur.toNat / unitsPerSecond) / c.nTone)
        = (f : ℝ) * c.bitDur.toNat / unitsPerSecond * j / c.nTone := by ring
      _ = m * j / c.nTone := by rw [hcycles, mul_div_cancel_left₀ _ hunits]
  push_cast
  rw [hphase]

/-! ### The round trip -/

/-- The region of a tone is classified as the bit it was made for. -/
theorem classify_tone {S : Type} {num : Numerics S} {c : Cfg} (hideal : num.Ideal) (htrip : RoundTrips c) (b : Bool) :
    (RxCfg.of c).classify num (tone num (c.symFreq b) (seconds c.bitDur) c.sampleRate.toNat) = b := by
  have hsent := htrip.wholeCycles b
  have hkHigh : (RxCfg.of c).kHigh = cyclesOf c true := (htrip.wholeCycles true).kbin_eq
  have hkLow : (RxCfg.of c).kLow = cyclesOf c false := (htrip.wholeCycles false).kbin_eq
  have hmagnitude := fun b' => magnitude_sine (hsent.tone_samples hideal) hsent.pos hsent.lt (htrip.wholeCycles b').lt
  have hhalf : (0 : ℝ) < c.nTone / 2 := by
    have hn : 0 < c.nTone := Nat.zero_lt_of_lt hsent.lt
    positivity
  rw [RxCfg.classify, Bool.eq_iff_iff, hideal.compare, hkHigh, hkLow, hmagnitude, hmagnitude]
  cases b with
  | true =>
    rw [if_pos rfl, if_neg htrip.cycles_ne.symm]
    exact iff_of_true hhalf rfl
  | false =>
    rw [if_pos rfl, if_neg htrip.cycles_ne]
    exact iff_of_false hhalf.not_gt Bool.false_ne_true

theorem demodulate_modulate {S : Type} {num : Numerics S} {c : Cfg} (hideal : num.Ideal) (hcfg : cfgchk c = 0#32)
    (htrip : RoundTrips c) (bits : List Bool) : demodulate num (RxCfg.of c) (modulate num c bits) = bits := by
  induction bits with
  | nil => exact demodulate_of_length_lt num _ (nSlot_pos hcfg)
  | cons b bits ih =>
    have hlen : (slot num c b).length = (RxCfg.of c).nSlot := by rw [slot_length, ← htrip.slots]; rfl
    have htone : (slot num c b).take (RxCfg.of c).nTone
        = tone num (c.symFreq b) (seconds c.bitDur) c.sampleRate.toNat :=
      List.take_left' (by rw [tone_length, segCount_seconds]; rfl)
    rw [modulate_cons, demodulate_slot num (nTone_le_nSlot c) (nSlot_pos hcfg) hlen, htone, classify_tone hideal htrip, ih]

/-- Settles O60: slot by slot, and packing undoes unpacking. -/
theorem idealRoundTrip : Obligations.IdealRoundTrip := fun _ _ _ hideal hcfg htrip =>
  ⟨demodulate_modulate hideal hcfg htrip, fun data => by
    rw [demodulate_modulate hideal hcfg htrip, bitsToBytes_bytesToBits]⟩

end Sys2Proof.Machine

/-! PROOF. The fields of `STATUS`, undefined accesses, the host's stream lines, turns, and the reset of the block (R35, R63, R76,
R203, R206, R208). -/

namespace Sys2Proof.Machine

/-! ### STATUS -/

theorem placed_getLsbD {len : Nat} (v : BitVec len) (lo i : Nat) :
    (v.setWidth 32 <<< lo).getLsbD i = (decide (i < 32) && decide (lo ≤ i) && v.getLsbD (i - lo)) := by
  rw [BitVec.getLsbD_shiftLeft, BitVec.getLsbD_setWidth]
  by_cases hi : i < 32
  · have hsub : i - lo < 32 := by omega
    by_cases hlo : i < lo
    · simp [hlo, Nat.not_le.mpr hlo]
    · simp [hi, hsub, hlo, Nat.not_lt.mp hlo]
  · simp [hi]

/-- A field read at its own place. -/
theorem placed_extractLsb'_same {len : Nat} (v : BitVec len) {lo : Nat} (h : lo + len ≤ 32) :
    (v.setWidth 32 <<< lo).extractLsb' lo len = v := by
  ext i hi
  have hin : lo + i < 32 := by omega
  rw [BitVec.getElem_extractLsb', placed_getLsbD, decide_eq_true hin, decide_eq_true (Nat.le_add_right lo i),
    Nat.add_sub_cancel_left, Bool.true_and, Bool.true_and, BitVec.getLsbD_eq_getElem hi]

/-- A field read at a place apart from its own. -/
theorem placed_extractLsb'_apart {len : Nat} (v : BitVec len) {lo at' len' : Nat} (h : at' + len' ≤ lo ∨ lo + len ≤ at') :
    (v.setWidth 32 <<< lo).extractLsb' at' len' = 0#len' := by
  ext i hi
  rw [BitVec.getElem_extractLsb', placed_getLsbD, BitVec.getElem_zero]
  by_cases hlo : lo ≤ at' + i
  · rw [BitVec.getLsbD_of_ge v _ (by omega), Bool.and_false]
  · rw [decide_eq_false hlo, Bool.and_false, Bool.false_and]

theorem status_hpState (s : State) : s.status.extractLsb' 8 3 = s.hp.state.code := by
  simp [State.status, BitVec.extractLsb'_or, placed_extractLsb'_same, placed_extractLsb'_apart]

theorem status_dsCnt (s : State) : s.status.extractLsb' 16 4 = BitVec.ofNat 4 s.rx.dsCnt := by
  simp [State.status, BitVec.extractLsb'_or, placed_extractLsb'_same, placed_extractLsb'_apart]

/-- A field of `STATUS` above the flags and apart from the two wider fields holds nothing. -/
theorem status_unused (s : State) {lo len : Nat} (hlo : 5 < lo) (hstate : lo + len ≤ 8 ∨ 11 ≤ lo)
    (hcnt : lo + len ≤ 16 ∨ 20 ≤ lo) : s.status.extractLsb' lo len = 0#len := by
  rw [State.status]
  simp only [BitVec.extractLsb'_or]
  rw [flagBit_extractLsb'_above (by omega), flagBit_extractLsb'_above (by omega), flagBit_extractLsb'_above (by omega),
    flagBit_extractLsb'_above (by omega), flagBit_extractLsb'_above (by omega), flagBit_extractLsb'_above hlo,
    placed_extractLsb'_apart _ hstate, placed_extractLsb'_apart _ hcnt]
  simp only [BitVec.or_zero]

/-- A flag of `STATUS` is read at its own bit: the flags lie apart, and the wider fields lie above them. -/
theorem status_flag (s : State) {i : Nat} (hi : i < 6) :
    s.status.getLsbD i = [s.tx.busy, s.rx.busy, s.tx.done, s.rx.done, s.errf, s.rx.eos][i] := by
  interval_cases i <;> simp [State.status]

/-- Settles O44: each flag is read at its own bit, each wider field at its own place, and between them there is nothing. -/
theorem statusFields : Obligations.StatusFields := by
  intro s hds
  refine ⟨status_flag s (i := 0) (by decide), status_flag s (i := 1) (by decide), status_flag s (i := 2) (by decide),
    status_flag s (i := 3) (by decide), ?_, status_flag s (i := 5) (by decide), status_unused s (by decide) (by decide)
    (by decide), (status_hpState s).trans ?_, status_unused s (by decide) (by decide) (by decide), ?_,
    status_unused s (by decide) (by decide) (by decide)⟩
  · rw [← State.errf_iff, State.readReg, status_flag s (i := 4) (by decide)]
    rfl
  · cases s.hp.state <;> rfl
  · rw [State.readReg, status_dsCnt, BitVec.toNat_ofNat, Nat.mod_eq_of_lt (by omega)]

/-! ### Accesses without a defined behaviour -/

theorem atOffset_outside {offset : Nat} (h : 0x100 ≤ offset) (k : Host.Outcome State Fault Refusal) :
    atOffset offset k = .refused (.outsideWindow offset) :=
  if_pos h

theorem atOffset_misaligned {offset : Nat} (hlt : offset < 0x100) (h : offset % 4 ≠ 0)
    (k : Host.Outcome State Fault Refusal) : atOffset offset k = .refused (.misaligned offset) := by
  rw [atOffset, if_neg (by omega), if_pos h]

/-- Settles O48: reads and writes look at the offset first. -/
theorem undefinedAccessesStop : Obligations.UndefinedAccessesStop := fun _ _ _ =>
  ⟨fun hlt h => ⟨atOffset_misaligned hlt h _, atOffset_misaligned hlt h _⟩,
    fun h => ⟨atOffset_outside h _, atOffset_outside h _⟩⟩

/-! ### The host's stream lines -/

theorem fits_unbounded (s s' : State) : fits (fun _ => none) s s' = true := by
  simp [fits, roomFor]

/-- A poll answers `STATUS` and keeps the line while the engine is busy. -/
theorem waitOn_eq (busy : Bool) (line : HostStep) (s : State) :
    waitOn busy line s = { s with
      replies := s.replies ++ [.word (s.readReg .status)]
      host := if busy then line :: s.host else s.host } := by
  cases busy <;> rfl

/-- Settles O49: with no depth every push fits; a pop looks at the head of its stream, and `popall` at whether that is `END`. -/
theorem streamsAreFirstInFirstOut : Obligations.StreamsAreFirstInFirstOut := by
  intro held s x a
  refine ⟨?_, ?_, ?_, ?_, ?_, ?_, ?_, ?_, ?_, ?_, ?_, ?_, ?_, ?_, ?_⟩
  · rw [hostTurn, fits_unbounded, if_pos rfl, State.pushTxd]
  · rw [hostTurn, fits_unbounded, if_pos rfl, State.pushRxs]
  · rw [hostTurn, fits_unbounded, if_pos rfl, State.pushRxb]
  · intro rest h
    simp only [hostTurn, h, State.answer]
  · intro rest h
    simp only [hostTurn, h, State.answer]
  · intro h
    simp only [hostTurn, h]
  · intro h
    simp only [hostTurn, h]
  · cases h : s.txs <;> simp only [hostTurn, headReply, h, State.answer]
  · cases h : s.rxd <;> simp only [hostTurn, headReply, h, State.answer]
  · rw [hostTurn, waitOn_eq]
  · rw [hostTurn, waitOn_eq]
  · intro rest h
    cases a <;> simp [hostTurn, h, State.answer]
  · intro rest h
    cases x <;> simp [hostTurn, h, State.answer]
  · intro h
    simp only [hostTurn, h]
  · intro h
    simp only [hostTurn, h]

/-! ### Turns -/

theorem turnOf_cons {s : State} {a : Agent} {turns : List Agent} (h : s.turns = a :: turns) :
    s.TurnOf a { s with turns := turns } :=
  .inl ⟨turns, h, rfl⟩

theorem turnOf_drawn {s : State} (h : s.turns = []) : s.TurnOf (Config.freeAgent s.drawn) { s with drawn := s.drawn + 1 } :=
  .inr ⟨h, rfl, rfl⟩

/-- At a turn of the host its next line is taken. -/
theorem step_of_hostLine {s : State} {turns : List Agent} {line : HostStep} {lines : List HostStep}
    (hturns : s.turns = .host :: turns) (hhost : s.host = line :: lines) :
    step s = hostTurn (fun _ => none) line { s with turns := turns } { s with turns := turns, host := lines } := by
  rw [step_of_turn (turnOf_cons hturns), agentTurn, hostTurns]
  simp only [hhost]
  rfl

/-- Settles O5: a listed turn is its agent's, and with none listed the schedule draws one. -/
theorem turnsBelongToOneAgent : Obligations.TurnsBelongToOneAgent := by
  refine ⟨fun s turns h => ?_, fun s turns h => ?_, fun s turns h hhost => ?_, fun s turns line lines h hhost =>
    step_of_hostLine h hhost, fun s h => step_of_turn (turnOf_drawn h), fun depth held s offset v => ⟨rfl, rfl⟩⟩
  · rw [step_of_turn (turnOf_cons h), agentTurn, txTurn, heldOr_unbounded]
    rfl
  · rw [step_of_turn (turnOf_cons h), agentTurn, rxTurn, heldOr_unbounded]
    rfl
  · rw [step_of_turn (turnOf_cons h), agentTurn, hostTurns]
    simp only [hhost]

/-- Settles O4: the line is a write to `CMD`, and such a write issues its word. -/
theorem stepIssuesTheDecodedCommand : Obligations.StepIssuesTheDecodedCommand := by
  intro s w turns lines hturns hhost
  have hstep : step s = issue w { s with turns := turns, host := lines } :=
    (step_of_hostLine hturns hhost).trans (hostWrite_cmd w _)
  rw [hstep]
  exact ⟨fun i hi _ => issue_of_decode_some hi _, fun hnone => issue_of_decode_none hnone _⟩

/-! ### Reset and fixed words -/

theorem exec_reset (s : State) : exec .reset s = .next s.resetBlock := rfl

theorem status_reset : State.reset.status = 0#32 := by decide

/-- `STATUS` reads nothing that a reset keeps. -/
theorem resetBlock_status (s : State) : s.resetBlock.status = 0#32 := status_reset

/-- Settles O8: `RESET` and the reset input are the same reset of the block; `RESET` has no operand. -/
theorem resetRestoresTheResetState : Obligations.ResetRestoresTheResetState := by
  refine ⟨exec_reset, fun s t h => ?_, rfl, fun _ _ _ => rfl, fun w s hop hw =>
    issue_of_decode_none (decode_eq_none_of_ne_commandWord (by decide) hop hw) s⟩
  have ht : s.resetBlock = t := Host.Outcome.next.inj (exec_reset s ▸ h)
  rw [← ht]
  exact ⟨resetBlock_status s, rfl, rfl, rfl, rfl, rfl⟩

/-- The configuration after reset is the open one where that is valid, and valid in any case (R243). -/
theorem resetCfg_valid : cfgchk resetCfg = 0#32 ∧ (resetCfg = Config.defaults ∨ cfgchk Config.defaults ≠ 0#32) := by
  unfold resetCfg
  split
  · rename_i hvalid
    exact ⟨hvalid, .inl rfl⟩
  · rename_i hinvalid
    exact ⟨by decide, .inr hinvalid⟩

/-- Settles O9: every value but the configuration's is written out in the reset state. -/
theorem resetValues : Obligations.ResetValues := by
  obtain ⟨hvalid, hdefaults⟩ := resetCfg_valid
  exact ⟨status_reset, rfl, rfl, rfl, rfl, rfl, rfl, rfl, rfl, rfl, rfl, rfl, rfl, rfl, rfl, rfl, rfl, rfl, rfl, rfl, rfl, rfl, rfl, rfl,
    rfl, rfl, rfl, rfl, rfl, rfl, rfl, rfl, rfl, rfl, hvalid, hdefaults⟩

/-- Settles O1: each fixed word is looked up in the opcode table. -/
theorem specWordsDecode : Obligations.SpecWordsDecode := by
  unfold Obligations.SpecWordsDecode
  decide

end Sys2Proof.Machine
